-- ==== Sys2Proof/Word.lean ====
section
/-! DEFINITION. The word types of the machine: register, byte, slot (`10_state.md` R20, `20_memory.md` R40,
`30_encoding.md` R70). -/

namespace Sys2Proof

/-- A register value or a data address: 64 bits (R20, R40). -/
abbrev Word := BitVec 64

/-- A byte of data memory: 8 bits (R40). -/
abbrev Byte := BitVec 8

/-- One 64-bit unit of program text (R70, R71). -/
abbrev Slot := BitVec 64

end Sys2Proof
end

