-- ==== Sys2Proof/Config.lean ====
section
/-! DEFINITION. The parameters of the model (`00_scope.md` R2) and its free values (`93_implementation_defined.md`
section 1). The parameters are plain data, held in the state's field `params`, so that a statement over every state
covers every value of them; the free values are constants without a body. -/

namespace Sys2Proof

/-- HOST_ENDIAN (R2, R44): the byte order of the host. -/
inductive Endian
  | little
  | big
  deriving DecidableEq, Repr

/-- SHIFT_MODE (R2, R139): what a shift count at or above the operand's width does. -/
inductive ShiftMode
  /-- the count is taken modulo the width -/
  | mask
  /-- the result is any value -/
  | draw
  deriving DecidableEq, Repr

/-- NEG_READING (R2, R129, R130). -/
inductive NegReading
  /-- `dst = ~src`, the source's table row -/
  | source
  /-- `dst = -dst`, with the immediate form's byte only -/
  | negateDst
  deriving DecidableEq, Repr

/-- WIDE_IMM_LAYOUT (R2, R79, R253): where the 64 bits of `imm64` lie. -/
inductive WideImmLayout
  /-- the whole second slot -/
  | source
  /-- the two slots' `imm` fields, the first the low half -/
  | split32
  deriving DecidableEq, Repr

/-- One element of REGIONS (R2, R47). -/
structure Region where
  base : Word
  length : Nat
  readable : Bool
  writable : Bool
  shared : Bool
  deriving DecidableEq, Repr

/-- A relation that the model's user supplies (HELPERS' functions and ENV_STEP of R2), as plain data (log 8, log 10). -/
inductive Relation (α β : Type)
  /-- the relation that consists of these pairs -/
  | listed (pairs : List (α × β))
  /-- any relation at all: a free value, the constant of Config for such relations at this name -/
  | unknown (name : Nat)
  deriving DecidableEq, Repr

/-- The function `f` of an entry `(k, f)` of HELPERS (R185): it relates the argument values and data memory before to the
result and data memory after. Memories stand in the canonical form of the state's data memory. -/
abbrev HelperFunction := Relation (List Word × List Host.Cell) (Word × List Host.Cell)

/-- ENV_STEP (R2, R57): it relates the shared bytes before to the shared bytes after, each in canonical form. -/
abbrev EnvStep := Relation (List Host.Cell) (List Host.Cell)

/-- One entry of the map HELPERS (R185): a function number, how many arguments, 0 to 5, the function takes, and the
function. -/
structure Helper where
  number : BitVec 32
  arity : Fin 6
  function : HelperFunction
  deriving DecidableEq, Repr

/-- The parameters of R2, fixed for the whole of one run and never changed by an instruction. PROGRAM is the state's field
`program`. -/
structure Params where
  /-- HOST_ENDIAN -/
  hostEndian : Endian
  /-- ENTRY_ARGS: the values of R1 to R5 at entry; elements after the fifth are not used -/
  entryArgs : List Word
  /-- STACK_SIZE, in bytes -/
  stackSize : Nat
  /-- STACK_BASE -/
  stackBase : Word
  /-- REGIONS but for the stack, which R48 puts in it always: see `Params.allRegions` -/
  regions : List Region
  /-- ALIGN_STRICT -/
  alignStrict : Bool
  /-- SHIFT_MODE -/
  shiftMode : ShiftMode
  /-- NEG_READING -/
  negReading : NegReading
  /-- WIDE_IMM_LAYOUT -/
  wideImm : WideImmLayout
  /-- HELPERS: the entries of the map; the first with a number is the number's -/
  helpers : List Helper
  /-- ENV_STEP; none is the identity (no other agent) -/
  envStep : Option EnvStep
  deriving DecidableEq, Repr

/-- The defaults of R2. The open parameters have the values of the spec's worked examples (`95_test_vectors.md`, first
paragraph). DESIGN CHOICE (log 1, 2, 3, 8): little endian, the stack at 0x10000, no other region, no entry argument, no
helper function. -/
def Params.default : Params where
  hostEndian := .little
  entryArgs := []
  stackSize := 512
  stackBase := 0x10000#64
  regions := []
  alignStrict := true
  shiftMode := .mask
  negReading := .source
  wideImm := .source
  helpers := []
  envStep := none

/-- The stack's region (R48): readable, writable, not shared. -/
def Params.stackRegion (p : Params) : Region where
  base := p.stackBase
  length := p.stackSize
  readable := true
  writable := true
  shared := false

/-- REGIONS: the stack is always in it (R48). -/
def Params.allRegions (p : Params) : List Region :=
  p.stackRegion :: p.regions

/-- `draw_64()` (R139 with SHIFT_MODE = draw): a free value. Nothing is known of it (log 12). -/
opaque Config.draw64 : Nat → BitVec 64

/-- `draw_32()` (R139 with SHIFT_MODE = draw): a free value. Nothing is known of it (log 12). -/
opaque Config.draw32 : Nat → BitVec 32

/-- The functions of HELPERS that are given by name alone (R185): for argument values and data memory before, none where
`f` allows no result (the call fails, R268), else a numbering of every (result, memory after) that `f` allows. A free
value: nothing is known of it, so whether such a function fails is open too (log 8). -/
opaque Config.helperAnswers :
  (name : Nat) → (args : List Word) → (mem : List Host.Cell) → Option (Nat → Word × List Host.Cell)

/-- The relations ENV_STEP that are given by name alone (R57): for the shared bytes before, none where it allows no step, else
a numbering of all the shared bytes after that it allows. A free value: nothing is known of it (log 10). -/
opaque Config.envOutcomes : (name : Nat) → (shared : List Host.Cell) → Option (Nat → List Host.Cell)

/-- Which of the answers that its function allows a call gets (R185, `choose`) where the state lists no choice: a free value.
Nothing is known of it (log 8). -/
opaque Config.callChoice : Nat → Nat

/-- Which steps of ENV_STEP fall between two steps of the program (R55, R293) where the state lists no choice: a free value.
Nothing is known of it (log 10). -/
opaque Config.envChoice : Nat → List Nat

end Sys2Proof
end

