-- ==== Sys2Proof/Syntax.lean ====
section
/-! DEFINITION. The instructions of eBPF v1.0, one constructor per row of `spec/opcode_table.json` (`30_encoding.md` R84,
R88, R90). A suffix K marks the form with an immediate (BPF_K), X the form with a source register (BPF_X). A register that
an instruction writes is a `Gpr`, so that a write to the read-only R10 (R22) and a register number above 10 (R23) cannot be
built; decoding refuses them by name. -/

namespace Sys2Proof

/-- The general purpose registers R0 to R9 (R20, R21): the registers an instruction may write. -/
inductive Gpr
  | r0 | r1 | r2 | r3 | r4 | r5 | r6 | r7 | r8 | r9
  deriving DecidableEq, Repr

/-- The registers an instruction may read: R0 to R9 and the frame pointer R10 (R20, R22). -/
inductive Reg
  | gpr (r : Gpr)
  | r10
  deriving DecidableEq, Repr

/-- The size modifier (R42, R78): byte, half word, word, double word. -/
inductive Size
  | b | h | w | dw
  deriving DecidableEq, Repr

/-- The instructions. `off` is the 16-bit offset (R81), `imm` the 32-bit immediate (R82), `imm64` the 64-bit immediate of
the wide instruction (R79). -/
inductive Instr
  -- class BPF_ALU, 32-bit arithmetic (R110 to R112)
  /-- `add32`, R114 -/
  | add32K (dst : Gpr) (imm : BitVec 32)
  /-- `add32`, R114 -/
  | add32X (dst : Gpr) (src : Reg)
  /-- `sub32`, R116 -/
  | sub32K (dst : Gpr) (imm : BitVec 32)
  /-- `sub32`, R116 -/
  | sub32X (dst : Gpr) (src : Reg)
  /-- `mul32`, R118 -/
  | mul32K (dst : Gpr) (imm : BitVec 32)
  /-- `mul32`, R118 -/
  | mul32X (dst : Gpr) (src : Reg)
  /-- `div32`, R120 -/
  | div32K (dst : Gpr) (imm : BitVec 32)
  /-- `div32`, R120 -/
  | div32X (dst : Gpr) (src : Reg)
  /-- `or32`, R122 -/
  | or32K (dst : Gpr) (imm : BitVec 32)
  /-- `or32`, R122 -/
  | or32X (dst : Gpr) (src : Reg)
  /-- `and32`, R124 -/
  | and32K (dst : Gpr) (imm : BitVec 32)
  /-- `and32`, R124 -/
  | and32X (dst : Gpr) (src : Reg)
  /-- `lsh32`, R126 -/
  | lsh32K (dst : Gpr) (imm : BitVec 32)
  /-- `lsh32`, R126 -/
  | lsh32X (dst : Gpr) (src : Reg)
  /-- `rsh32`, R128 -/
  | rsh32K (dst : Gpr) (imm : BitVec 32)
  /-- `rsh32`, R128 -/
  | rsh32X (dst : Gpr) (src : Reg)
  /-- `neg32`, R130 -/
  | neg32K (dst : Gpr) (imm : BitVec 32)
  /-- `neg32`, R130 -/
  | neg32X (dst : Gpr) (src : Reg)
  /-- `mod32`, R132 -/
  | mod32K (dst : Gpr) (imm : BitVec 32)
  /-- `mod32`, R132 -/
  | mod32X (dst : Gpr) (src : Reg)
  /-- `xor32`, R134 -/
  | xor32K (dst : Gpr) (imm : BitVec 32)
  /-- `xor32`, R134 -/
  | xor32X (dst : Gpr) (src : Reg)
  /-- `mov32`, R136 -/
  | mov32K (dst : Gpr) (imm : BitVec 32)
  /-- `mov32`, R136 -/
  | mov32X (dst : Gpr) (src : Reg)
  /-- `arsh32`, R138 -/
  | arsh32K (dst : Gpr) (imm : BitVec 32)
  /-- `arsh32`, R138 -/
  | arsh32X (dst : Gpr) (src : Reg)
  -- byte swaps (R150, R158)
  /-- `le16`, R151 -/
  | le16 (dst : Gpr)
  /-- `le32`, R152 -/
  | le32 (dst : Gpr)
  /-- `le64`, R153 -/
  | le64 (dst : Gpr)
  /-- `be16`, R154 -/
  | be16 (dst : Gpr)
  /-- `be32`, R155 -/
  | be32 (dst : Gpr)
  /-- `be64`, R156 -/
  | be64 (dst : Gpr)
  -- class BPF_ALU64, 64-bit arithmetic (R110 to R112)
  /-- `add64`, R113 -/
  | add64K (dst : Gpr) (imm : BitVec 32)
  /-- `add64`, R113 -/
  | add64X (dst : Gpr) (src : Reg)
  /-- `sub64`, R115 -/
  | sub64K (dst : Gpr) (imm : BitVec 32)
  /-- `sub64`, R115 -/
  | sub64X (dst : Gpr) (src : Reg)
  /-- `mul64`, R117 -/
  | mul64K (dst : Gpr) (imm : BitVec 32)
  /-- `mul64`, R117 -/
  | mul64X (dst : Gpr) (src : Reg)
  /-- `div64`, R119 -/
  | div64K (dst : Gpr) (imm : BitVec 32)
  /-- `div64`, R119 -/
  | div64X (dst : Gpr) (src : Reg)
  /-- `or64`, R121 -/
  | or64K (dst : Gpr) (imm : BitVec 32)
  /-- `or64`, R121 -/
  | or64X (dst : Gpr) (src : Reg)
  /-- `and64`, R123 -/
  | and64K (dst : Gpr) (imm : BitVec 32)
  /-- `and64`, R123 -/
  | and64X (dst : Gpr) (src : Reg)
  /-- `lsh64`, R125 -/
  | lsh64K (dst : Gpr) (imm : BitVec 32)
  /-- `lsh64`, R125 -/
  | lsh64X (dst : Gpr) (src : Reg)
  /-- `rsh64`, R127 -/
  | rsh64K (dst : Gpr) (imm : BitVec 32)
  /-- `rsh64`, R127 -/
  | rsh64X (dst : Gpr) (src : Reg)
  /-- `neg64`, R129 -/
  | neg64K (dst : Gpr) (imm : BitVec 32)
  /-- `neg64`, R129 -/
  | neg64X (dst : Gpr) (src : Reg)
  /-- `mod64`, R131 -/
  | mod64K (dst : Gpr) (imm : BitVec 32)
  /-- `mod64`, R131 -/
  | mod64X (dst : Gpr) (src : Reg)
  /-- `xor64`, R133 -/
  | xor64K (dst : Gpr) (imm : BitVec 32)
  /-- `xor64`, R133 -/
  | xor64X (dst : Gpr) (src : Reg)
  /-- `mov64`, R135 -/
  | mov64K (dst : Gpr) (imm : BitVec 32)
  /-- `mov64`, R135 -/
  | mov64X (dst : Gpr) (src : Reg)
  /-- `arsh64`, R137 -/
  | arsh64K (dst : Gpr) (imm : BitVec 32)
  /-- `arsh64`, R137 -/
  | arsh64X (dst : Gpr) (src : Reg)
  -- class BPF_JMP, 64-bit jumps, call and exit (R160, R161)
  /-- `ja`, R162 -/
  | ja (off : BitVec 16)
  /-- `jeq`, R163 -/
  | jeqK (dst : Reg) (imm : BitVec 32) (off : BitVec 16)
  /-- `jeq`, R163 -/
  | jeqX (dst : Reg) (src : Reg) (off : BitVec 16)
  /-- `jgt`, R165 -/
  | jgtK (dst : Reg) (imm : BitVec 32) (off : BitVec 16)
  /-- `jgt`, R165 -/
  | jgtX (dst : Reg) (src : Reg) (off : BitVec 16)
  /-- `jge`, R167 -/
  | jgeK (dst : Reg) (imm : BitVec 32) (off : BitVec 16)
  /-- `jge`, R167 -/
  | jgeX (dst : Reg) (src : Reg) (off : BitVec 16)
  /-- `jset`, R169 -/
  | jsetK (dst : Reg) (imm : BitVec 32) (off : BitVec 16)
  /-- `jset`, R169 -/
  | jsetX (dst : Reg) (src : Reg) (off : BitVec 16)
  /-- `jne`, R171 -/
  | jneK (dst : Reg) (imm : BitVec 32) (off : BitVec 16)
  /-- `jne`, R171 -/
  | jneX (dst : Reg) (src : Reg) (off : BitVec 16)
  /-- `jsgt`, R173 -/
  | jsgtK (dst : Reg) (imm : BitVec 32) (off : BitVec 16)
  /-- `jsgt`, R173 -/
  | jsgtX (dst : Reg) (src : Reg) (off : BitVec 16)
  /-- `jsge`, R175 -/
  | jsgeK (dst : Reg) (imm : BitVec 32) (off : BitVec 16)
  /-- `jsge`, R175 -/
  | jsgeX (dst : Reg) (src : Reg) (off : BitVec 16)
  /-- `jlt`, R177 -/
  | jltK (dst : Reg) (imm : BitVec 32) (off : BitVec 16)
  /-- `jlt`, R177 -/
  | jltX (dst : Reg) (src : Reg) (off : BitVec 16)
  /-- `jle`, R179 -/
  | jleK (dst : Reg) (imm : BitVec 32) (off : BitVec 16)
  /-- `jle`, R179 -/
  | jleX (dst : Reg) (src : Reg) (off : BitVec 16)
  /-- `jslt`, R181 -/
  | jsltK (dst : Reg) (imm : BitVec 32) (off : BitVec 16)
  /-- `jslt`, R181 -/
  | jsltX (dst : Reg) (src : Reg) (off : BitVec 16)
  /-- `jsle`, R183 -/
  | jsleK (dst : Reg) (imm : BitVec 32) (off : BitVec 16)
  /-- `jsle`, R183 -/
  | jsleX (dst : Reg) (src : Reg) (off : BitVec 16)
  /-- `call`, R185 -/
  | call (imm : BitVec 32)
  /-- `exit`, R186 -/
  | exit
  -- class BPF_JMP32, 32-bit jumps (R160, R161)
  /-- `jeq32`, R164 -/
  | jeq32K (dst : Reg) (imm : BitVec 32) (off : BitVec 16)
  /-- `jeq32`, R164 -/
  | jeq32X (dst : Reg) (src : Reg) (off : BitVec 16)
  /-- `jgt32`, R166 -/
  | jgt32K (dst : Reg) (imm : BitVec 32) (off : BitVec 16)
  /-- `jgt32`, R166 -/
  | jgt32X (dst : Reg) (src : Reg) (off : BitVec 16)
  /-- `jge32`, R168 -/
  | jge32K (dst : Reg) (imm : BitVec 32) (off : BitVec 16)
  /-- `jge32`, R168 -/
  | jge32X (dst : Reg) (src : Reg) (off : BitVec 16)
  /-- `jset32`, R170 -/
  | jset32K (dst : Reg) (imm : BitVec 32) (off : BitVec 16)
  /-- `jset32`, R170 -/
  | jset32X (dst : Reg) (src : Reg) (off : BitVec 16)
  /-- `jne32`, R172 -/
  | jne32K (dst : Reg) (imm : BitVec 32) (off : BitVec 16)
  /-- `jne32`, R172 -/
  | jne32X (dst : Reg) (src : Reg) (off : BitVec 16)
  /-- `jsgt32`, R174 -/
  | jsgt32K (dst : Reg) (imm : BitVec 32) (off : BitVec 16)
  /-- `jsgt32`, R174 -/
  | jsgt32X (dst : Reg) (src : Reg) (off : BitVec 16)
  /-- `jsge32`, R176 -/
  | jsge32K (dst : Reg) (imm : BitVec 32) (off : BitVec 16)
  /-- `jsge32`, R176 -/
  | jsge32X (dst : Reg) (src : Reg) (off : BitVec 16)
  /-- `jlt32`, R178 -/
  | jlt32K (dst : Reg) (imm : BitVec 32) (off : BitVec 16)
  /-- `jlt32`, R178 -/
  | jlt32X (dst : Reg) (src : Reg) (off : BitVec 16)
  /-- `jle32`, R180 -/
  | jle32K (dst : Reg) (imm : BitVec 32) (off : BitVec 16)
  /-- `jle32`, R180 -/
  | jle32X (dst : Reg) (src : Reg) (off : BitVec 16)
  /-- `jslt32`, R182 -/
  | jslt32K (dst : Reg) (imm : BitVec 32) (off : BitVec 16)
  /-- `jslt32`, R182 -/
  | jslt32X (dst : Reg) (src : Reg) (off : BitVec 16)
  /-- `jsle32`, R184 -/
  | jsle32K (dst : Reg) (imm : BitVec 32) (off : BitVec 16)
  /-- `jsle32`, R184 -/
  | jsle32X (dst : Reg) (src : Reg) (off : BitVec 16)
  -- loads (R200, R213)
  /-- `ldxw`, R203 -/
  | ldxw (dst : Gpr) (src : Reg) (off : BitVec 16)
  /-- `ldxh`, R202 -/
  | ldxh (dst : Gpr) (src : Reg) (off : BitVec 16)
  /-- `ldxb`, R201 -/
  | ldxb (dst : Gpr) (src : Reg) (off : BitVec 16)
  /-- `ldxdw`, R204 -/
  | ldxdw (dst : Gpr) (src : Reg) (off : BitVec 16)
  -- stores of an immediate (R200, R213)
  /-- `stw`, R207 -/
  | stw (dst : Reg) (off : BitVec 16) (imm : BitVec 32)
  /-- `sth`, R206 -/
  | sth (dst : Reg) (off : BitVec 16) (imm : BitVec 32)
  /-- `stb`, R205 -/
  | stb (dst : Reg) (off : BitVec 16) (imm : BitVec 32)
  /-- `stdw`, R208 -/
  | stdw (dst : Reg) (off : BitVec 16) (imm : BitVec 32)
  -- stores of a register (R200, R213)
  /-- `stxw`, R211 -/
  | stxw (dst : Reg) (src : Reg) (off : BitVec 16)
  /-- `stxh`, R210 -/
  | stxh (dst : Reg) (src : Reg) (off : BitVec 16)
  /-- `stxb`, R209 -/
  | stxb (dst : Reg) (src : Reg) (off : BitVec 16)
  /-- `stxdw`, R212 -/
  | stxdw (dst : Reg) (src : Reg) (off : BitVec 16)
  -- atomic operations (R220 to R222): `dst` is the base register, only read
  /-- `aadd32`, R223 -/
  | aadd32 (dst : Reg) (src : Reg) (off : BitVec 16)
  /-- `afadd32`, R224 -/
  | afadd32 (dst : Reg) (src : Gpr) (off : BitVec 16)
  /-- `aor32`, R225 -/
  | aor32 (dst : Reg) (src : Reg) (off : BitVec 16)
  /-- `afor32`, R226 -/
  | afor32 (dst : Reg) (src : Gpr) (off : BitVec 16)
  /-- `aand32`, R227 -/
  | aand32 (dst : Reg) (src : Reg) (off : BitVec 16)
  /-- `afand32`, R228 -/
  | afand32 (dst : Reg) (src : Gpr) (off : BitVec 16)
  /-- `axor32`, R229 -/
  | axor32 (dst : Reg) (src : Reg) (off : BitVec 16)
  /-- `afxor32`, R230 -/
  | afxor32 (dst : Reg) (src : Gpr) (off : BitVec 16)
  /-- `aadd64`, R231 -/
  | aadd64 (dst : Reg) (src : Reg) (off : BitVec 16)
  /-- `afadd64`, R232 -/
  | afadd64 (dst : Reg) (src : Gpr) (off : BitVec 16)
  /-- `aor64`, R233 -/
  | aor64 (dst : Reg) (src : Reg) (off : BitVec 16)
  /-- `afor64`, R234 -/
  | afor64 (dst : Reg) (src : Gpr) (off : BitVec 16)
  /-- `aand64`, R235 -/
  | aand64 (dst : Reg) (src : Reg) (off : BitVec 16)
  /-- `afand64`, R236 -/
  | afand64 (dst : Reg) (src : Gpr) (off : BitVec 16)
  /-- `axor64`, R237 -/
  | axor64 (dst : Reg) (src : Reg) (off : BitVec 16)
  /-- `afxor64`, R238 -/
  | afxor64 (dst : Reg) (src : Gpr) (off : BitVec 16)
  /-- `axchg32`, R239 -/
  | axchg32 (dst : Reg) (src : Gpr) (off : BitVec 16)
  /-- `axchg64`, R240 -/
  | axchg64 (dst : Reg) (src : Gpr) (off : BitVec 16)
  /-- `acmpxchg32`, R241 -/
  | acmpxchg32 (dst : Reg) (src : Reg) (off : BitVec 16)
  /-- `acmpxchg64`, R242 -/
  | acmpxchg64 (dst : Reg) (src : Reg) (off : BitVec 16)
  -- the 64-bit immediate load (R79, R250)
  /-- `lddw`, R250 -/
  | lddw (dst : Gpr) (imm64 : Word)
  -- legacy packet access (R255, R256): the refusal looks at the opcode only, so the other fields are kept as they stand
  /-- `ldabs`, R255 -/
  | ldabs (size : Size) (dst : BitVec 4) (src : BitVec 4) (off : BitVec 16) (imm : BitVec 32)
  /-- `ldind`, R255 -/
  | ldind (size : Size) (dst : BitVec 4) (src : BitVec 4) (off : BitVec 16) (imm : BitVec 32)
  deriving DecidableEq, Repr

end Sys2Proof
end

