-- ==== Sys2Proof/WellFormed.lean ====
section
/-! DEFINITION. Well-formed instructions. Register fields above 10, a write to R10, selectors and unused fields that are not
zero (`30_encoding.md` R72, R83, R85) cannot be built in `Instr`; what is left to check depends on a parameter: the field
usage of BPF_NEG under NEG_READING = negate_dst (R90). -/

namespace Sys2Proof

/-- Whether the parameters give the instruction an encoding (R90, R129, R130): under NEG_READING = negate_dst the register
form of BPF_NEG is illegal and the immediate form's `imm` is unused, so zero. -/
def Instr.wellFormed (p : Params) (i : Instr) : Bool :=
  match i with
  | .neg32K _ imm | .neg64K _ imm => p.negReading == .source || imm == 0#32
  | .neg32X .. | .neg64X .. => p.negReading == .source
  | .add32K .. | .add32X .. | .sub32K .. | .sub32X .. | .mul32K .. | .mul32X .. | .div32K .. | .div32X .. | .or32K ..
  | .or32X .. | .and32K .. | .and32X .. | .lsh32K .. | .lsh32X .. | .rsh32K .. | .rsh32X .. | .mod32K .. | .mod32X ..
  | .xor32K .. | .xor32X .. | .mov32K .. | .mov32X .. | .arsh32K .. | .arsh32X .. | .le16 .. | .le32 .. | .le64 ..
  | .be16 .. | .be32 .. | .be64 .. | .add64K .. | .add64X .. | .sub64K .. | .sub64X .. | .mul64K .. | .mul64X ..
  | .div64K .. | .div64X .. | .or64K .. | .or64X .. | .and64K .. | .and64X .. | .lsh64K .. | .lsh64X .. | .rsh64K ..
  | .rsh64X .. | .mod64K .. | .mod64X .. | .xor64K .. | .xor64X .. | .mov64K .. | .mov64X .. | .arsh64K ..
  | .arsh64X .. | .ja .. | .jeqK .. | .jeqX .. | .jgtK .. | .jgtX .. | .jgeK .. | .jgeX .. | .jsetK .. | .jsetX ..
  | .jneK .. | .jneX .. | .jsgtK .. | .jsgtX .. | .jsgeK .. | .jsgeX .. | .jltK .. | .jltX .. | .jleK .. | .jleX ..
  | .jsltK .. | .jsltX .. | .jsleK .. | .jsleX .. | .call .. | .exit | .jeq32K .. | .jeq32X .. | .jgt32K ..
  | .jgt32X .. | .jge32K .. | .jge32X .. | .jset32K .. | .jset32X .. | .jne32K .. | .jne32X .. | .jsgt32K ..
  | .jsgt32X .. | .jsge32K .. | .jsge32X .. | .jlt32K .. | .jlt32X .. | .jle32K .. | .jle32X .. | .jslt32K ..
  | .jslt32X .. | .jsle32K .. | .jsle32X .. | .ldxw .. | .ldxh .. | .ldxb .. | .ldxdw .. | .stw .. | .sth ..
  | .stb .. | .stdw .. | .stxw .. | .stxh .. | .stxb .. | .stxdw .. | .aadd32 .. | .afadd32 .. | .aor32 ..
  | .afor32 .. | .aand32 .. | .afand32 .. | .axor32 .. | .afxor32 .. | .aadd64 .. | .afadd64 .. | .aor64 ..
  | .afor64 .. | .aand64 .. | .afand64 .. | .axor64 .. | .afxor64 .. | .axchg32 .. | .axchg64 .. | .acmpxchg32 ..
  | .acmpxchg64 .. | .lddw .. | .ldabs .. | .ldind ..
    => true

end Sys2Proof
end

