-- ==== Sys2Proof/Decode.lean ====
section
/-! DEFINITION. Decoding (`30_encoding.md` R71 to R91) and, after it, the encoder. Decoding is total on any slots and refuses
by name; program text is a list of 64-bit numbers (R29), its bytes in a file are R87's. -/

namespace Sys2Proof

/-- The five fields of a slot (R71). -/
structure Fields where
  opcode : BitVec 8
  dst : BitVec 4
  src : BitVec 4
  off : BitVec 16
  imm : BitVec 32
  deriving DecidableEq, Repr

/-- The fields of the slot `w` (R71): `imm` is bits 63 to 32, `off` 31 to 16, `src` 15 to 12, `dst` 11 to 8, `opcode` 7 to
0. -/
def Fields.ofSlot (w : Slot) : Fields where
  opcode := w.extractLsb' 0 8
  dst := w.extractLsb' 8 4
  src := w.extractLsb' 12 4
  off := w.extractLsb' 16 16
  imm := w.extractLsb' 32 32

/-- `W = imm ++ off ++ src ++ dst ++ opcode` (R71). -/
def Fields.toSlot (f : Fields) : Slot :=
  f.imm ++ f.off ++ f.src ++ f.dst ++ f.opcode

/-- Why a slot is not an instruction (R85, R91). Every one of them is the fault IllegalInstruction (R263); the names say
which of R91's checks failed first. -/
inductive DecodeError
  /-- R91 step 4: the opcode byte is reserved or absent from the tables of R84 -/
  | reservedOpcode
  /-- R91 step 5: `imm` selects no operation (R157, R243) -/
  | badSelector
  /-- R91 step 6: a field that the instruction does not use is not zero (R72) -/
  | unusedFieldNotZero
  /-- R91 step 6: a register field above 10 (R23, R83) -/
  | registerAbove10
  /-- R91 step 6: the written register is R10 (R22, R83) -/
  | writesR10
  /-- R91 step 7: a wide instruction without a second slot (R250) -/
  | missingSecondSlot
  /-- R253: under WIDE_IMM_LAYOUT = split32, bits 31 to 0 of the second slot are not zero -/
  | secondSlotNotZero
  deriving DecidableEq, Repr

/-- The register number of R0 to R9 (R20). -/
def Gpr.num : Gpr → BitVec 4
  | .r0 => 0
  | .r1 => 1
  | .r2 => 2
  | .r3 => 3
  | .r4 => 4
  | .r5 => 5
  | .r6 => 6
  | .r7 => 7
  | .r8 => 8
  | .r9 => 9

/-- The register number of R0 to R10 (R20). -/
def Reg.num : Reg → BitVec 4
  | .gpr r => r.num
  | .r10 => 10

/-- A register field that names a register that is read (R83): 0 to 10. -/
def readField (n : BitVec 4) : Except DecodeError Reg :=
  match n.toNat with
  | 0 => .ok (.gpr .r0)
  | 1 => .ok (.gpr .r1)
  | 2 => .ok (.gpr .r2)
  | 3 => .ok (.gpr .r3)
  | 4 => .ok (.gpr .r4)
  | 5 => .ok (.gpr .r5)
  | 6 => .ok (.gpr .r6)
  | 7 => .ok (.gpr .r7)
  | 8 => .ok (.gpr .r8)
  | 9 => .ok (.gpr .r9)
  | 10 => .ok .r10
  | _ => .error .registerAbove10

/-- A register field that names a register that is written (R22, R83): 0 to 9. -/
def writtenField (n : BitVec 4) : Except DecodeError Gpr :=
  match readField n with
  | .ok (.gpr r) => .ok r
  | .ok .r10 => .error .writesR10
  | .error e => .error e

/-- A field the instruction does not use (R72): zero. -/
def unusedField {w : Nat} (v : BitVec w) : Except DecodeError Unit :=
  if v = 0#w then .ok () else .error .unusedFieldNotZero

/-- The size modifier of `opcode` (R42, R78). -/
def sizeField (opcode : BitVec 8) : Size :=
  match (opcode.extractLsb' 3 2).toNat with
  | 0 => .w
  | 1 => .h
  | 2 => .b
  | _ => .dw

/-- The size modifier's two bits (R42, R78). -/
def Size.bits : Size → BitVec 2
  | .w => 0
  | .h => 1
  | .b => 2
  | .dw => 3

/-- The row of a table whose key is `key`: the first such row. -/
def findRow {w : Nat} {α : Type} (key : BitVec w) : List (BitVec w × α) → Option α
  | [] => none
  | (k, a) :: rows => if k = key then some a else findRow key rows

/-- An atomic operation's use of `src` (R90, R222): only read, or read and written. -/
inductive AtomicShape
  | plain (mk : Reg → Reg → BitVec 16 → Instr)
  | fetch (mk : Reg → Gpr → BitVec 16 → Instr)

/-- How an instruction uses the fields of its slot: the rows of the field table R90. -/
inductive Shape
  | aluK (mk : Gpr → BitVec 32 → Instr)
  | aluX (mk : Gpr → Reg → Instr)
  | negK (mk : Gpr → BitVec 32 → Instr)
  | negX (mk : Gpr → Reg → Instr)
  | swap (sel : List (BitVec 32 × (Gpr → Instr)))
  | ja (mk : BitVec 16 → Instr)
  | jmpK (mk : Reg → BitVec 32 → BitVec 16 → Instr)
  | jmpX (mk : Reg → Reg → BitVec 16 → Instr)
  | call (mk : BitVec 32 → Instr)
  | exit (mk : Instr)
  | ldx (mk : Gpr → Reg → BitVec 16 → Instr)
  | st (mk : Reg → BitVec 16 → BitVec 32 → Instr)
  | stx (mk : Reg → Reg → BitVec 16 → Instr)
  | atomic (sel : List (BitVec 32 × AtomicShape))
  | wide (mk : Gpr → Word → Instr)
  | legacy (mk : Size → BitVec 4 → BitVec 4 → BitVec 16 → BitVec 32 → Instr)

/-- Class BPF_ALU (R84). -/
def aluRows : List (BitVec 8 × Shape) :=
  [
    (0x04#8, .aluK .add32K), (0x14#8, .aluK .sub32K), (0x24#8, .aluK .mul32K), (0x34#8, .aluK .div32K),
    (0x44#8, .aluK .or32K), (0x54#8, .aluK .and32K), (0x64#8, .aluK .lsh32K), (0x74#8, .aluK .rsh32K),
    (0x84#8, .negK .neg32K), (0x94#8, .aluK .mod32K), (0xa4#8, .aluK .xor32K), (0xb4#8, .aluK .mov32K),
    (0xc4#8, .aluK .arsh32K), (0x0c#8, .aluX .add32X), (0x1c#8, .aluX .sub32X), (0x2c#8, .aluX .mul32X),
    (0x3c#8, .aluX .div32X), (0x4c#8, .aluX .or32X), (0x5c#8, .aluX .and32X), (0x6c#8, .aluX .lsh32X),
    (0x7c#8, .aluX .rsh32X), (0x8c#8, .negX .neg32X), (0x9c#8, .aluX .mod32X), (0xac#8, .aluX .xor32X),
    (0xbc#8, .aluX .mov32X), (0xcc#8, .aluX .arsh32X)
  ]

/-- Class BPF_ALU64 (R84). -/
def alu64Rows : List (BitVec 8 × Shape) :=
  [
    (0x07#8, .aluK .add64K), (0x17#8, .aluK .sub64K), (0x27#8, .aluK .mul64K), (0x37#8, .aluK .div64K),
    (0x47#8, .aluK .or64K), (0x57#8, .aluK .and64K), (0x67#8, .aluK .lsh64K), (0x77#8, .aluK .rsh64K),
    (0x87#8, .negK .neg64K), (0x97#8, .aluK .mod64K), (0xa7#8, .aluK .xor64K), (0xb7#8, .aluK .mov64K),
    (0xc7#8, .aluK .arsh64K), (0x0f#8, .aluX .add64X), (0x1f#8, .aluX .sub64X), (0x2f#8, .aluX .mul64X),
    (0x3f#8, .aluX .div64X), (0x4f#8, .aluX .or64X), (0x5f#8, .aluX .and64X), (0x6f#8, .aluX .lsh64X),
    (0x7f#8, .aluX .rsh64X), (0x8f#8, .negX .neg64X), (0x9f#8, .aluX .mod64X), (0xaf#8, .aluX .xor64X),
    (0xbf#8, .aluX .mov64X), (0xcf#8, .aluX .arsh64X)
  ]

/-- Byte swaps, selected by `imm` (R84, R150). -/
def swapRows : List (BitVec 8 × Shape) :=
  [
    (0xd4#8, .swap [
      (0x10#32, .le16), (0x20#32, .le32), (0x40#32, .le64)]),
    (0xdc#8, .swap [
      (0x10#32, .be16), (0x20#32, .be32), (0x40#32, .be64)])
  ]

/-- Class BPF_JMP (R84). -/
def jmpRows : List (BitVec 8 × Shape) :=
  [
    (0x05#8, .ja .ja), (0x15#8, .jmpK .jeqK), (0x1d#8, .jmpX .jeqX), (0x25#8, .jmpK .jgtK), (0x2d#8, .jmpX .jgtX),
    (0x35#8, .jmpK .jgeK), (0x3d#8, .jmpX .jgeX), (0x45#8, .jmpK .jsetK), (0x4d#8, .jmpX .jsetX),
    (0x55#8, .jmpK .jneK), (0x5d#8, .jmpX .jneX), (0x65#8, .jmpK .jsgtK), (0x6d#8, .jmpX .jsgtX),
    (0x75#8, .jmpK .jsgeK), (0x7d#8, .jmpX .jsgeX), (0xa5#8, .jmpK .jltK), (0xad#8, .jmpX .jltX),
    (0xb5#8, .jmpK .jleK), (0xbd#8, .jmpX .jleX), (0xc5#8, .jmpK .jsltK), (0xcd#8, .jmpX .jsltX),
    (0xd5#8, .jmpK .jsleK), (0xdd#8, .jmpX .jsleX), (0x85#8, .call .call), (0x95#8, .exit .exit)
  ]

/-- Class BPF_JMP32 (R84). -/
def jmp32Rows : List (BitVec 8 × Shape) :=
  [
    (0x16#8, .jmpK .jeq32K), (0x1e#8, .jmpX .jeq32X), (0x26#8, .jmpK .jgt32K), (0x2e#8, .jmpX .jgt32X),
    (0x36#8, .jmpK .jge32K), (0x3e#8, .jmpX .jge32X), (0x46#8, .jmpK .jset32K), (0x4e#8, .jmpX .jset32X),
    (0x56#8, .jmpK .jne32K), (0x5e#8, .jmpX .jne32X), (0x66#8, .jmpK .jsgt32K), (0x6e#8, .jmpX .jsgt32X),
    (0x76#8, .jmpK .jsge32K), (0x7e#8, .jmpX .jsge32X), (0xa6#8, .jmpK .jlt32K), (0xae#8, .jmpX .jlt32X),
    (0xb6#8, .jmpK .jle32K), (0xbe#8, .jmpX .jle32X), (0xc6#8, .jmpK .jslt32K), (0xce#8, .jmpX .jslt32X),
    (0xd6#8, .jmpK .jsle32K), (0xde#8, .jmpX .jsle32X)
  ]

/-- Regular loads and stores, mode BPF_MEM (R84). -/
def memRows : List (BitVec 8 × Shape) :=
  [
    (0x61#8, .ldx .ldxw), (0x69#8, .ldx .ldxh), (0x71#8, .ldx .ldxb), (0x79#8, .ldx .ldxdw), (0x62#8, .st .stw),
    (0x6a#8, .st .sth), (0x72#8, .st .stb), (0x7a#8, .st .stdw), (0x63#8, .stx .stxw), (0x6b#8, .stx .stxh),
    (0x73#8, .stx .stxb), (0x7b#8, .stx .stxdw)
  ]

/-- Atomic operations, mode BPF_ATOMIC, selected by `imm` (R84, R221). -/
def atomicRows : List (BitVec 8 × Shape) :=
  [
    (0xc3#8, .atomic [
      (0x00#32, .plain .aadd32), (0x01#32, .fetch .afadd32), (0x40#32, .plain .aor32), (0x41#32, .fetch .afor32),
      (0x50#32, .plain .aand32), (0x51#32, .fetch .afand32), (0xa0#32, .plain .axor32), (0xa1#32, .fetch .afxor32),
      (0xe1#32, .fetch .axchg32), (0xf1#32, .plain .acmpxchg32)]),
    (0xdb#8, .atomic [
      (0x00#32, .plain .aadd64), (0x01#32, .fetch .afadd64), (0x40#32, .plain .aor64), (0x41#32, .fetch .afor64),
      (0x50#32, .plain .aand64), (0x51#32, .fetch .afand64), (0xa0#32, .plain .axor64), (0xa1#32, .fetch .afxor64),
      (0xe1#32, .fetch .axchg64), (0xf1#32, .plain .acmpxchg64)])
  ]

/-- Class BPF_LD: the wide load (R79) and the eight legacy bytes (R84, R256). -/
def ldRows : List (BitVec 8 × Shape) :=
  [
    (0x18#8, .wide .lddw),
    (0x20#8, .legacy .ldabs), (0x28#8, .legacy .ldabs), (0x30#8, .legacy .ldabs), (0x38#8, .legacy .ldabs),
    (0x40#8, .legacy .ldind), (0x48#8, .legacy .ldind), (0x50#8, .legacy .ldind), (0x58#8, .legacy .ldind)
  ]

/-- The opcode map (R84): every byte that is not here is reserved (R85). -/
def opcodeMap : List (BitVec 8 × Shape) :=
  ldRows ++ memRows ++ atomicRows ++ aluRows ++ swapRows ++ alu64Rows ++ jmpRows ++ jmp32Rows

/-- The opcode byte of the wide instruction (R80). -/
def wideOpcode : BitVec 8 := 0x18#8

/-- The operands of an instruction of the given shape, with the checks of R91 steps 5 to 7 and R253. `next` is the slot after
the instruction's first one, if there is one. -/
def Shape.operands (p : Params) (f : Fields) (next : Option Slot) : Shape → Except DecodeError Instr
  | .aluK mk => do
    unusedField f.src
    unusedField f.off
    let dst ← writtenField f.dst
    return mk dst f.imm
  | .aluX mk => do
    unusedField f.off
    unusedField f.imm
    let dst ← writtenField f.dst
    let src ← readField f.src
    return mk dst src
  | .negK mk => do
    unusedField f.src
    unusedField f.off
    let dst ← writtenField f.dst
    match p.negReading with
    | .source => return mk dst f.imm
    | .negateDst => do
      unusedField f.imm
      return mk dst f.imm
  | .negX mk =>
    match p.negReading with
    | .source => do
      unusedField f.off
      unusedField f.imm
      let dst ← writtenField f.dst
      let src ← readField f.src
      return mk dst src
    | .negateDst => .error .reservedOpcode
  | .swap sel =>
    match findRow f.imm sel with
    | none => .error .badSelector
    | some mk => do
      unusedField f.src
      unusedField f.off
      let dst ← writtenField f.dst
      return mk dst
  | .ja mk => do
    unusedField f.dst
    unusedField f.src
    unusedField f.imm
    return mk f.off
  | .jmpK mk => do
    unusedField f.src
    let dst ← readField f.dst
    return mk dst f.imm f.off
  | .jmpX mk => do
    unusedField f.imm
    let dst ← readField f.dst
    let src ← readField f.src
    return mk dst src f.off
  | .call mk => do
    unusedField f.dst
    unusedField f.src
    unusedField f.off
    return mk f.imm
  | .exit mk => do
    unusedField f.dst
    unusedField f.src
    unusedField f.off
    unusedField f.imm
    return mk
  | .ldx mk => do
    unusedField f.imm
    let dst ← writtenField f.dst
    let src ← readField f.src
    return mk dst src f.off
  | .st mk => do
    unusedField f.src
    let dst ← readField f.dst
    return mk dst f.off f.imm
  | .stx mk => do
    unusedField f.imm
    let dst ← readField f.dst
    let src ← readField f.src
    return mk dst src f.off
  | .atomic sel =>
    match findRow f.imm sel with
    | none => .error .badSelector
    | some (.plain mk) => do
      let dst ← readField f.dst
      let src ← readField f.src
      return mk dst src f.off
    | some (.fetch mk) => do
      let dst ← readField f.dst
      let src ← writtenField f.src
      return mk dst src f.off
  | .wide mk => do
    unusedField f.src
    unusedField f.off
    let dst ← writtenField f.dst
    match p.wideImm with
    | .source => do
      unusedField f.imm
      match next with
      | none => .error .missingSecondSlot
      | some w1 => return mk dst w1
    | .split32 =>
      match next with
      | none => .error .missingSecondSlot
      | some w1 =>
        if w1.extractLsb' 0 32 = 0#32 then return mk dst (w1.extractLsb' 32 32 ++ f.imm)
        else .error .secondSlotNotZero
  | .legacy mk => .ok (mk (sizeField f.opcode) f.dst f.src f.off f.imm)

/-- The instruction whose first slot is `w0` (R91 steps 2 to 7, R253). `next` is the slot after it, if there is one; only
the wide instruction looks at it. -/
def decode (p : Params) (w0 : Slot) (next : Option Slot) : Except DecodeError Instr :=
  match findRow (Fields.ofSlot w0).opcode opcodeMap with
  | none => .error .reservedOpcode
  | some shape => shape.operands p (Fields.ofSlot w0) next

/-- The instruction read from an instruction whose bits are `w`, bit 0 the least significant bit of the first slot and the
second slot's bits from bit 64 on; bits from `nbits` on are zero. The parameters are the defaults of R2 (log 19). -/
def decodeTableWord (nbits w : Nat) : Option Instr :=
  let bits := w % 2 ^ nbits
  (decode Params.default (BitVec.ofNat 64 bits) (some (BitVec.ofNat 64 (bits / 2 ^ 64)))).toOption

/-- The eight bytes of a slot for HOST_ENDIAN = little (R87): byte 0 is `opcode`. -/
def slotBytes (w : Slot) : List Byte :=
  (List.range 8).map fun i => w.extractLsb' (8 * i) 8

/-- The slot that eight bytes hold for HOST_ENDIAN = little (R87). -/
def slotOfBytes (b0 b1 b2 b3 b4 b5 b6 b7 : Byte) : Slot :=
  b7 ++ b6 ++ b5 ++ b4 ++ b3 ++ b2 ++ b1 ++ b0

/-- Program text from its bytes for HOST_ENDIAN = little (R87): `none` where the bytes are no whole number of slots. -/
def programOfBytes : List Byte → Option (List Slot)
  | [] => some []
  | b0 :: b1 :: b2 :: b3 :: b4 :: b5 :: b6 :: b7 :: rest =>
    (programOfBytes rest).map (slotOfBytes b0 b1 b2 b3 b4 b5 b6 b7 :: ·)
  | _ => none

/-! The encoder, from the same tables (R71, R79, R84, R90). -/

/-- A slot of an instruction with `dst` and `imm` operands. -/
def slotK (opcode : BitVec 8) (dst : BitVec 4) (imm : BitVec 32) : Slot :=
  Fields.toSlot ⟨opcode, dst, 0, 0, imm⟩

/-- A slot of an instruction with `dst` and `src` operands. -/
def slotX (opcode : BitVec 8) (dst src : BitVec 4) : Slot :=
  Fields.toSlot ⟨opcode, dst, src, 0, 0⟩

/-- A slot of an instruction with `dst`, `src` and `off` operands. -/
def slotOff (opcode : BitVec 8) (dst src : BitVec 4) (off : BitVec 16) : Slot :=
  Fields.toSlot ⟨opcode, dst, src, off, 0⟩

/-- A slot of an instruction with `dst`, `off` and `imm` operands. -/
def slotOffK (opcode : BitVec 8) (dst : BitVec 4) (off : BitVec 16) (imm : BitVec 32) : Slot :=
  Fields.toSlot ⟨opcode, dst, 0, off, imm⟩

/-- The slots of the wide instruction (R79, R253). -/
def slotsWide (p : Params) (dst : BitVec 4) (imm64 : Word) : List Slot :=
  match p.wideImm with
  | .source => [slotK wideOpcode dst 0, imm64]
  | .split32 => [slotK wideOpcode dst (imm64.extractLsb' 0 32), slotK 0 0 (imm64.extractLsb' 32 32)]

/-- The opcode byte of a legacy instruction (R256): mode and size, class BPF_LD. -/
def legacyOpcode (mode : BitVec 3) (size : Size) : BitVec 8 :=
  mode ++ size.bits ++ 0#3

/-- The slots of an instruction. Only the wide instruction has two and looks at a parameter. -/
def encode (p : Params) (i : Instr) : List Slot :=
  match i with
  | .add32K dst imm => [slotK 0x04 dst.num imm]
  | .add32X dst src => [slotX 0x0c dst.num src.num]
  | .sub32K dst imm => [slotK 0x14 dst.num imm]
  | .sub32X dst src => [slotX 0x1c dst.num src.num]
  | .mul32K dst imm => [slotK 0x24 dst.num imm]
  | .mul32X dst src => [slotX 0x2c dst.num src.num]
  | .div32K dst imm => [slotK 0x34 dst.num imm]
  | .div32X dst src => [slotX 0x3c dst.num src.num]
  | .or32K dst imm => [slotK 0x44 dst.num imm]
  | .or32X dst src => [slotX 0x4c dst.num src.num]
  | .and32K dst imm => [slotK 0x54 dst.num imm]
  | .and32X dst src => [slotX 0x5c dst.num src.num]
  | .lsh32K dst imm => [slotK 0x64 dst.num imm]
  | .lsh32X dst src => [slotX 0x6c dst.num src.num]
  | .rsh32K dst imm => [slotK 0x74 dst.num imm]
  | .rsh32X dst src => [slotX 0x7c dst.num src.num]
  | .neg32K dst imm => [slotK 0x84 dst.num imm]
  | .neg32X dst src => [slotX 0x8c dst.num src.num]
  | .mod32K dst imm => [slotK 0x94 dst.num imm]
  | .mod32X dst src => [slotX 0x9c dst.num src.num]
  | .xor32K dst imm => [slotK 0xa4 dst.num imm]
  | .xor32X dst src => [slotX 0xac dst.num src.num]
  | .mov32K dst imm => [slotK 0xb4 dst.num imm]
  | .mov32X dst src => [slotX 0xbc dst.num src.num]
  | .arsh32K dst imm => [slotK 0xc4 dst.num imm]
  | .arsh32X dst src => [slotX 0xcc dst.num src.num]
  | .le16 dst => [slotK 0xd4 dst.num 16]
  | .le32 dst => [slotK 0xd4 dst.num 32]
  | .le64 dst => [slotK 0xd4 dst.num 64]
  | .be16 dst => [slotK 0xdc dst.num 16]
  | .be32 dst => [slotK 0xdc dst.num 32]
  | .be64 dst => [slotK 0xdc dst.num 64]
  | .add64K dst imm => [slotK 0x07 dst.num imm]
  | .add64X dst src => [slotX 0x0f dst.num src.num]
  | .sub64K dst imm => [slotK 0x17 dst.num imm]
  | .sub64X dst src => [slotX 0x1f dst.num src.num]
  | .mul64K dst imm => [slotK 0x27 dst.num imm]
  | .mul64X dst src => [slotX 0x2f dst.num src.num]
  | .div64K dst imm => [slotK 0x37 dst.num imm]
  | .div64X dst src => [slotX 0x3f dst.num src.num]
  | .or64K dst imm => [slotK 0x47 dst.num imm]
  | .or64X dst src => [slotX 0x4f dst.num src.num]
  | .and64K dst imm => [slotK 0x57 dst.num imm]
  | .and64X dst src => [slotX 0x5f dst.num src.num]
  | .lsh64K dst imm => [slotK 0x67 dst.num imm]
  | .lsh64X dst src => [slotX 0x6f dst.num src.num]
  | .rsh64K dst imm => [slotK 0x77 dst.num imm]
  | .rsh64X dst src => [slotX 0x7f dst.num src.num]
  | .neg64K dst imm => [slotK 0x87 dst.num imm]
  | .neg64X dst src => [slotX 0x8f dst.num src.num]
  | .mod64K dst imm => [slotK 0x97 dst.num imm]
  | .mod64X dst src => [slotX 0x9f dst.num src.num]
  | .xor64K dst imm => [slotK 0xa7 dst.num imm]
  | .xor64X dst src => [slotX 0xaf dst.num src.num]
  | .mov64K dst imm => [slotK 0xb7 dst.num imm]
  | .mov64X dst src => [slotX 0xbf dst.num src.num]
  | .arsh64K dst imm => [slotK 0xc7 dst.num imm]
  | .arsh64X dst src => [slotX 0xcf dst.num src.num]
  | .ja off => [slotOff 0x05 0 0 off]
  | .jeqK dst imm off => [slotOffK 0x15 dst.num off imm]
  | .jeqX dst src off => [slotOff 0x1d dst.num src.num off]
  | .jgtK dst imm off => [slotOffK 0x25 dst.num off imm]
  | .jgtX dst src off => [slotOff 0x2d dst.num src.num off]
  | .jgeK dst imm off => [slotOffK 0x35 dst.num off imm]
  | .jgeX dst src off => [slotOff 0x3d dst.num src.num off]
  | .jsetK dst imm off => [slotOffK 0x45 dst.num off imm]
  | .jsetX dst src off => [slotOff 0x4d dst.num src.num off]
  | .jneK dst imm off => [slotOffK 0x55 dst.num off imm]
  | .jneX dst src off => [slotOff 0x5d dst.num src.num off]
  | .jsgtK dst imm off => [slotOffK 0x65 dst.num off imm]
  | .jsgtX dst src off => [slotOff 0x6d dst.num src.num off]
  | .jsgeK dst imm off => [slotOffK 0x75 dst.num off imm]
  | .jsgeX dst src off => [slotOff 0x7d dst.num src.num off]
  | .jltK dst imm off => [slotOffK 0xa5 dst.num off imm]
  | .jltX dst src off => [slotOff 0xad dst.num src.num off]
  | .jleK dst imm off => [slotOffK 0xb5 dst.num off imm]
  | .jleX dst src off => [slotOff 0xbd dst.num src.num off]
  | .jsltK dst imm off => [slotOffK 0xc5 dst.num off imm]
  | .jsltX dst src off => [slotOff 0xcd dst.num src.num off]
  | .jsleK dst imm off => [slotOffK 0xd5 dst.num off imm]
  | .jsleX dst src off => [slotOff 0xdd dst.num src.num off]
  | .call imm => [slotK 0x85 0 imm]
  | .exit => [slotK 0x95 0 0]
  | .jeq32K dst imm off => [slotOffK 0x16 dst.num off imm]
  | .jeq32X dst src off => [slotOff 0x1e dst.num src.num off]
  | .jgt32K dst imm off => [slotOffK 0x26 dst.num off imm]
  | .jgt32X dst src off => [slotOff 0x2e dst.num src.num off]
  | .jge32K dst imm off => [slotOffK 0x36 dst.num off imm]
  | .jge32X dst src off => [slotOff 0x3e dst.num src.num off]
  | .jset32K dst imm off => [slotOffK 0x46 dst.num off imm]
  | .jset32X dst src off => [slotOff 0x4e dst.num src.num off]
  | .jne32K dst imm off => [slotOffK 0x56 dst.num off imm]
  | .jne32X dst src off => [slotOff 0x5e dst.num src.num off]
  | .jsgt32K dst imm off => [slotOffK 0x66 dst.num off imm]
  | .jsgt32X dst src off => [slotOff 0x6e dst.num src.num off]
  | .jsge32K dst imm off => [slotOffK 0x76 dst.num off imm]
  | .jsge32X dst src off => [slotOff 0x7e dst.num src.num off]
  | .jlt32K dst imm off => [slotOffK 0xa6 dst.num off imm]
  | .jlt32X dst src off => [slotOff 0xae dst.num src.num off]
  | .jle32K dst imm off => [slotOffK 0xb6 dst.num off imm]
  | .jle32X dst src off => [slotOff 0xbe dst.num src.num off]
  | .jslt32K dst imm off => [slotOffK 0xc6 dst.num off imm]
  | .jslt32X dst src off => [slotOff 0xce dst.num src.num off]
  | .jsle32K dst imm off => [slotOffK 0xd6 dst.num off imm]
  | .jsle32X dst src off => [slotOff 0xde dst.num src.num off]
  | .ldxw dst src off => [slotOff 0x61 dst.num src.num off]
  | .ldxh dst src off => [slotOff 0x69 dst.num src.num off]
  | .ldxb dst src off => [slotOff 0x71 dst.num src.num off]
  | .ldxdw dst src off => [slotOff 0x79 dst.num src.num off]
  | .stw dst off imm => [slotOffK 0x62 dst.num off imm]
  | .sth dst off imm => [slotOffK 0x6a dst.num off imm]
  | .stb dst off imm => [slotOffK 0x72 dst.num off imm]
  | .stdw dst off imm => [slotOffK 0x7a dst.num off imm]
  | .stxw dst src off => [slotOff 0x63 dst.num src.num off]
  | .stxh dst src off => [slotOff 0x6b dst.num src.num off]
  | .stxb dst src off => [slotOff 0x73 dst.num src.num off]
  | .stxdw dst src off => [slotOff 0x7b dst.num src.num off]
  | .aadd32 dst src off => [Fields.toSlot ⟨0xc3, dst.num, src.num, off, 0x00⟩]
  | .afadd32 dst src off => [Fields.toSlot ⟨0xc3, dst.num, src.num, off, 0x01⟩]
  | .aor32 dst src off => [Fields.toSlot ⟨0xc3, dst.num, src.num, off, 0x40⟩]
  | .afor32 dst src off => [Fields.toSlot ⟨0xc3, dst.num, src.num, off, 0x41⟩]
  | .aand32 dst src off => [Fields.toSlot ⟨0xc3, dst.num, src.num, off, 0x50⟩]
  | .afand32 dst src off => [Fields.toSlot ⟨0xc3, dst.num, src.num, off, 0x51⟩]
  | .axor32 dst src off => [Fields.toSlot ⟨0xc3, dst.num, src.num, off, 0xa0⟩]
  | .afxor32 dst src off => [Fields.toSlot ⟨0xc3, dst.num, src.num, off, 0xa1⟩]
  | .aadd64 dst src off => [Fields.toSlot ⟨0xdb, dst.num, src.num, off, 0x00⟩]
  | .afadd64 dst src off => [Fields.toSlot ⟨0xdb, dst.num, src.num, off, 0x01⟩]
  | .aor64 dst src off => [Fields.toSlot ⟨0xdb, dst.num, src.num, off, 0x40⟩]
  | .afor64 dst src off => [Fields.toSlot ⟨0xdb, dst.num, src.num, off, 0x41⟩]
  | .aand64 dst src off => [Fields.toSlot ⟨0xdb, dst.num, src.num, off, 0x50⟩]
  | .afand64 dst src off => [Fields.toSlot ⟨0xdb, dst.num, src.num, off, 0x51⟩]
  | .axor64 dst src off => [Fields.toSlot ⟨0xdb, dst.num, src.num, off, 0xa0⟩]
  | .afxor64 dst src off => [Fields.toSlot ⟨0xdb, dst.num, src.num, off, 0xa1⟩]
  | .axchg32 dst src off => [Fields.toSlot ⟨0xc3, dst.num, src.num, off, 0xe1⟩]
  | .axchg64 dst src off => [Fields.toSlot ⟨0xdb, dst.num, src.num, off, 0xe1⟩]
  | .acmpxchg32 dst src off => [Fields.toSlot ⟨0xc3, dst.num, src.num, off, 0xf1⟩]
  | .acmpxchg64 dst src off => [Fields.toSlot ⟨0xdb, dst.num, src.num, off, 0xf1⟩]
  | .lddw dst imm64 => slotsWide p dst.num imm64
  | .ldabs size dst src off imm => [Fields.toSlot ⟨legacyOpcode 1 size, dst, src, off, imm⟩]
  | .ldind size dst src off imm => [Fields.toSlot ⟨legacyOpcode 2 size, dst, src, off, imm⟩]

/-- The first slot of an instruction: the slot that an IllegalInstruction fault records (R263). -/
def firstSlot (p : Params) (i : Instr) : Slot :=
  (encode p i).headD 0

end Sys2Proof
end

