-- ==== Sys2Proof/Machine/Bytes.lean ====
section
/-! DEFINITION. Byte order (`20_memory.md` R44 to R46, `41_byteswap.md` R158): a value and its bytes. -/

namespace Sys2Proof.Machine

/-- The low `n` bytes of a number, the least significant first. -/
def bytesLE : Nat → Nat → List Byte
  | 0, _ => []
  | n + 1, v => BitVec.ofNat 8 v :: bytesLE n (v / 256)

/-- The number whose bytes are listed, the least significant first. -/
def valueLE : List Byte → Nat
  | [] => 0
  | b :: bs => b.toNat + 256 * valueLE bs

/-- Bytes given least significant first, in address order for the host's byte order, or back (R45, R46). -/
def hostOrder (e : Endian) (bs : List Byte) : List Byte :=
  match e with
  | .little => bs
  | .big => bs.reverse

/-- The value of the bytes at rising addresses (R45), zero-extended to 64 bits. -/
def valueOfBytes (e : Endian) (bs : List Byte) : Word :=
  BitVec.ofNat 64 (valueLE (hostOrder e bs))

/-- The low `n` bytes of a value at rising addresses (R46). -/
def bytesOfValue (e : Endian) (n : Nat) (v : Word) : List Byte :=
  hostOrder e (bytesLE n v.toNat)

/-- `bswap` of the low `n` bytes of a value (R158): the order of the bytes reversed, the bits above zero. -/
def swapBytes (n : Nat) (v : Word) : Word :=
  BitVec.ofNat 64 (valueLE (bytesLE n v.toNat).reverse)

/-- The low `n` bytes of a value, zero-extended (R158, R213). -/
def lowBytes (n : Nat) (v : Word) : Word :=
  BitVec.ofNat 64 (v.toNat % 256 ^ n)

end Sys2Proof.Machine
end

