-- ==== Sys2Proof/Machine/State.lean ====
section
/-! DEFINITION. The state of the machine as plain data (`10_state.md`, R20 to R32), its run status and faults
(`60_exceptions.md` R262), and the state at program entry (R31, R290). -/

namespace Sys2Proof.Machine

/-- R0 to R9 (R20). A register holds a value or, a state the spec itself names (R30), no value (log 4). -/
structure Regs where
  r0 : Option Word
  r1 : Option Word
  r2 : Option Word
  r3 : Option Word
  r4 : Option Word
  r5 : Option Word
  r6 : Option Word
  r7 : Option Word
  r8 : Option Word
  r9 : Option Word
  deriving DecidableEq, Repr

/-- Data memory (R29, R40): the bytes that hold a value, as (address, byte) pairs. An address that is not listed holds no
value (R30, R48; log 15). Kept in the one form that `Memory.wf` states. -/
abbrev Memory := List Host.Cell

/-- The canonical form from the address `lo` on: addresses strictly rising, all below 2^64 (R40). -/
def Memory.wfFrom (lo : Nat) : Memory → Bool
  | [] => true
  | (a, _) :: m => decide (lo ≤ a) && decide (a < 2 ^ 64) && Memory.wfFrom (a + 1) m

/-- The canonical form: addresses strictly rising, all of the address space, each with a value (what an unlisted address
reads as is no value, so no entry equals it). -/
def Memory.wf (m : Memory) : Bool :=
  Memory.wfFrom 0 m

/-- The kind that a MemFault records (R262, R267). -/
inductive MemFaultKind
  | read
  | write
  | atomic
  | misaligned
  deriving DecidableEq, Repr

/-- The five faults of R262 with the information each records. `raise` (R272) puts them into the run status; they are no
outcome of a step of their own (log 5). -/
inductive RaisedFault
  /-- code 1, R263: the slot at `pc` is not an instruction; records the slot -/
  | illegalInstruction (slot : Slot)
  /-- code 2, R266: `pc` is not the index of the first slot of an instruction -/
  | pcFault
  /-- code 3, R265: a register that holds no value is read; records its number -/
  | uninitRegister (r : Gpr)
  /-- code 3, R265: a memory byte that holds no value is read; records the address of the lowest one -/
  | uninitByte (address : Nat)
  /-- code 4, R267: a data access outside every region, without the permission, or misaligned -/
  | memFault (ea : Word) (n : Nat) (kind : MemFaultKind)
  /-- code 5, R268: `call` names no function, or the function fails; records the function number -/
  | callFault (number : Nat)
  deriving DecidableEq, Repr

/-- The fault codes of R262. -/
def RaisedFault.code : RaisedFault → Nat
  | .illegalInstruction _ => 1
  | .pcFault => 2
  | .uninitRegister _ => 3
  | .uninitByte _ => 3
  | .memFault _ _ _ => 4
  | .callFault _ => 5

/-- The reason of a refusal (R264): the only one of the spec. -/
inductive RefuseReason
  | legacyPacketAccess
  deriving DecidableEq, Repr

/-- The run status (R262). -/
inductive RunStatus
  /-- the next step may be taken -/
  | running
  /-- `exit` ended the program with the result `v` (R280) -/
  | exited (v : Word)
  /-- a fault raised at `pc = p` ended the run (R272) -/
  | faulted (fault : RaisedFault) (p : Int)
  /-- a legacy instruction at `pc = p` ended the run (R264). A step answers this as Host's refused outcome; the status stands
  here as one of the four of R262, and `runStatusAfter` gives it (log 6). -/
  | refused (reason : RefuseReason) (p : Int)
  deriving DecidableEq, Repr

/-- A source of choices that the rules leave open: those that are given, oldest first, and how many were drawn since they ran
out, each of these a free value. -/
structure Choices (α : Type) where
  given : List α
  drawn : Nat
  deriving DecidableEq, Repr

/-- The state of the machine. -/
structure State where
  /-- R0 to R9 (R20) -/
  regs : Regs
  /-- R10, the read-only frame pointer (R22); it always holds a value (R265) -/
  fp : Word
  /-- the program counter: a slot index, an integer without a fixed width (R25) -/
  pc : Int
  /-- data memory (R29) -/
  mem : Memory
  /-- PROGRAM, the program text (R29) -/
  program : List Slot
  /-- the run status (R262) -/
  status : RunStatus
  /-- the other parameters of R2, fixed for the whole of a run -/
  params : Params
  /-- the MODEL's own: which of the answers that their functions allow the coming calls get (R185, `choose`; log 8) -/
  callChoices : Choices Nat
  /-- the MODEL's own: the coming moves of other agents, each the choices of its steps of ENV_STEP (R55, R57, R293; log 10) -/
  envMoves : Choices (List Nat)
  /-- the MODEL's own: how many results of shifts were drawn so far (R139; log 12) -/
  draws : Nat
  deriving DecidableEq, Repr

/-- Why a step stops without a next state. -/
inductive Fault
  /-- Raised by `step` alone, in a state whose run status is not Running: the run has ended and "no further step is taken"
  (R272, R280). Safe: nothing is claimed of a step that the spec does not take. -/
  | runEnded
  deriving DecidableEq, Repr

/-- Why the model gives an instruction no meaning. -/
inductive Refusal
  /-- An instruction without a meaning yet; answered by `exec` only, by no arm of this model. Safe. -/
  | notModelled (mnemonic : String)
  /-- `refuse(legacy packet access)` at `pc = p` (R255, R264): answered by the meanings of `ldabs` and `ldind`, which the
  source names and does not define. Safe: nothing can be proved of what follows. -/
  | legacyPacketAccess (p : Int)
  deriving DecidableEq, Repr

/-- What executing an instruction answers. -/
abbrev Result := Host.Outcome State Fault Refusal

/-- Whether the byte address `a` lies in the region (R47). -/
def regionHolds (r : Region) (a : Nat) : Bool :=
  decide (r.base.toNat ≤ a) && decide (a < r.base.toNat + r.length)

/-- The state at program entry (R31, R290): `p` are the parameters, `program` PROGRAM, `mem` the bytes the environment put
into the regions (a stack byte holds no value), and the rest the environment's coming choices as far as they are given. -/
def State.entry (p : Params) (program : List Slot) (mem : Memory) (calls : List Nat) (moves : List (List Nat)) :
    State where
  regs :=
    { r0 := none
      r1 := p.entryArgs[0]?
      r2 := p.entryArgs[1]?
      r3 := p.entryArgs[2]?
      r4 := p.entryArgs[3]?
      r5 := p.entryArgs[4]?
      r6 := none
      r7 := none
      r8 := none
      r9 := none }
  fp := p.stackBase + BitVec.ofNat 64 p.stackSize
  pc := 0
  mem := mem.filter fun c => !regionHolds p.stackRegion c.1
  program := program
  status := .running
  params := p
  callChoices := { given := calls, drawn := 0 }
  envMoves := { given := moves, drawn := 0 }
  draws := 0

/-- The machine right after reset: program entry (R290) with the default parameters of R2, an empty PROGRAM (log 7) and no
byte that holds a value. -/
def State.reset : State :=
  State.entry Params.default [] [] [] []

end Sys2Proof.Machine
end

