-- ==== Sys2Proof/Machine/Ops.lean ====
section
/-! DEFINITION. The named operations over registers, memory and the run status: reads and writes of registers
(`10_state.md` R20 to R30), bytes and accesses of memory (`20_memory.md` R45 to R55), raising a fault (`60_exceptions.md`
R272), ending the run (R280), choosing what the rules leave open (R2, R185), the environment's moves (R55, R57). -/

namespace Sys2Proof.Machine

/-! Memory, byte by byte. -/

/-- The byte at address `a`; `none` where it holds no value (R30, R48). -/
def Memory.read (m : Memory) (a : Nat) : Option Byte :=
  match m with
  | [] => none
  | (x, b) :: rest => if x = a then some b else Memory.read rest a

/-- Sets the byte at address `a`. -/
def Memory.write (m : Memory) (a : Nat) (v : Byte) : Memory :=
  match m with
  | [] => [(a, v)]
  | (x, b) :: rest =>
    if a < x then (a, v) :: (x, b) :: rest
    else if a = x then (a, v) :: rest
    else (x, b) :: Memory.write rest a v

/-- Sets the bytes from address `a` on. -/
def Memory.writeBytes (m : Memory) (a : Nat) : List Byte → Memory
  | [] => m
  | b :: bs => Memory.writeBytes (m.write a b) (a + 1) bs

/-- The `n` bytes from address `a` on, or the address of the lowest of them that holds no value (R45, R265). -/
def Memory.readBytes (m : Memory) (a : Nat) : Nat → Except Nat (List Byte)
  | 0 => .ok []
  | n + 1 =>
    match m.read a with
    | none => .error a
    | some b =>
      match Memory.readBytes m (a + 1) n with
      | .error x => .error x
      | .ok bs => .ok (b :: bs)

/-- Sets the listed bytes in order; an address outside the 64-bit address space names no byte (R40). -/
def Memory.writeCells (m : Memory) : List Host.Cell → Memory
  | [] => m
  | (a, b) :: cs => Memory.writeCells (if a < 2 ^ 64 then m.write a b else m) cs

/-- Data memory of which other agents or a called function set the bytes where `here` holds: those are as `after` gives them
(the last value listed for an address; no value where none is), the others as before. -/
def Memory.replace (m : Memory) (here : Nat → Bool) (after : List Host.Cell) : Memory :=
  Memory.writeCells (m.filter fun c => !here c.1) (after.filter fun c => here c.1)

/-! Choices and relations (R2). -/

/-- The next choice, the oldest that is given or else a free one, and the source after it. -/
def Choices.next {α : Type} (c : Choices α) (free : Nat → α) : α × Choices α :=
  match c.given with
  | a :: rest => (a, { c with given := rest })
  | [] => (free c.drawn, { c with drawn := c.drawn + 1 })

/-- The elements of a list by number, counted round; none of the empty list. -/
def numbered {β : Type} : List β → Option (Nat → β)
  | [] => none
  | [b] => some fun _ => b
  | b :: c :: bs => some fun n => (b :: c :: bs).getD (n % (bs.length + 2)) b

/-- What a relation allows after `a`: none where it allows nothing, else a numbering of all it allows. `free` says it of the
relations that are given by name alone. -/
def Relation.allowed {α β : Type} [DecidableEq α] (r : Relation α β) (free : Nat → α → Option (Nat → β)) (a : α) :
    Option (Nat → β) :=
  match r with
  | .listed pairs => numbered (pairs.filterMap fun c => if c.1 = a then some c.2 else none)
  | .unknown name => free name a

/-- What a function of HELPERS allows for argument values and data memory before (R185): its results and memories after. -/
def HelperFunction.answers (f : HelperFunction) (args : List Word) (mem : Memory) : Option (Nat → Word × List Host.Cell) :=
  Relation.allowed f (fun name a => Config.helperAnswers name a.1 a.2) (args, mem)

/-- What ENV_STEP allows for the shared bytes before (R57): the shared bytes after. -/
def EnvStep.outcomes (e : EnvStep) (shared : List Host.Cell) : Option (Nat → List Host.Cell) :=
  Relation.allowed e Config.envOutcomes shared

/-! Registers. -/

/-- What R0 to R9 holds. -/
def Regs.get (g : Regs) : Gpr → Option Word
  | .r0 => g.r0
  | .r1 => g.r1
  | .r2 => g.r2
  | .r3 => g.r3
  | .r4 => g.r4
  | .r5 => g.r5
  | .r6 => g.r6
  | .r7 => g.r7
  | .r8 => g.r8
  | .r9 => g.r9

/-- `x[i] <- v` for R0 to R9. -/
def Regs.set (g : Regs) (r : Gpr) (v : Word) : Regs :=
  match r with
  | .r0 => { g with r0 := some v }
  | .r1 => { g with r1 := some v }
  | .r2 => { g with r2 := some v }
  | .r3 => { g with r3 := some v }
  | .r4 => { g with r4 := some v }
  | .r5 => { g with r5 := some v }
  | .r6 => { g with r6 := some v }
  | .r7 => { g with r7 := some v }
  | .r8 => { g with r8 := some v }
  | .r9 => { g with r9 := some v }

/-- What R0 to R10 holds; R10 always holds a value (R265). -/
def State.reg (s : State) : Reg → Option Word
  | .gpr r => s.regs.get r
  | .r10 => some s.fp

/-- `x[i]`: the value of a register, or UninitRead (R30). -/
def State.readReg (s : State) : Reg → Except RaisedFault Word
  | .gpr r =>
    match s.regs.get r with
    | some v => .ok v
    | none => .error (.uninitRegister r)
  | .r10 => .ok s.fp

/-- `x[i] <- v` (R20). R10 cannot be named: no instruction writes it (R22). -/
def State.setReg (s : State) (r : Gpr) (v : Word) : State :=
  { s with regs := s.regs.set r v }

/-- R0 takes the result of a called function and R1 to R5 lose their values (R185, R187). -/
def Regs.afterCall (g : Regs) (ret : Word) : Regs :=
  { g with r0 := some ret, r1 := none, r2 := none, r3 := none, r4 := none, r5 := none }

/-! The program counter and the run status. -/

/-- `pc <- pc + n` (R25). -/
def State.advance (s : State) (n : Int) : State :=
  { s with pc := s.pc + n }

/-- The next slot: what an instruction of one slot that does not jump ends with (R25). -/
def State.nextSlot (s : State) : State :=
  s.advance 1

/-- `raise F(info)` (R272): the run status becomes `Faulted(code of F, p, info)` and nothing else changes. There is no
register that saves anything, no handler, no mode (R260, R273), so there is no return from it either. -/
def State.raise (s : State) (f : RaisedFault) : State :=
  { s with status := .faulted f s.pc }

/-- `Exit(v)` (R280): the run status becomes `Exited(v)`; registers, memory and `pc` are left as they are. -/
def State.exit (s : State) (v : Word) : State :=
  { s with status := .exited v }

/-- `refuse(legacy packet access)` (R255, R264). -/
def State.refuse (s : State) : Result :=
  .refused (.legacyPacketAccess s.pc)

/-- The outcome of an instruction in the state `s`: the state it computes, or, where a fault was raised on the way, the state
before the instruction with that fault taken (R272: an instruction that faults has no partial effect). -/
def State.finish (s : State) (m : Except RaisedFault State) : Result :=
  match m with
  | .ok t => .next t
  | .error f => .next (s.raise f)

/-! Other agents. -/

/-- Whether other agents may change the byte (R55): it lies in a shared region and in no region that is not shared
(log 13). -/
def sharedByte (p : Params) (a : Nat) : Bool :=
  (p.allRegions.any fun r => r.shared && regionHolds r a) &&
    !(p.allRegions.any fun r => !r.shared && regionHolds r a)

/-- The shared bytes of data memory. -/
def Memory.sharedPart (m : Memory) (p : Params) : List Host.Cell :=
  m.filter fun c => sharedByte p c.1

/-- Data memory after one step of ENV_STEP (R57), the one with the number `n` of those it allows: the shared bytes are as it
gives them, whether or not that leaves each with a value, the others as before. Where it allows none there is no step
(log 10). -/
def Memory.envStep (m : Memory) (p : Params) (e : EnvStep) (n : Nat) : Memory :=
  match EnvStep.outcomes e (m.sharedPart p) with
  | none => m
  | some after => m.replace (sharedByte p) (after n)

/-- Data memory after steps of ENV_STEP, one for each choice. -/
def Memory.envSteps (m : Memory) (p : Params) (e : EnvStep) : List Nat → Memory
  | [] => m
  | n :: ns => Memory.envSteps (m.envStep p e n) p e ns

/-- A move of other agents (R55, R57, R293): any number of steps of ENV_STEP, as the next choice says; where ENV_STEP is the
identity nothing changes. DESIGN CHOICE (log 10): the source of choices. -/
def State.envMove (s : State) : State :=
  match s.params.envStep with
  | none => s
  | some e =>
    let move := s.envMoves.next Config.envChoice
    { s with mem := s.mem.envSteps s.params e move.1, envMoves := move.2 }

/-! Accesses of `n` bytes. -/

/-- The kind of an access (R47). -/
inductive AccessKind
  | read
  | write
  | atomic
  deriving DecidableEq, Repr

/-- The kind that a MemFault of the region check records (R267). -/
def AccessKind.fault : AccessKind → MemFaultKind
  | .read => .read
  | .write => .write
  | .atomic => .atomic

/-- Whether the region allows the `n` bytes at `a` (R47). -/
def regionPermits (r : Region) (a n : Nat) (k : AccessKind) : Bool :=
  decide (r.base.toNat ≤ a) && decide (a + n ≤ r.base.toNat + r.length) &&
    match k with
    | .read => r.readable
    | .write => r.writable
    | .atomic => r.readable && r.writable

/-- CheckAccess (R47): one region holds all `n` bytes with the permission, and they do not run past address 2^64 - 1. -/
def Params.permits (p : Params) (a n : Nat) (k : AccessKind) : Bool :=
  decide (a + n ≤ 2 ^ 64) && p.allRegions.any fun r => regionPermits r a n k

/-- Whether the address is a multiple of the size (R49). -/
def aligned (ea : Word) (n : Nat) : Bool :=
  ea.toNat % n == 0

/-- The checks before an access (R47, R49, R244): the region, then the alignment where it is required. -/
def State.checkAccess (s : State) (ea : Word) (n : Nat) (k : AccessKind) (strict : Bool) : Except RaisedFault Unit :=
  if !Params.permits s.params ea.toNat n k then .error (.memFault ea n k.fault)
  else if strict && !aligned ea n then .error (.memFault ea n .misaligned)
  else .ok ()

/-- The bytes of an aligned access, read in one step (R45, R51, R55.3). -/
def State.readBytes (s : State) (a n : Nat) : Except RaisedFault (List Byte) :=
  match s.mem.readBytes a n with
  | .ok bs => .ok bs
  | .error x => .error (.uninitByte x)

/-- The bytes of a misaligned access, read one by one in rising address order; other agents may move between two of them
(R51; log 11). -/
def State.readTorn (s : State) (a : Nat) : Nat → Except RaisedFault (List Byte × State)
  | 0 => .ok ([], s)
  | 1 =>
    match s.mem.read a with
    | none => .error (.uninitByte a)
    | some b => .ok ([b], s)
  | n + 2 =>
    match s.mem.read a with
    | none => .error (.uninitByte a)
    | some b =>
      match State.readTorn s.envMove (a + 1) (n + 1) with
      | .error f => .error f
      | .ok (bs, t) => .ok (b :: bs, t)

/-- Sets one byte of memory. -/
def State.setByte (s : State) (a : Nat) (b : Byte) : State :=
  { s with mem := s.mem.write a b }

/-- The bytes of a misaligned access, written one by one in rising address order; other agents may move between two of
them (R51; log 11). -/
def State.writeTorn (s : State) (a : Nat) : List Byte → State
  | [] => s
  | [b] => s.setByte a b
  | b :: c :: bs => State.writeTorn (s.setByte a b).envMove (a + 1) (c :: bs)

/-- Sets the bytes of an aligned access in one step (R46, R51). -/
def State.writeBytes (s : State) (a : Nat) (bs : List Byte) : State :=
  { s with mem := s.mem.writeBytes a bs }

/-- `MemRead(ea, n)` of a regular load (R45, R47, R49): the value, zero-extended to 64 bits, and the state after it, which
differs only where other agents moved between the bytes of a misaligned access. -/
def State.memRead (s : State) (ea : Word) (n : Nat) : Except RaisedFault (Word × State) := do
  s.checkAccess ea n .read s.params.alignStrict
  if aligned ea n then
    let bs ← s.readBytes ea.toNat n
    return (valueOfBytes s.params.hostEndian bs, s)
  else
    let (bs, t) ← s.readTorn ea.toNat n
    return (valueOfBytes s.params.hostEndian bs, t)

/-- `MemWrite(ea, n, v)` of a regular store (R46, R47, R49): the low `n` bytes of `v`. -/
def State.memWrite (s : State) (ea : Word) (n : Nat) (v : Word) : Except RaisedFault State := do
  s.checkAccess ea n .write s.params.alignStrict
  if aligned ea n then return s.writeBytes ea.toNat (bytesOfValue s.params.hostEndian n v)
  else return s.writeTorn ea.toNat (bytesOfValue s.params.hostEndian n v)

/-- `MemRead(ea, n)` of an atomic operation (R244): always aligned, readable and writable. -/
def State.atomicRead (s : State) (ea : Word) (n : Nat) : Except RaisedFault Word := do
  s.checkAccess ea n .atomic true
  let bs ← s.readBytes ea.toNat n
  return valueOfBytes s.params.hostEndian bs

/-- `MemWrite(ea, n, v)` of an atomic operation, after its checked read (R220, R244). -/
def State.atomicWrite (s : State) (ea : Word) (n : Nat) (v : Word) : State :=
  s.writeBytes ea.toNat (bytesOfValue s.params.hostEndian n v)

end Sys2Proof.Machine
end

