-- ==== Sys2Proof/Machine/Operands.lean ====
section
/-! DEFINITION. Operands: the source operand of arithmetic and jumps (`30_encoding.md` R75, R82; `40_alu.md` R110;
`42_jump.md` R161), the effective address (`20_memory.md` R41), the access sizes (R42). -/

namespace Sys2Proof.Machine

/-- The second operand of an arithmetic or conditional jump instruction (R75): BPF_K or BPF_X. -/
inductive Source
  | imm (i : BitVec 32)
  | reg (r : Reg)
  deriving DecidableEq, Repr

/-- `sext_64(imm)` (R82). -/
def sext64 (imm : BitVec 32) : Word :=
  imm.signExtend 64

/-- `trunc_32(v)`: the low half of a register, `w[i]` (R24). -/
def low32 (v : Word) : BitVec 32 :=
  v.extractLsb' 0 32

/-- `zext_64(v)` (R24, R111). -/
def zext64 (v : BitVec 32) : Word :=
  v.setWidth 64

/-- `b` of R110 and R161 for 64-bit operations. -/
def State.source64 (s : State) : Source → Except RaisedFault Word
  | .imm i => .ok (sext64 i)
  | .reg r => s.readReg r

/-- `b` of R110 and R161 for 32-bit operations. -/
def State.source32 (s : State) : Source → Except RaisedFault (BitVec 32)
  | .imm i => .ok i
  | .reg r => do
    let v ← s.readReg r
    return low32 v

/-- `a` of R110 and R161 for 32-bit operations: the low half of a register. A register that holds no value faults all the
same (R265). -/
def State.readLow32 (s : State) (r : Reg) : Except RaisedFault (BitVec 32) := do
  let v ← s.readReg r
  return low32 v

/-- `s(off)` (R81). -/
def signedOffset (off : BitVec 16) : Int :=
  off.toInt

/-- `ea = (x[base] + sext_64(off)) mod 2^64` (R41). -/
def effectiveAddress (base : Word) (off : BitVec 16) : Word :=
  base + off.signExtend 64

/-- The number of bytes of a size (R42). -/
def sizeBytes : Size → Nat
  | .b => 1
  | .h => 2
  | .w => 4
  | .dw => 8

end Sys2Proof.Machine
end

