-- ==== Sys2Proof/Machine/Arith.lean ====
section
/-! DEFINITION. Arithmetic at either width (`40_alu.md` R110 to R139) and the shared operations of the arithmetic, byte swap
and neg instructions. A result is taken modulo 2^W (R112); no operation faults on the values of its operands (R261). -/

namespace Sys2Proof.Machine

/-- `BPF_DIV` (R119, R120): unsigned, and 0 where the divisor is 0. -/
def aluDiv {w : Nat} (a b : BitVec w) : BitVec w :=
  if b = 0#w then 0#w else BitVec.udiv a b

/-- `BPF_MOD` (R131, R132): unsigned, and the dividend where the divisor is 0. -/
def aluMod {w : Nat} (a b : BitVec w) : BitVec w :=
  if b = 0#w then a else BitVec.umod a b

/-- `BPF_LSH` by `n` places (R125, R126). -/
def aluLsh {w : Nat} (a : BitVec w) (n : Nat) : BitVec w := a <<< n

/-- `BPF_RSH` by `n` places (R127, R128): zeros enter at the top. -/
def aluRsh {w : Nat} (a : BitVec w) (n : Nat) : BitVec w := a >>> n

/-- `BPF_ARSH` by `n` places (R137, R138): copies of the sign bit enter at the top. -/
def aluArsh {w : Nat} (a : BitVec w) (n : Nat) : BitVec w := a.sshiftRight n

/-- A 64-bit operation that reads both operands (R110, R111), in the order `dst`, then `src` (R271). -/
def State.alu64 (s : State) (f : Word → Word → Word) (dst : Gpr) (b : Source) : Result :=
  s.finish do
    let x ← s.readReg (.gpr dst)
    let y ← s.source64 b
    return (s.setReg dst (f x y)).nextSlot

/-- A 32-bit operation that reads both operands (R110, R111): the result is zero-extended. -/
def State.alu32 (s : State) (f : BitVec 32 → BitVec 32 → BitVec 32) (dst : Gpr) (b : Source) : Result :=
  s.finish do
    let x ← s.readLow32 (.gpr dst)
    let y ← s.source32 b
    return (s.setReg dst (zext64 (f x y))).nextSlot

/-- A 64-bit operation that reads the source operand only (R110): `mov`, and `neg` under NEG_READING = source. -/
def State.unary64 (s : State) (f : Word → Word) (dst : Gpr) (b : Source) : Result :=
  s.finish do
    let y ← s.source64 b
    return (s.setReg dst (f y)).nextSlot

/-- A 32-bit operation that reads the source operand only (R110). -/
def State.unary32 (s : State) (f : BitVec 32 → BitVec 32) (dst : Gpr) (b : Source) : Result :=
  s.finish do
    let y ← s.source32 b
    return (s.setReg dst (zext64 (f y))).nextSlot

/-- The result of a 64-bit shift and the state after it (R139): the count modulo 64 under SHIFT_MODE = mask; under draw, a
count of 64 or more makes the result a free value, the next draw. -/
def State.shifted64 (s : State) (f : Word → Nat → Word) (x y : Word) : Word × State :=
  match s.params.shiftMode with
  | .mask => (f x (y.toNat % 64), s)
  | .draw =>
    if y.toNat < 64 then (f x y.toNat, s)
    else (Config.draw64 s.draws, { s with draws := s.draws + 1 })

/-- The result of a 32-bit shift and the state after it (R139). -/
def State.shifted32 (s : State) (f : BitVec 32 → Nat → BitVec 32) (x y : BitVec 32) : BitVec 32 × State :=
  match s.params.shiftMode with
  | .mask => (f x (y.toNat % 32), s)
  | .draw =>
    if y.toNat < 32 then (f x y.toNat, s)
    else (Config.draw32 s.draws, { s with draws := s.draws + 1 })

/-- A 64-bit shift (R125, R127, R137, R139). -/
def State.shift64 (s : State) (f : Word → Nat → Word) (dst : Gpr) (b : Source) : Result :=
  s.finish do
    let x ← s.readReg (.gpr dst)
    let y ← s.source64 b
    let (r, t) := s.shifted64 f x y
    return (t.setReg dst r).nextSlot

/-- A 32-bit shift (R126, R128, R138, R139). -/
def State.shift32 (s : State) (f : BitVec 32 → Nat → BitVec 32) (dst : Gpr) (b : Source) : Result :=
  s.finish do
    let x ← s.readLow32 (.gpr dst)
    let y ← s.source32 b
    let (r, t) := s.shifted32 f x y
    return (t.setReg dst (zext64 r)).nextSlot

/-- An instruction that the parameters give no encoding: IllegalInstruction with its first slot (R90, R263; log 16). A step
refuses such a slot when it decodes it. -/
def State.illegal (s : State) (i : Instr) : Result :=
  .next (s.raise (.illegalInstruction (firstSlot s.params i)))

/-- A byte swap of the low `n` bytes (R158): the identity where the target order is the host's, else the bytes reversed; the
bits above become zero either way. -/
def State.byteSwap (s : State) (target : Endian) (n : Nat) (dst : Gpr) : Result :=
  s.finish do
    let v ← s.readReg (.gpr dst)
    let r := if target = s.params.hostEndian then lowBytes n v else swapBytes n v
    return (s.setReg dst r).nextSlot

end Sys2Proof.Machine
end

