-- ==== Sys2Proof/Machine/Alu32.lean ====
section
/-! DEFINITION. 32-bit arithmetic, class BPF_ALU (`40_alu.md`). -/

namespace Sys2Proof.Machine

/-- `add32`, immediate form, opcode 0x04 (R114): addition. -/
def execAdd32K (dst : Gpr) (imm : BitVec 32) (s : State) : Result :=
  s.alu32 (fun a b => a + b) dst (.imm imm)

/-- `add32`, register form, opcode 0x0c (R114): addition. -/
def execAdd32X (dst : Gpr) (src : Reg) (s : State) : Result :=
  s.alu32 (fun a b => a + b) dst (.reg src)

/-- `sub32`, immediate form, opcode 0x14 (R116): subtraction, the destination the minuend. -/
def execSub32K (dst : Gpr) (imm : BitVec 32) (s : State) : Result :=
  s.alu32 (fun a b => a - b) dst (.imm imm)

/-- `sub32`, register form, opcode 0x1c (R116): subtraction, the destination the minuend. -/
def execSub32X (dst : Gpr) (src : Reg) (s : State) : Result :=
  s.alu32 (fun a b => a - b) dst (.reg src)

/-- `mul32`, immediate form, opcode 0x24 (R118): the low half of the product. -/
def execMul32K (dst : Gpr) (imm : BitVec 32) (s : State) : Result :=
  s.alu32 (fun a b => a * b) dst (.imm imm)

/-- `mul32`, register form, opcode 0x2c (R118): the low half of the product. -/
def execMul32X (dst : Gpr) (src : Reg) (s : State) : Result :=
  s.alu32 (fun a b => a * b) dst (.reg src)

/-- `div32`, immediate form, opcode 0x34 (R120): unsigned division, 0 where the divisor is 0. -/
def execDiv32K (dst : Gpr) (imm : BitVec 32) (s : State) : Result :=
  s.alu32 aluDiv dst (.imm imm)

/-- `div32`, register form, opcode 0x3c (R120): unsigned division, 0 where the divisor is 0. -/
def execDiv32X (dst : Gpr) (src : Reg) (s : State) : Result :=
  s.alu32 aluDiv dst (.reg src)

/-- `or32`, immediate form, opcode 0x44 (R122): bitwise or. -/
def execOr32K (dst : Gpr) (imm : BitVec 32) (s : State) : Result :=
  s.alu32 (fun a b => a ||| b) dst (.imm imm)

/-- `or32`, register form, opcode 0x4c (R122): bitwise or. -/
def execOr32X (dst : Gpr) (src : Reg) (s : State) : Result :=
  s.alu32 (fun a b => a ||| b) dst (.reg src)

/-- `and32`, immediate form, opcode 0x54 (R124): bitwise and. -/
def execAnd32K (dst : Gpr) (imm : BitVec 32) (s : State) : Result :=
  s.alu32 (fun a b => a &&& b) dst (.imm imm)

/-- `and32`, register form, opcode 0x5c (R124): bitwise and. -/
def execAnd32X (dst : Gpr) (src : Reg) (s : State) : Result :=
  s.alu32 (fun a b => a &&& b) dst (.reg src)

/-- `lsh32`, immediate form, opcode 0x64 (R126): shift left. -/
def execLsh32K (dst : Gpr) (imm : BitVec 32) (s : State) : Result :=
  s.shift32 aluLsh dst (.imm imm)

/-- `lsh32`, register form, opcode 0x6c (R126): shift left. -/
def execLsh32X (dst : Gpr) (src : Reg) (s : State) : Result :=
  s.shift32 aluLsh dst (.reg src)

/-- `rsh32`, immediate form, opcode 0x74 (R128): logical shift right. -/
def execRsh32K (dst : Gpr) (imm : BitVec 32) (s : State) : Result :=
  s.shift32 aluRsh dst (.imm imm)

/-- `rsh32`, register form, opcode 0x7c (R128): logical shift right. -/
def execRsh32X (dst : Gpr) (src : Reg) (s : State) : Result :=
  s.shift32 aluRsh dst (.reg src)

/-- `neg32`, immediate form, opcode 0x84 (R130): BPF_NEG. The complement of the source operand, or, under NEG_READING = negate_dst, the negation of the destination, where `imm` is unused and so zero (R90). -/
def execNeg32K (dst : Gpr) (imm : BitVec 32) (s : State) : Result :=
  match s.params.negReading with
  | .source => s.unary32 (fun b => ~~~b) dst (.imm imm)
  | .negateDst => if imm = 0#32 then s.alu32 (fun a _ => 0 - a) dst (.imm imm) else s.illegal (.neg32K dst imm)

/-- `neg32`, register form, opcode 0x8c (R130): BPF_NEG. The complement of the source operand; under NEG_READING = negate_dst the byte is illegal (R90). -/
def execNeg32X (dst : Gpr) (src : Reg) (s : State) : Result :=
  match s.params.negReading with
  | .source => s.unary32 (fun b => ~~~b) dst (.reg src)
  | .negateDst => s.illegal (.neg32X dst src)

/-- `mod32`, immediate form, opcode 0x94 (R132): unsigned remainder, the dividend where the divisor is 0. -/
def execMod32K (dst : Gpr) (imm : BitVec 32) (s : State) : Result :=
  s.alu32 aluMod dst (.imm imm)

/-- `mod32`, register form, opcode 0x9c (R132): unsigned remainder, the dividend where the divisor is 0. -/
def execMod32X (dst : Gpr) (src : Reg) (s : State) : Result :=
  s.alu32 aluMod dst (.reg src)

/-- `xor32`, immediate form, opcode 0xa4 (R134): bitwise exclusive or. -/
def execXor32K (dst : Gpr) (imm : BitVec 32) (s : State) : Result :=
  s.alu32 (fun a b => a ^^^ b) dst (.imm imm)

/-- `xor32`, register form, opcode 0xac (R134): bitwise exclusive or. -/
def execXor32X (dst : Gpr) (src : Reg) (s : State) : Result :=
  s.alu32 (fun a b => a ^^^ b) dst (.reg src)

/-- `mov32`, immediate form, opcode 0xb4 (R136): move. -/
def execMov32K (dst : Gpr) (imm : BitVec 32) (s : State) : Result :=
  s.unary32 (fun b => b) dst (.imm imm)

/-- `mov32`, register form, opcode 0xbc (R136): move. -/
def execMov32X (dst : Gpr) (src : Reg) (s : State) : Result :=
  s.unary32 (fun b => b) dst (.reg src)

/-- `arsh32`, immediate form, opcode 0xc4 (R138): arithmetic shift right. -/
def execArsh32K (dst : Gpr) (imm : BitVec 32) (s : State) : Result :=
  s.shift32 aluArsh dst (.imm imm)

/-- `arsh32`, register form, opcode 0xcc (R138): arithmetic shift right. -/
def execArsh32X (dst : Gpr) (src : Reg) (s : State) : Result :=
  s.shift32 aluArsh dst (.reg src)

end Sys2Proof.Machine
end

