-- ==== Sys2Proof/Machine/Alu64.lean ====
section
/-! DEFINITION. 64-bit arithmetic, class BPF_ALU64 (`40_alu.md`). -/

namespace Sys2Proof.Machine

/-- `add64`, immediate form, opcode 0x07 (R113): addition. -/
def execAdd64K (dst : Gpr) (imm : BitVec 32) (s : State) : Result :=
  s.alu64 (fun a b => a + b) dst (.imm imm)

/-- `add64`, register form, opcode 0x0f (R113): addition. -/
def execAdd64X (dst : Gpr) (src : Reg) (s : State) : Result :=
  s.alu64 (fun a b => a + b) dst (.reg src)

/-- `sub64`, immediate form, opcode 0x17 (R115): subtraction, the destination the minuend. -/
def execSub64K (dst : Gpr) (imm : BitVec 32) (s : State) : Result :=
  s.alu64 (fun a b => a - b) dst (.imm imm)

/-- `sub64`, register form, opcode 0x1f (R115): subtraction, the destination the minuend. -/
def execSub64X (dst : Gpr) (src : Reg) (s : State) : Result :=
  s.alu64 (fun a b => a - b) dst (.reg src)

/-- `mul64`, immediate form, opcode 0x27 (R117): the low half of the product. -/
def execMul64K (dst : Gpr) (imm : BitVec 32) (s : State) : Result :=
  s.alu64 (fun a b => a * b) dst (.imm imm)

/-- `mul64`, register form, opcode 0x2f (R117): the low half of the product. -/
def execMul64X (dst : Gpr) (src : Reg) (s : State) : Result :=
  s.alu64 (fun a b => a * b) dst (.reg src)

/-- `div64`, immediate form, opcode 0x37 (R119): unsigned division, 0 where the divisor is 0. -/
def execDiv64K (dst : Gpr) (imm : BitVec 32) (s : State) : Result :=
  s.alu64 aluDiv dst (.imm imm)

/-- `div64`, register form, opcode 0x3f (R119): unsigned division, 0 where the divisor is 0. -/
def execDiv64X (dst : Gpr) (src : Reg) (s : State) : Result :=
  s.alu64 aluDiv dst (.reg src)

/-- `or64`, immediate form, opcode 0x47 (R121): bitwise or. -/
def execOr64K (dst : Gpr) (imm : BitVec 32) (s : State) : Result :=
  s.alu64 (fun a b => a ||| b) dst (.imm imm)

/-- `or64`, register form, opcode 0x4f (R121): bitwise or. -/
def execOr64X (dst : Gpr) (src : Reg) (s : State) : Result :=
  s.alu64 (fun a b => a ||| b) dst (.reg src)

/-- `and64`, immediate form, opcode 0x57 (R123): bitwise and. -/
def execAnd64K (dst : Gpr) (imm : BitVec 32) (s : State) : Result :=
  s.alu64 (fun a b => a &&& b) dst (.imm imm)

/-- `and64`, register form, opcode 0x5f (R123): bitwise and. -/
def execAnd64X (dst : Gpr) (src : Reg) (s : State) : Result :=
  s.alu64 (fun a b => a &&& b) dst (.reg src)

/-- `lsh64`, immediate form, opcode 0x67 (R125): shift left. -/
def execLsh64K (dst : Gpr) (imm : BitVec 32) (s : State) : Result :=
  s.shift64 aluLsh dst (.imm imm)

/-- `lsh64`, register form, opcode 0x6f (R125): shift left. -/
def execLsh64X (dst : Gpr) (src : Reg) (s : State) : Result :=
  s.shift64 aluLsh dst (.reg src)

/-- `rsh64`, immediate form, opcode 0x77 (R127): logical shift right. -/
def execRsh64K (dst : Gpr) (imm : BitVec 32) (s : State) : Result :=
  s.shift64 aluRsh dst (.imm imm)

/-- `rsh64`, register form, opcode 0x7f (R127): logical shift right. -/
def execRsh64X (dst : Gpr) (src : Reg) (s : State) : Result :=
  s.shift64 aluRsh dst (.reg src)

/-- `neg64`, immediate form, opcode 0x87 (R129): BPF_NEG. The complement of the source operand, or, under NEG_READING = negate_dst, the negation of the destination, where `imm` is unused and so zero (R90). -/
def execNeg64K (dst : Gpr) (imm : BitVec 32) (s : State) : Result :=
  match s.params.negReading with
  | .source => s.unary64 (fun b => ~~~b) dst (.imm imm)
  | .negateDst => if imm = 0#32 then s.alu64 (fun a _ => 0 - a) dst (.imm imm) else s.illegal (.neg64K dst imm)

/-- `neg64`, register form, opcode 0x8f (R129): BPF_NEG. The complement of the source operand; under NEG_READING = negate_dst the byte is illegal (R90). -/
def execNeg64X (dst : Gpr) (src : Reg) (s : State) : Result :=
  match s.params.negReading with
  | .source => s.unary64 (fun b => ~~~b) dst (.reg src)
  | .negateDst => s.illegal (.neg64X dst src)

/-- `mod64`, immediate form, opcode 0x97 (R131): unsigned remainder, the dividend where the divisor is 0. -/
def execMod64K (dst : Gpr) (imm : BitVec 32) (s : State) : Result :=
  s.alu64 aluMod dst (.imm imm)

/-- `mod64`, register form, opcode 0x9f (R131): unsigned remainder, the dividend where the divisor is 0. -/
def execMod64X (dst : Gpr) (src : Reg) (s : State) : Result :=
  s.alu64 aluMod dst (.reg src)

/-- `xor64`, immediate form, opcode 0xa7 (R133): bitwise exclusive or. -/
def execXor64K (dst : Gpr) (imm : BitVec 32) (s : State) : Result :=
  s.alu64 (fun a b => a ^^^ b) dst (.imm imm)

/-- `xor64`, register form, opcode 0xaf (R133): bitwise exclusive or. -/
def execXor64X (dst : Gpr) (src : Reg) (s : State) : Result :=
  s.alu64 (fun a b => a ^^^ b) dst (.reg src)

/-- `mov64`, immediate form, opcode 0xb7 (R135): move. -/
def execMov64K (dst : Gpr) (imm : BitVec 32) (s : State) : Result :=
  s.unary64 (fun b => b) dst (.imm imm)

/-- `mov64`, register form, opcode 0xbf (R135): move. -/
def execMov64X (dst : Gpr) (src : Reg) (s : State) : Result :=
  s.unary64 (fun b => b) dst (.reg src)

/-- `arsh64`, immediate form, opcode 0xc7 (R137): arithmetic shift right. -/
def execArsh64K (dst : Gpr) (imm : BitVec 32) (s : State) : Result :=
  s.shift64 aluArsh dst (.imm imm)

/-- `arsh64`, register form, opcode 0xcf (R137): arithmetic shift right. -/
def execArsh64X (dst : Gpr) (src : Reg) (s : State) : Result :=
  s.shift64 aluArsh dst (.reg src)

end Sys2Proof.Machine
end

