-- ==== Sys2Proof/Machine/Atomic.lean ====
section
/-! DEFINITION. Atomic operations (`44_atomic.md`). -/

namespace Sys2Proof.Machine

/-- What an atomic operation does with the old value (R222): nothing, or a register takes it. -/
inductive FetchTo
  | nothing
  | register (r : Gpr)
  deriving DecidableEq, Repr

/-- The register write-back of an atomic operation (R222). -/
def State.fetchTo (s : State) (d : FetchTo) (old : Word) : State :=
  match d with
  | .nothing => s
  | .register r => s.setReg r old

/-- A 64-bit atomic read-modify-write in one step (R220, R221, R245): all registers are read before anything is written. -/
def State.atomic64 (s : State) (f : Word → Word → Word) (dst src : Reg) (off : BitVec 16) (d : FetchTo) : Result :=
  s.finish do
    let base ← s.readReg dst
    let v ← s.readReg src
    let old ← s.atomicRead (effectiveAddress base off) 8
    return ((s.atomicWrite (effectiveAddress base off) 8 (f old v)).fetchTo d old).nextSlot

/-- A 32-bit atomic read-modify-write in one step (R220, R221, R245): the low half of `src`, the old value zero-extended. -/
def State.atomic32 (s : State) (f : BitVec 32 → BitVec 32 → BitVec 32) (dst src : Reg) (off : BitVec 16) (d : FetchTo) :
    Result :=
  s.finish do
    let base ← s.readReg dst
    let v ← s.readLow32 src
    let old ← s.atomicRead (effectiveAddress base off) 4
    return ((s.atomicWrite (effectiveAddress base off) 4 (zext64 (f (low32 old) v))).fetchTo d old).nextSlot

/-- The 64-bit compare and exchange in one step (R242, R244, R245): R0 is compared and takes the old value. -/
def State.compareExchange64 (s : State) (dst src : Reg) (off : BitVec 16) : Result :=
  s.finish do
    let base ← s.readReg dst
    let v ← s.readReg src
    let c ← s.readReg (.gpr .r0)
    let old ← s.atomicRead (effectiveAddress base off) 8
    let t := if old = c then s.atomicWrite (effectiveAddress base off) 8 v else s
    return (t.setReg .r0 old).nextSlot

/-- The 32-bit compare and exchange in one step (R241, R244, R245): the low halves are compared and stored, R0 takes the old
value zero-extended. -/
def State.compareExchange32 (s : State) (dst src : Reg) (off : BitVec 16) : Result :=
  s.finish do
    let base ← s.readReg dst
    let v ← s.readLow32 src
    let c ← s.readLow32 (.gpr .r0)
    let old ← s.atomicRead (effectiveAddress base off) 4
    let t := if low32 old = c then s.atomicWrite (effectiveAddress base off) 4 (zext64 v) else s
    return (t.setReg .r0 old).nextSlot

/-- `aadd32`, opcode 0xc3 with imm 0x00 (R223). -/
def execAadd32 (dst : Reg) (src : Reg) (off : BitVec 16) (s : State) : Result :=
  s.atomic32 (fun old v => old + v) dst src off .nothing

/-- `afadd32`, opcode 0xc3 with imm 0x01 (R224). -/
def execAfadd32 (dst : Reg) (src : Gpr) (off : BitVec 16) (s : State) : Result :=
  s.atomic32 (fun old v => old + v) dst (.gpr src) off (.register src)

/-- `aor32`, opcode 0xc3 with imm 0x40 (R225). -/
def execAor32 (dst : Reg) (src : Reg) (off : BitVec 16) (s : State) : Result :=
  s.atomic32 (fun old v => old ||| v) dst src off .nothing

/-- `afor32`, opcode 0xc3 with imm 0x41 (R226). -/
def execAfor32 (dst : Reg) (src : Gpr) (off : BitVec 16) (s : State) : Result :=
  s.atomic32 (fun old v => old ||| v) dst (.gpr src) off (.register src)

/-- `aand32`, opcode 0xc3 with imm 0x50 (R227). -/
def execAand32 (dst : Reg) (src : Reg) (off : BitVec 16) (s : State) : Result :=
  s.atomic32 (fun old v => old &&& v) dst src off .nothing

/-- `afand32`, opcode 0xc3 with imm 0x51 (R228). -/
def execAfand32 (dst : Reg) (src : Gpr) (off : BitVec 16) (s : State) : Result :=
  s.atomic32 (fun old v => old &&& v) dst (.gpr src) off (.register src)

/-- `axor32`, opcode 0xc3 with imm 0xa0 (R229). -/
def execAxor32 (dst : Reg) (src : Reg) (off : BitVec 16) (s : State) : Result :=
  s.atomic32 (fun old v => old ^^^ v) dst src off .nothing

/-- `afxor32`, opcode 0xc3 with imm 0xa1 (R230). -/
def execAfxor32 (dst : Reg) (src : Gpr) (off : BitVec 16) (s : State) : Result :=
  s.atomic32 (fun old v => old ^^^ v) dst (.gpr src) off (.register src)

/-- `aadd64`, opcode 0xdb with imm 0x00 (R231). -/
def execAadd64 (dst : Reg) (src : Reg) (off : BitVec 16) (s : State) : Result :=
  s.atomic64 (fun old v => old + v) dst src off .nothing

/-- `afadd64`, opcode 0xdb with imm 0x01 (R232). -/
def execAfadd64 (dst : Reg) (src : Gpr) (off : BitVec 16) (s : State) : Result :=
  s.atomic64 (fun old v => old + v) dst (.gpr src) off (.register src)

/-- `aor64`, opcode 0xdb with imm 0x40 (R233). -/
def execAor64 (dst : Reg) (src : Reg) (off : BitVec 16) (s : State) : Result :=
  s.atomic64 (fun old v => old ||| v) dst src off .nothing

/-- `afor64`, opcode 0xdb with imm 0x41 (R234). -/
def execAfor64 (dst : Reg) (src : Gpr) (off : BitVec 16) (s : State) : Result :=
  s.atomic64 (fun old v => old ||| v) dst (.gpr src) off (.register src)

/-- `aand64`, opcode 0xdb with imm 0x50 (R235). -/
def execAand64 (dst : Reg) (src : Reg) (off : BitVec 16) (s : State) : Result :=
  s.atomic64 (fun old v => old &&& v) dst src off .nothing

/-- `afand64`, opcode 0xdb with imm 0x51 (R236). -/
def execAfand64 (dst : Reg) (src : Gpr) (off : BitVec 16) (s : State) : Result :=
  s.atomic64 (fun old v => old &&& v) dst (.gpr src) off (.register src)

/-- `axor64`, opcode 0xdb with imm 0xa0 (R237). -/
def execAxor64 (dst : Reg) (src : Reg) (off : BitVec 16) (s : State) : Result :=
  s.atomic64 (fun old v => old ^^^ v) dst src off .nothing

/-- `afxor64`, opcode 0xdb with imm 0xa1 (R238). -/
def execAfxor64 (dst : Reg) (src : Gpr) (off : BitVec 16) (s : State) : Result :=
  s.atomic64 (fun old v => old ^^^ v) dst (.gpr src) off (.register src)

/-- `axchg32`, opcode 0xc3 with imm 0xe1 (R239). -/
def execAxchg32 (dst : Reg) (src : Gpr) (off : BitVec 16) (s : State) : Result :=
  s.atomic32 (fun _ v => v) dst (.gpr src) off (.register src)

/-- `axchg64`, opcode 0xdb with imm 0xe1 (R240). -/
def execAxchg64 (dst : Reg) (src : Gpr) (off : BitVec 16) (s : State) : Result :=
  s.atomic64 (fun _ v => v) dst (.gpr src) off (.register src)

/-- `acmpxchg32`, opcode 0xc3 with imm 0xf1 (R241). -/
def execAcmpxchg32 (dst : Reg) (src : Reg) (off : BitVec 16) (s : State) : Result :=
  s.compareExchange32 dst src off

/-- `acmpxchg64`, opcode 0xdb with imm 0xf1 (R242). -/
def execAcmpxchg64 (dst : Reg) (src : Reg) (off : BitVec 16) (s : State) : Result :=
  s.compareExchange64 dst src off

end Sys2Proof.Machine
end

