-- ==== Sys2Proof/Machine/Call.lean ====
section
/-! DEFINITION. Call and exit (`42_jump.md` R185 to R187; `60_exceptions.md` R280). -/

namespace Sys2Proof.Machine

/-- The entry of HELPERS for a function number (R185): the first with that number. -/
def helperOf (helpers : List Helper) (number : BitVec 32) : Option Helper :=
  match helpers with
  | [] => none
  | h :: rest => if h.number = number then some h else helperOf rest number

/-- R1 to R5, in order. -/
def argumentRegisters : List Gpr := [.r1, .r2, .r3, .r4, .r5]

/-- `args = (x[1], ..., x[k])`: the values of the listed registers, or UninitRead of the first that holds none (R185,
R271). -/
def State.readArgs (s : State) : List Gpr → Except RaisedFault (List Word)
  | [] => .ok []
  | r :: rs => do
    let v ← s.readReg (.gpr r)
    let vs ← s.readArgs rs
    return v :: vs

/-- `choose (ret, Mem')` with `f(args, Mem, ret, Mem')` (R185): the answer of those the function allows that the state's next
choice names, and the state without that choice; none where the function allows no answer. DESIGN CHOICE (log 8): which of
several answers a call gets is by the state's source of choices; whether a function that HELPERS gives by name alone fails is
open. -/
def State.chooseAnswer (s : State) (h : Helper) (args : List Word) : Option ((Word × List Host.Cell) × State) :=
  match HelperFunction.answers h.function args s.mem with
  | none => none
  | some answers =>
    let choice := s.callChoices.next Config.callChoice
    some (answers choice.1, { s with callChoices := choice.2 })

/-- Whether an argument is a pointer into the stack (R187). DESIGN CHOICE (log 9): an address of one of its bytes. -/
def pointsIntoStack (p : Params) (args : List Word) : Bool :=
  args.any fun v => regionHolds p.stackRegion v.toNat

/-- Whether a function that was given these arguments may change the byte at `a` (R185, R187): any byte of data memory, but one
of the stack only where it was given a pointer into the stack. -/
def callMayChange (p : Params) (args : List Word) (a : Nat) : Bool :=
  pointsIntoStack p args || !regionHolds p.stackRegion a

/-- A called function's effect (R185, R187): data memory as it chose, the stack apart where it was given no pointer into it; R0
its result, R1 to R5 no value. -/
def State.afterCall (s : State) (args : List Word) (ret : Word) (after : List Host.Cell) : State :=
  { s with mem := s.mem.replace (callMayChange s.params args) after, regs := s.regs.afterCall ret }

/-- `call`, opcode 0x85 (R185, R187): the function that `imm`, unsigned, names in HELPERS runs to completion. A number that
names none is a CallFault before the arguments are read, a function that allows no result one after (R271). -/
def execCall (imm : BitVec 32) (s : State) : Result :=
  s.finish
    (match helperOf s.params.helpers imm with
    | none => .error (.callFault imm.toNat)
    | some h => do
      let args ← s.readArgs (argumentRegisters.take h.arity.val)
      match s.chooseAnswer h args with
      | some ((ret, after), t) => return (t.afterCall args ret after).nextSlot
      | none => .error (.callFault imm.toNat))

/-- `exit`, opcode 0x95 (R186, R280): the run ends with the value of R0. -/
def execExit (s : State) : Result :=
  s.finish do
    let v ← s.readReg (.gpr .r0)
    return s.exit v

end Sys2Proof.Machine
end

