-- ==== Sys2Proof/Machine/Flags.lean ====
section
/-! DEFINITION. eBPF has no flags and no condition codes (`10_state.md` R26): every conditional jump compares two operands
itself. The conditions of the jump table (`42_jump.md` R161 to R184) stand here, at either width. -/

namespace Sys2Proof.Machine

/-- `jeq` (R163, R164). -/
def condEq {w : Nat} (a b : BitVec w) : Bool := a == b

/-- `jne` (R171, R172). -/
def condNe {w : Nat} (a b : BitVec w) : Bool := a != b

/-- `jgt`, unsigned (R165, R166). -/
def condGt {w : Nat} (a b : BitVec w) : Bool := BitVec.ult b a

/-- `jge`, unsigned (R167, R168). -/
def condGe {w : Nat} (a b : BitVec w) : Bool := BitVec.ule b a

/-- `jlt`, unsigned (R177, R178). -/
def condLt {w : Nat} (a b : BitVec w) : Bool := BitVec.ult a b

/-- `jle`, unsigned (R179, R180). -/
def condLe {w : Nat} (a b : BitVec w) : Bool := BitVec.ule a b

/-- `jset`: any common bit set (R169, R170). -/
def condSet {w : Nat} (a b : BitVec w) : Bool := (a &&& b) != 0#w

/-- `jsgt`, signed (R173, R174). -/
def condSgt {w : Nat} (a b : BitVec w) : Bool := BitVec.slt b a

/-- `jsge`, signed (R175, R176). -/
def condSge {w : Nat} (a b : BitVec w) : Bool := BitVec.sle b a

/-- `jslt`, signed (R181, R182). -/
def condSlt {w : Nat} (a b : BitVec w) : Bool := BitVec.slt a b

/-- `jsle`, signed (R183, R184). -/
def condSle {w : Nat} (a b : BitVec w) : Bool := BitVec.sle a b

end Sys2Proof.Machine
end

