-- ==== Sys2Proof/Machine/Jump.lean ====
section
/-! DEFINITION. Jumps, classes BPF_JMP and BPF_JMP32 (`42_jump.md`). -/

namespace Sys2Proof.Machine

/-- Where a jump goes (R160): `p + 1 + s(off)` where it is taken, `p + 1` where it is not. The target is checked when the
next instruction is fetched, not here. -/
def State.jump (s : State) (taken : Bool) (off : BitVec 16) : State :=
  if taken then s.advance (1 + signedOffset off) else s.nextSlot

/-- A 64-bit conditional jump (R160, R161). -/
def State.jump64 (s : State) (cond : Word → Word → Bool) (dst : Reg) (b : Source) (off : BitVec 16) : Result :=
  s.finish do
    let x ← s.readReg dst
    let y ← s.source64 b
    return s.jump (cond x y) off

/-- A 32-bit conditional jump (R160, R161). -/
def State.jump32 (s : State) (cond : BitVec 32 → BitVec 32 → Bool) (dst : Reg) (b : Source) (off : BitVec 16) : Result :=
  s.finish do
    let x ← s.readLow32 dst
    let y ← s.source32 b
    return s.jump (cond x y) off

/-- `ja`, opcode 0x05 (R162). -/
def execJa (off : BitVec 16) (s : State) : Result :=
  .next (s.jump true off)

/-- `jeq`, immediate form, opcode 0x15 (R163). -/
def execJeqK (dst : Reg) (imm : BitVec 32) (off : BitVec 16) (s : State) : Result :=
  s.jump64 condEq dst (.imm imm) off

/-- `jeq`, register form, opcode 0x1d (R163). -/
def execJeqX (dst : Reg) (src : Reg) (off : BitVec 16) (s : State) : Result :=
  s.jump64 condEq dst (.reg src) off

/-- `jgt`, immediate form, opcode 0x25 (R165). -/
def execJgtK (dst : Reg) (imm : BitVec 32) (off : BitVec 16) (s : State) : Result :=
  s.jump64 condGt dst (.imm imm) off

/-- `jgt`, register form, opcode 0x2d (R165). -/
def execJgtX (dst : Reg) (src : Reg) (off : BitVec 16) (s : State) : Result :=
  s.jump64 condGt dst (.reg src) off

/-- `jge`, immediate form, opcode 0x35 (R167). -/
def execJgeK (dst : Reg) (imm : BitVec 32) (off : BitVec 16) (s : State) : Result :=
  s.jump64 condGe dst (.imm imm) off

/-- `jge`, register form, opcode 0x3d (R167). -/
def execJgeX (dst : Reg) (src : Reg) (off : BitVec 16) (s : State) : Result :=
  s.jump64 condGe dst (.reg src) off

/-- `jset`, immediate form, opcode 0x45 (R169). -/
def execJsetK (dst : Reg) (imm : BitVec 32) (off : BitVec 16) (s : State) : Result :=
  s.jump64 condSet dst (.imm imm) off

/-- `jset`, register form, opcode 0x4d (R169). -/
def execJsetX (dst : Reg) (src : Reg) (off : BitVec 16) (s : State) : Result :=
  s.jump64 condSet dst (.reg src) off

/-- `jne`, immediate form, opcode 0x55 (R171). -/
def execJneK (dst : Reg) (imm : BitVec 32) (off : BitVec 16) (s : State) : Result :=
  s.jump64 condNe dst (.imm imm) off

/-- `jne`, register form, opcode 0x5d (R171). -/
def execJneX (dst : Reg) (src : Reg) (off : BitVec 16) (s : State) : Result :=
  s.jump64 condNe dst (.reg src) off

/-- `jsgt`, immediate form, opcode 0x65 (R173). -/
def execJsgtK (dst : Reg) (imm : BitVec 32) (off : BitVec 16) (s : State) : Result :=
  s.jump64 condSgt dst (.imm imm) off

/-- `jsgt`, register form, opcode 0x6d (R173). -/
def execJsgtX (dst : Reg) (src : Reg) (off : BitVec 16) (s : State) : Result :=
  s.jump64 condSgt dst (.reg src) off

/-- `jsge`, immediate form, opcode 0x75 (R175). -/
def execJsgeK (dst : Reg) (imm : BitVec 32) (off : BitVec 16) (s : State) : Result :=
  s.jump64 condSge dst (.imm imm) off

/-- `jsge`, register form, opcode 0x7d (R175). -/
def execJsgeX (dst : Reg) (src : Reg) (off : BitVec 16) (s : State) : Result :=
  s.jump64 condSge dst (.reg src) off

/-- `jlt`, immediate form, opcode 0xa5 (R177). -/
def execJltK (dst : Reg) (imm : BitVec 32) (off : BitVec 16) (s : State) : Result :=
  s.jump64 condLt dst (.imm imm) off

/-- `jlt`, register form, opcode 0xad (R177). -/
def execJltX (dst : Reg) (src : Reg) (off : BitVec 16) (s : State) : Result :=
  s.jump64 condLt dst (.reg src) off

/-- `jle`, immediate form, opcode 0xb5 (R179). -/
def execJleK (dst : Reg) (imm : BitVec 32) (off : BitVec 16) (s : State) : Result :=
  s.jump64 condLe dst (.imm imm) off

/-- `jle`, register form, opcode 0xbd (R179). -/
def execJleX (dst : Reg) (src : Reg) (off : BitVec 16) (s : State) : Result :=
  s.jump64 condLe dst (.reg src) off

/-- `jslt`, immediate form, opcode 0xc5 (R181). -/
def execJsltK (dst : Reg) (imm : BitVec 32) (off : BitVec 16) (s : State) : Result :=
  s.jump64 condSlt dst (.imm imm) off

/-- `jslt`, register form, opcode 0xcd (R181). -/
def execJsltX (dst : Reg) (src : Reg) (off : BitVec 16) (s : State) : Result :=
  s.jump64 condSlt dst (.reg src) off

/-- `jsle`, immediate form, opcode 0xd5 (R183). -/
def execJsleK (dst : Reg) (imm : BitVec 32) (off : BitVec 16) (s : State) : Result :=
  s.jump64 condSle dst (.imm imm) off

/-- `jsle`, register form, opcode 0xdd (R183). -/
def execJsleX (dst : Reg) (src : Reg) (off : BitVec 16) (s : State) : Result :=
  s.jump64 condSle dst (.reg src) off

/-- `jeq32`, immediate form, opcode 0x16 (R164). -/
def execJeq32K (dst : Reg) (imm : BitVec 32) (off : BitVec 16) (s : State) : Result :=
  s.jump32 condEq dst (.imm imm) off

/-- `jeq32`, register form, opcode 0x1e (R164). -/
def execJeq32X (dst : Reg) (src : Reg) (off : BitVec 16) (s : State) : Result :=
  s.jump32 condEq dst (.reg src) off

/-- `jgt32`, immediate form, opcode 0x26 (R166). -/
def execJgt32K (dst : Reg) (imm : BitVec 32) (off : BitVec 16) (s : State) : Result :=
  s.jump32 condGt dst (.imm imm) off

/-- `jgt32`, register form, opcode 0x2e (R166). -/
def execJgt32X (dst : Reg) (src : Reg) (off : BitVec 16) (s : State) : Result :=
  s.jump32 condGt dst (.reg src) off

/-- `jge32`, immediate form, opcode 0x36 (R168). -/
def execJge32K (dst : Reg) (imm : BitVec 32) (off : BitVec 16) (s : State) : Result :=
  s.jump32 condGe dst (.imm imm) off

/-- `jge32`, register form, opcode 0x3e (R168). -/
def execJge32X (dst : Reg) (src : Reg) (off : BitVec 16) (s : State) : Result :=
  s.jump32 condGe dst (.reg src) off

/-- `jset32`, immediate form, opcode 0x46 (R170). -/
def execJset32K (dst : Reg) (imm : BitVec 32) (off : BitVec 16) (s : State) : Result :=
  s.jump32 condSet dst (.imm imm) off

/-- `jset32`, register form, opcode 0x4e (R170). -/
def execJset32X (dst : Reg) (src : Reg) (off : BitVec 16) (s : State) : Result :=
  s.jump32 condSet dst (.reg src) off

/-- `jne32`, immediate form, opcode 0x56 (R172). -/
def execJne32K (dst : Reg) (imm : BitVec 32) (off : BitVec 16) (s : State) : Result :=
  s.jump32 condNe dst (.imm imm) off

/-- `jne32`, register form, opcode 0x5e (R172). -/
def execJne32X (dst : Reg) (src : Reg) (off : BitVec 16) (s : State) : Result :=
  s.jump32 condNe dst (.reg src) off

/-- `jsgt32`, immediate form, opcode 0x66 (R174). -/
def execJsgt32K (dst : Reg) (imm : BitVec 32) (off : BitVec 16) (s : State) : Result :=
  s.jump32 condSgt dst (.imm imm) off

/-- `jsgt32`, register form, opcode 0x6e (R174). -/
def execJsgt32X (dst : Reg) (src : Reg) (off : BitVec 16) (s : State) : Result :=
  s.jump32 condSgt dst (.reg src) off

/-- `jsge32`, immediate form, opcode 0x76 (R176). -/
def execJsge32K (dst : Reg) (imm : BitVec 32) (off : BitVec 16) (s : State) : Result :=
  s.jump32 condSge dst (.imm imm) off

/-- `jsge32`, register form, opcode 0x7e (R176). -/
def execJsge32X (dst : Reg) (src : Reg) (off : BitVec 16) (s : State) : Result :=
  s.jump32 condSge dst (.reg src) off

/-- `jlt32`, immediate form, opcode 0xa6 (R178). -/
def execJlt32K (dst : Reg) (imm : BitVec 32) (off : BitVec 16) (s : State) : Result :=
  s.jump32 condLt dst (.imm imm) off

/-- `jlt32`, register form, opcode 0xae (R178). -/
def execJlt32X (dst : Reg) (src : Reg) (off : BitVec 16) (s : State) : Result :=
  s.jump32 condLt dst (.reg src) off

/-- `jle32`, immediate form, opcode 0xb6 (R180). -/
def execJle32K (dst : Reg) (imm : BitVec 32) (off : BitVec 16) (s : State) : Result :=
  s.jump32 condLe dst (.imm imm) off

/-- `jle32`, register form, opcode 0xbe (R180). -/
def execJle32X (dst : Reg) (src : Reg) (off : BitVec 16) (s : State) : Result :=
  s.jump32 condLe dst (.reg src) off

/-- `jslt32`, immediate form, opcode 0xc6 (R182). -/
def execJslt32K (dst : Reg) (imm : BitVec 32) (off : BitVec 16) (s : State) : Result :=
  s.jump32 condSlt dst (.imm imm) off

/-- `jslt32`, register form, opcode 0xce (R182). -/
def execJslt32X (dst : Reg) (src : Reg) (off : BitVec 16) (s : State) : Result :=
  s.jump32 condSlt dst (.reg src) off

/-- `jsle32`, immediate form, opcode 0xd6 (R184). -/
def execJsle32K (dst : Reg) (imm : BitVec 32) (off : BitVec 16) (s : State) : Result :=
  s.jump32 condSle dst (.imm imm) off

/-- `jsle32`, register form, opcode 0xde (R184). -/
def execJsle32X (dst : Reg) (src : Reg) (off : BitVec 16) (s : State) : Result :=
  s.jump32 condSle dst (.reg src) off

end Sys2Proof.Machine
end

