-- ==== Sys2Proof/Machine/Legacy.lean ====
section
/-! DEFINITION. Legacy packet access (`46_legacy_packet.md`). -/

namespace Sys2Proof.Machine

/-- `ldabs` (R255, R256): the source names it and gives it no meaning, so it is refused; the refusal looks at the opcode
only. -/
def execLdabs (_size : Size) (_dst : BitVec 4) (_src : BitVec 4) (_off : BitVec 16) (_imm : BitVec 32) (s : State) : Result :=
  s.refuse

/-- `ldind` (R255, R256): the source names it and gives it no meaning, so it is refused; the refusal looks at the opcode
only. -/
def execLdind (_size : Size) (_dst : BitVec 4) (_src : BitVec 4) (_off : BitVec 16) (_imm : BitVec 32) (s : State) : Result :=
  s.refuse

end Sys2Proof.Machine
end

