-- ==== Sys2Proof/Machine/LoadStore.lean ====
section
/-! DEFINITION. Regular loads and stores (`43_load_store.md`). -/

namespace Sys2Proof.Machine

/-- A load of `n` bytes (R200, R213): the base is `src`, the value is zero-extended. -/
def State.load (s : State) (n : Nat) (dst : Gpr) (src : Reg) (off : BitVec 16) : Result :=
  s.finish do
    let base ← s.readReg src
    let (v, t) ← s.memRead (effectiveAddress base off) n
    return (t.setReg dst v).nextSlot

/-- A store of the low `n` bytes of an immediate, sign-extended to 64 bits (R200, R213): the base is `dst`. -/
def State.storeImm (s : State) (n : Nat) (dst : Reg) (off : BitVec 16) (imm : BitVec 32) : Result :=
  s.finish do
    let base ← s.readReg dst
    let t ← s.memWrite (effectiveAddress base off) n (sext64 imm)
    return t.nextSlot

/-- A store of the low `n` bytes of a register (R200, R213): the base is `dst`, read first (R271). -/
def State.storeReg (s : State) (n : Nat) (dst src : Reg) (off : BitVec 16) : Result :=
  s.finish do
    let base ← s.readReg dst
    let v ← s.readReg src
    let t ← s.memWrite (effectiveAddress base off) n v
    return t.nextSlot

/-- `ldxw`, opcode 0x61 (R203). -/
def execLdxw (dst : Gpr) (src : Reg) (off : BitVec 16) (s : State) : Result :=
  s.load (sizeBytes .w) dst src off

/-- `ldxh`, opcode 0x69 (R202). -/
def execLdxh (dst : Gpr) (src : Reg) (off : BitVec 16) (s : State) : Result :=
  s.load (sizeBytes .h) dst src off

/-- `ldxb`, opcode 0x71 (R201). -/
def execLdxb (dst : Gpr) (src : Reg) (off : BitVec 16) (s : State) : Result :=
  s.load (sizeBytes .b) dst src off

/-- `ldxdw`, opcode 0x79 (R204). -/
def execLdxdw (dst : Gpr) (src : Reg) (off : BitVec 16) (s : State) : Result :=
  s.load (sizeBytes .dw) dst src off

/-- `stw`, opcode 0x62 (R207). -/
def execStw (dst : Reg) (off : BitVec 16) (imm : BitVec 32) (s : State) : Result :=
  s.storeImm (sizeBytes .w) dst off imm

/-- `sth`, opcode 0x6a (R206). -/
def execSth (dst : Reg) (off : BitVec 16) (imm : BitVec 32) (s : State) : Result :=
  s.storeImm (sizeBytes .h) dst off imm

/-- `stb`, opcode 0x72 (R205). -/
def execStb (dst : Reg) (off : BitVec 16) (imm : BitVec 32) (s : State) : Result :=
  s.storeImm (sizeBytes .b) dst off imm

/-- `stdw`, opcode 0x7a (R208). -/
def execStdw (dst : Reg) (off : BitVec 16) (imm : BitVec 32) (s : State) : Result :=
  s.storeImm (sizeBytes .dw) dst off imm

/-- `stxw`, opcode 0x63 (R211). -/
def execStxw (dst : Reg) (src : Reg) (off : BitVec 16) (s : State) : Result :=
  s.storeReg (sizeBytes .w) dst src off

/-- `stxh`, opcode 0x6b (R210). -/
def execStxh (dst : Reg) (src : Reg) (off : BitVec 16) (s : State) : Result :=
  s.storeReg (sizeBytes .h) dst src off

/-- `stxb`, opcode 0x73 (R209). -/
def execStxb (dst : Reg) (src : Reg) (off : BitVec 16) (s : State) : Result :=
  s.storeReg (sizeBytes .b) dst src off

/-- `stxdw`, opcode 0x7b (R212). -/
def execStxdw (dst : Reg) (src : Reg) (off : BitVec 16) (s : State) : Result :=
  s.storeReg (sizeBytes .dw) dst src off

end Sys2Proof.Machine
end

