-- ==== Sys2Proof/Machine/Swap.lean ====
section
/-! DEFINITION. Byte swaps (`41_byteswap.md`). -/

namespace Sys2Proof.Machine

/-- `le16`, opcode 0xd4 with imm 16 (R151). -/
def execLe16 (dst : Gpr) (s : State) : Result :=
  s.byteSwap .little 2 dst

/-- `le32`, opcode 0xd4 with imm 32 (R152). -/
def execLe32 (dst : Gpr) (s : State) : Result :=
  s.byteSwap .little 4 dst

/-- `le64`, opcode 0xd4 with imm 64 (R153). -/
def execLe64 (dst : Gpr) (s : State) : Result :=
  s.byteSwap .little 8 dst

/-- `be16`, opcode 0xdc with imm 16 (R154). -/
def execBe16 (dst : Gpr) (s : State) : Result :=
  s.byteSwap .big 2 dst

/-- `be32`, opcode 0xdc with imm 32 (R155). -/
def execBe32 (dst : Gpr) (s : State) : Result :=
  s.byteSwap .big 4 dst

/-- `be64`, opcode 0xdc with imm 64 (R156). -/
def execBe64 (dst : Gpr) (s : State) : Result :=
  s.byteSwap .big 8 dst

end Sys2Proof.Machine
end

