-- ==== Sys2Proof/Machine/Wide.lean ====
section
/-! DEFINITION. The 64-bit immediate load (`45_imm64.md`). -/

namespace Sys2Proof.Machine

/-- `lddw`, opcode 0x18 (R250): no register and no memory is read; `pc` moves past both slots. -/
def execLddw (dst : Gpr) (imm64 : Word) (s : State) : Result :=
  .next ((s.setReg dst imm64).advance 2)

end Sys2Proof.Machine
end

