-- ==== Sys2Proof/Machine/Fetch.lean ====
section
/-! DEFINITION. Fetching an instruction (`30_encoding.md` R91, `60_exceptions.md` R266), the outcome of a step, and placing
an instruction where the next step fetches it. -/

namespace Sys2Proof.Machine

/-- Whether the slot is the first of a wide instruction (R80): its opcode byte is 0x18. -/
def isWide (w : Slot) : Bool :=
  (Fields.ofSlot w).opcode == wideOpcode

/-- Whether index `p` is the first slot of an instruction (R91 step 1), by a scan from index 0: after a wide first slot the
next first slot is two further on, after any other one further on. -/
def isFirstSlot : List Slot → Nat → Bool
  | [], _ => false
  | _ :: _, 0 => true
  | w :: rest, p + 1 =>
    if isWide w then
      match rest, p with
      | _ :: rest', p' + 1 => isFirstSlot rest' p'
      | _, _ => false
    else isFirstSlot rest p

/-- The first slot of the instruction at `pc` and the slot after it, or PcFault (R91 steps 1 and 2, R266). -/
def State.fetchSlots (s : State) : Except RaisedFault (Slot × Option Slot) :=
  if s.pc < 0 then .error .pcFault
  else if isFirstSlot s.program s.pc.toNat then
    match s.program[s.pc.toNat]? with
    | some w => .ok (w, s.program[s.pc.toNat + 1]?)
    | none => .error .pcFault
  else .error .pcFault

/-- The instruction at `pc`, or the fault that its fetch or its decoding raises (R91, R263, R266). -/
def State.fetch (s : State) : Except RaisedFault Instr :=
  match s.fetchSlots with
  | .error f => .error f
  | .ok (w, next) =>
    match decode s.params w next with
    | .ok i => .ok i
    | .error _ => .error (.illegalInstruction w)

/-- What a step adds after an instruction: between two instructions other agents may move (R55, R293), and after the last
one nothing does. -/
def betweenSteps (r : Result) : Result :=
  match r with
  | .next t => .next (match t.status with
    | .running => t.envMove
    | .exited _ => t
    | .faulted _ _ => t
    | .refused _ _ => t)
  | .fault f => .fault f
  | .refused q => .refused q

/-- The run status after a step from `s` that answered `r` (R262, R264): what the step's next state holds, or, where the
instruction was refused, `Refused(reason, p)`. -/
def runStatusAfter (s : State) (r : Result) : RunStatus :=
  match r with
  | .next t => t.status
  | .fault _ => s.status
  | .refused (.legacyPacketAccess p) => .refused .legacyPacketAccess p
  | .refused _ => s.status

/-- Program text in which the slots `w0`, `w1` stand at index `n` and `n` is the first slot of an instruction: what stands
before and after them is kept, but where that makes `n` no first slot, zero slots, none of them wide, stand before it. -/
def placeSlots (program : List Slot) (n : Nat) (w0 w1 : Slot) : List Slot :=
  let kept := program.take n ++ List.replicate (n - program.length) 0#64
  let before := if isFirstSlot (kept ++ [w0]) n then kept else List.replicate n 0#64
  before ++ [w0, w1] ++ program.drop (n + 2)

end Sys2Proof.Machine
end

