-- ==== Sys2Proof/Machine/Step.lean ====
section
/-! DEFINITION. One step of the machine (`30_encoding.md` R91, `60_exceptions.md` R262 to R273, `70_reset_and_hazards.md`
R293). -/

namespace Sys2Proof.Machine

/-- One step: no step is taken once the run has ended (R272, R280); a fault of the fetch or of the decoding is raised
(R272); an instruction is executed, and other agents may move before the next one (R55). -/
def step (s : State) : Host.Outcome State Fault Refusal :=
  if s.status = .running then
    match s.fetch with
    | .error f => .next (s.raise f)
    | .ok i => betweenSteps (exec i s)
  else .fault .runEnded

/-- `s` with the instruction whose bits are `w` (bits from `nbits` on zero, up to two slots) as the one that the next step
fetches and runs: its slots stand at `pc` in PROGRAM, and the run is Running. A negative `pc`, which no slot has, becomes
0. -/
def State.withFetchWord (s : State) (nbits w : Nat) : State :=
  let bits := w % 2 ^ nbits
  { s with
    program := placeSlots s.program s.pc.toNat (BitVec.ofNat 64 bits) (BitVec.ofNat 64 (bits / 2 ^ 64))
    pc := s.pc.toNat
    status := .running }

end Sys2Proof.Machine
end

