-- ==== Sys2Proof/Safety.lean ====
section
/-! DEFINITION. What counts as a safe run, and the terms in which claims about the machine are stated: the invariant of a
state, runs, what an instruction writes and where it stores, and the rules of the spec written out apart from the meanings
(`30_encoding.md` R71 to R90, `40_alu.md`, `41_byteswap.md`, `42_jump.md`, `43_load_store.md`, `44_atomic.md`), in numbers
where the meanings use bit vectors. -/

namespace Sys2Proof.Machine

/-! Runs. -/

/-- What holds of every state of a run: data memory is in its canonical form, and R10 holds `STACK_BASE + STACK_SIZE`
(R22, R48). -/
def State.Inv (s : State) : Prop :=
  s.mem.wf = true ∧ s.fp = s.params.stackBase + BitVec.ofNat 64 s.params.stackSize

/-- The state after `n` steps, where each of them has a next state. -/
def State.after : Nat → State → Option State
  | 0, s => some s
  | n + 1, s =>
    match step s with
    | .next t => State.after n t
    | .fault _ => none
    | .refused _ => none

/-- A safe state: the run has not ended by a fault or a refusal (R262). -/
def State.Safe (s : State) : Prop :=
  s.status = .running ∨ ∃ v, s.status = .exited v

/-- What the environment has to respect for a run to start well (R29, R47, R291): its bytes lie in the regions, and the list
of them is in canonical form. -/
def EntryMemory (p : Params) (mem : Memory) : Prop :=
  mem.wf = true ∧ ∀ a, mem.read a ≠ none → ∃ r ∈ p.allRegions, regionHolds r a = true

/-! Slots and forms. -/

/-- The slot with these fields (R71). -/
def slotOf (opcode : BitVec 8) (dst src : BitVec 4) (off : BitVec 16) (imm : BitVec 32) : Slot :=
  imm ++ off ++ src ++ dst ++ opcode

/-- What a step from `s` answers when the instruction it runs answers `r`: other agents may move after it, if the run goes on
(R55, R293). -/
def Stepped (s : State) (r : Result) : Prop :=
  step s = match r with
    | .next t => .next (if t.status = .running then t.envMove else t)
    | .fault f => .fault f
    | .refused q => .refused q

/-- In every running state that satisfies `ok` and whose fetch gives the slot `w`, a step runs `i`. -/
def RunsWhere (ok : State → Prop) (w : Slot) (i : Instr) : Prop :=
  ∀ s next, s.status = .running → ok s → s.fetchSlots = .ok (w, next) → Stepped s (exec i s)

/-- In every running state that satisfies `ok` and whose fetch gives the slot `w`, a step raises
`IllegalInstruction(pc, w)` (R263). -/
def IllegalWhere (ok : State → Prop) (w : Slot) : Prop :=
  ∀ s next, s.status = .running → ok s → s.fetchSlots = .ok (w, next) → step s = .next (s.raise (.illegalInstruction w))

/-- The slot `w` runs as `i` in every running state. -/
def Runs (w : Slot) (i : Instr) : Prop :=
  RunsWhere (fun _ => True) w i

/-- The slot `w` is illegal in every running state. -/
def Illegal (w : Slot) : Prop :=
  IllegalWhere (fun _ => True) w

/-- Every slot with the opcode byte `b` is illegal. -/
def Reserved (b : BitVec 8) : Prop :=
  ∀ dst src off imm, Illegal (slotOf b dst src off imm)

/-- The index `i` is the first slot of an instruction (R91 step 1): the scan of PROGRAM from index 0. -/
inductive FirstSlotAt (program : List Slot) : Nat → Prop
  | zero : 0 < program.length → FirstSlotAt program 0
  | basic (i : Nat) (w : Slot) : FirstSlotAt program i → program[i]? = some w → w.toNat % 256 ≠ 0x18 →
      i + 1 < program.length → FirstSlotAt program (i + 1)
  | wide (i : Nat) (w : Slot) : FirstSlotAt program i → program[i]? = some w → w.toNat % 256 = 0x18 →
      i + 2 < program.length → FirstSlotAt program (i + 2)

/-- The 116 opcode bytes of the instructions (R84). -/
def instructionBytes : List (BitVec 8) :=
  [
    0x04, 0x0c, 0x07, 0x0f, 0x14, 0x1c, 0x17, 0x1f, 0x24, 0x2c, 0x27, 0x2f, 0x34, 0x3c, 0x37, 0x3f, 0x44, 0x4c, 0x47, 0x4f,
    0x54, 0x5c, 0x57, 0x5f, 0x64, 0x6c, 0x67, 0x6f, 0x74, 0x7c, 0x77, 0x7f, 0x84, 0x8c, 0x87, 0x8f, 0x94, 0x9c, 0x97, 0x9f,
    0xa4, 0xac, 0xa7, 0xaf, 0xb4, 0xbc, 0xb7, 0xbf, 0xc4, 0xcc, 0xc7, 0xcf, 0xd4, 0xdc
  ] ++
  [
    0x05, 0x15, 0x1d, 0x16, 0x1e, 0x25, 0x2d, 0x26, 0x2e, 0x35, 0x3d, 0x36, 0x3e, 0x45, 0x4d, 0x46, 0x4e, 0x55, 0x5d, 0x56,
    0x5e, 0x65, 0x6d, 0x66, 0x6e, 0x75, 0x7d, 0x76, 0x7e, 0x85, 0x95, 0xa5, 0xad, 0xa6, 0xae, 0xb5, 0xbd, 0xb6, 0xbe, 0xc5,
    0xcd, 0xc6, 0xce, 0xd5, 0xdd, 0xd6, 0xde
  ] ++
  [0x18, 0x61, 0x69, 0x71, 0x79, 0x62, 0x6a, 0x72, 0x7a, 0x63, 0x6b, 0x73, 0x7b, 0xc3, 0xdb]

/-- The eight legacy opcode bytes (R256). -/
def legacyBytes : List (BitVec 8) :=
  [0x20, 0x28, 0x30, 0x38, 0x40, 0x48, 0x50, 0x58]

/-- The two forms of an arithmetic instruction (R84, R90): which slots they are, and that a non-zero unused field, a register
field above 10 or `dst` = 10 makes the slot illegal. -/
def AluForms (opK opX : BitVec 8) (mkK : Gpr → BitVec 32 → Instr) (mkX : Gpr → Reg → Instr) : Prop :=
  (∀ dst imm, Runs (slotOf opK dst.num 0 0 imm) (mkK dst imm)) ∧
  (∀ dst src, Runs (slotOf opX dst.num src.num 0 0) (mkX dst src)) ∧
  (∀ dst src off imm, src ≠ 0 ∨ off ≠ 0 ∨ 10 ≤ dst.toNat → Illegal (slotOf opK dst src off imm)) ∧
  ∀ dst src off imm, off ≠ 0 ∨ imm ≠ 0 ∨ 10 ≤ dst.toNat ∨ 10 < src.toNat → Illegal (slotOf opX dst src off imm)

/-- The two forms of `BPF_NEG` under either NEG_READING (R90, R129, R130). -/
def NegForms (opK opX : BitVec 8) (mkK : Gpr → BitVec 32 → Instr) (mkX : Gpr → Reg → Instr) : Prop :=
  (∀ dst imm, RunsWhere (fun s => s.params.negReading = .source ∨ imm = 0) (slotOf opK dst.num 0 0 imm) (mkK dst imm)) ∧
  (∀ dst src, RunsWhere (fun s => s.params.negReading = .source) (slotOf opX dst.num src.num 0 0) (mkX dst src)) ∧
  (∀ dst src off imm, src ≠ 0 ∨ off ≠ 0 ∨ 10 ≤ dst.toNat → Illegal (slotOf opK dst src off imm)) ∧
  (∀ dst src off imm, off ≠ 0 ∨ imm ≠ 0 ∨ 10 ≤ dst.toNat ∨ 10 < src.toNat → Illegal (slotOf opX dst src off imm)) ∧
  (∀ dst src off imm, imm ≠ 0 →
    IllegalWhere (fun s => s.params.negReading = .negateDst) (slotOf opK dst src off imm)) ∧
  ∀ dst src off imm, IllegalWhere (fun s => s.params.negReading = .negateDst) (slotOf opX dst src off imm)

/-- The form of a byte swap (R150). -/
def SwapForm (op : BitVec 8) (width : BitVec 32) (mk : Gpr → Instr) : Prop :=
  (∀ dst, Runs (slotOf op dst.num 0 0 width) (mk dst)) ∧
  ∀ dst src off, src ≠ 0 ∨ off ≠ 0 ∨ 10 ≤ dst.toNat → Illegal (slotOf op dst src off width)

/-- The two forms of a conditional jump (R84, R90): R10 may be read. -/
def JumpForms (opK opX : BitVec 8) (mkK : Reg → BitVec 32 → BitVec 16 → Instr) (mkX : Reg → Reg → BitVec 16 → Instr) :
    Prop :=
  (∀ dst imm off, Runs (slotOf opK dst.num 0 off imm) (mkK dst imm off)) ∧
  (∀ dst src off, Runs (slotOf opX dst.num src.num off 0) (mkX dst src off)) ∧
  (∀ dst src off imm, src ≠ 0 ∨ 10 < dst.toNat → Illegal (slotOf opK dst src off imm)) ∧
  ∀ dst src off imm, imm ≠ 0 ∨ 10 < dst.toNat ∨ 10 < src.toNat → Illegal (slotOf opX dst src off imm)

/-- The form of a load (R90). -/
def LoadForm (op : BitVec 8) (mk : Gpr → Reg → BitVec 16 → Instr) : Prop :=
  (∀ dst src off, Runs (slotOf op dst.num src.num off 0) (mk dst src off)) ∧
  ∀ dst src off imm, imm ≠ 0 ∨ 10 ≤ dst.toNat ∨ 10 < src.toNat → Illegal (slotOf op dst src off imm)

/-- The form of a store of an immediate (R90). -/
def StoreImmForm (op : BitVec 8) (mk : Reg → BitVec 16 → BitVec 32 → Instr) : Prop :=
  (∀ dst off imm, Runs (slotOf op dst.num 0 off imm) (mk dst off imm)) ∧
  ∀ dst src off imm, src ≠ 0 ∨ 10 < dst.toNat → Illegal (slotOf op dst src off imm)

/-- The form of a store of a register (R90). -/
def StoreRegForm (op : BitVec 8) (mk : Reg → Reg → BitVec 16 → Instr) : Prop :=
  (∀ dst src off, Runs (slotOf op dst.num src.num off 0) (mk dst src off)) ∧
  ∀ dst src off imm, imm ≠ 0 ∨ 10 < dst.toNat ∨ 10 < src.toNat → Illegal (slotOf op dst src off imm)

/-- The form of an atomic operation that only reads `src` (R90, R221). -/
def AtomicForm (op : BitVec 8) (sel : BitVec 32) (mk : Reg → Reg → BitVec 16 → Instr) : Prop :=
  (∀ dst src off, Runs (slotOf op dst.num src.num off sel) (mk dst src off)) ∧
  ∀ dst src off, 10 < dst.toNat ∨ 10 < src.toNat → Illegal (slotOf op dst src off sel)

/-- The form of an atomic operation that writes `src` too (R90, R222). -/
def FetchForm (op : BitVec 8) (sel : BitVec 32) (mk : Reg → Gpr → BitVec 16 → Instr) : Prop :=
  (∀ dst src off, Runs (slotOf op dst.num src.num off sel) (mk dst src off)) ∧
  ∀ dst src off, 10 < dst.toNat ∨ 10 ≤ src.toNat → Illegal (slotOf op dst src off sel)

/-! Arithmetic. -/

/-- `s` after `x[dst] <- v` and `pc <- pc + 1`, all else as it was. -/
def State.wrote (s : State) (dst : Gpr) (v : Word) : State :=
  { s with regs := s.regs.set dst v, pc := s.pc + 1 }

/-- The low half of a value as a number, and as 32 bits. -/
def half (v : Word) : BitVec 32 :=
  BitVec.ofNat 32 v.toNat

/-- A 32-bit value in a register: zero above (R111). -/
def wide (v : BitVec 32) : Word :=
  BitVec.ofNat 64 v.toNat

/-- The 64-bit operand that an immediate stands for: its value as a two's complement number (R82). -/
def immediate64 (imm : BitVec 32) : Word :=
  BitVec.ofInt 64 imm.toInt

/-- Both forms of a 64-bit instruction that reads both operands and whose result is `r` (R110, R111, R265, R271). -/
def Alu64Rule (mkK : Gpr → BitVec 32 → Instr) (mkX : Gpr → Reg → Instr) (r : Word → Word → Word) : Prop :=
  ∀ s dst,
    (∀ a, s.regs.get dst = some a →
      (∀ imm, exec (mkK dst imm) s = .next (s.wrote dst (r a (immediate64 imm)))) ∧
      (∀ src b, s.reg src = some b → exec (mkX dst src) s = .next (s.wrote dst (r a b))) ∧
      ∀ src, s.regs.get src = none → exec (mkX dst (.gpr src)) s = .next (s.raise (.uninitRegister src))) ∧
    (s.regs.get dst = none →
      (∀ imm, exec (mkK dst imm) s = .next (s.raise (.uninitRegister dst))) ∧
      ∀ src, exec (mkX dst src) s = .next (s.raise (.uninitRegister dst)))

/-- Both forms of a 32-bit instruction that reads both operands and whose result is `r`. -/
def Alu32Rule (mkK : Gpr → BitVec 32 → Instr) (mkX : Gpr → Reg → Instr) (r : BitVec 32 → BitVec 32 → BitVec 32) : Prop :=
  ∀ s dst,
    (∀ a, s.regs.get dst = some a →
      (∀ imm, exec (mkK dst imm) s = .next (s.wrote dst (wide (r (half a) imm)))) ∧
      (∀ src b, s.reg src = some b → exec (mkX dst src) s = .next (s.wrote dst (wide (r (half a) (half b))))) ∧
      ∀ src, s.regs.get src = none → exec (mkX dst (.gpr src)) s = .next (s.raise (.uninitRegister src))) ∧
    (s.regs.get dst = none →
      (∀ imm, exec (mkK dst imm) s = .next (s.raise (.uninitRegister dst))) ∧
      ∀ src, exec (mkX dst src) s = .next (s.raise (.uninitRegister dst)))

/-- Both forms of a 64-bit instruction that reads the source operand only (`mov`, and `neg` where `ok` holds). -/
def Unary64Rule (ok : State → Prop) (mkK : Gpr → BitVec 32 → Instr) (mkX : Gpr → Reg → Instr) (r : Word → Word) : Prop :=
  ∀ s dst, ok s →
    (∀ imm, exec (mkK dst imm) s = .next (s.wrote dst (r (immediate64 imm)))) ∧
    (∀ src b, s.reg src = some b → exec (mkX dst src) s = .next (s.wrote dst (r b))) ∧
    ∀ src, s.regs.get src = none → exec (mkX dst (.gpr src)) s = .next (s.raise (.uninitRegister src))

/-- Both forms of a 32-bit instruction that reads the source operand only. -/
def Unary32Rule (ok : State → Prop) (mkK : Gpr → BitVec 32 → Instr) (mkX : Gpr → Reg → Instr)
    (r : BitVec 32 → BitVec 32) : Prop :=
  ∀ s dst, ok s →
    (∀ imm, exec (mkK dst imm) s = .next (s.wrote dst (wide (r imm)))) ∧
    (∀ src b, s.reg src = some b → exec (mkX dst src) s = .next (s.wrote dst (wide (r (half b))))) ∧
    ∀ src, s.regs.get src = none → exec (mkX dst (.gpr src)) s = .next (s.raise (.uninitRegister src))

/-- The immediate form of `neg` under NEG_READING = negate_dst: `imm` is zero and the destination is read (R129, R130). -/
def NegateRule (mkK : Gpr → BitVec 32 → Instr) (r : Word → Word) : Prop :=
  ∀ s dst, s.params.negReading = .negateDst →
    (∀ a, s.regs.get dst = some a → exec (mkK dst 0) s = .next (s.wrote dst (r a))) ∧
    (s.regs.get dst = none → exec (mkK dst 0) s = .next (s.raise (.uninitRegister dst)))

/-- The sum of two numbers, modulo 2^w. -/
def sumOf {w : Nat} (a b : BitVec w) : BitVec w := BitVec.ofNat w (a.toNat + b.toNat)

/-- The difference of two numbers, modulo 2^w. -/
def differenceOf {w : Nat} (a b : BitVec w) : BitVec w := BitVec.ofInt w ((a.toNat : Int) - b.toNat)

/-- The product of two numbers, modulo 2^w. -/
def productOf {w : Nat} (a b : BitVec w) : BitVec w := BitVec.ofNat w (a.toNat * b.toNat)

/-- The unsigned quotient, 0 where the divisor is 0. -/
def quotientOf {w : Nat} (a b : BitVec w) : BitVec w :=
  BitVec.ofNat w (if b.toNat = 0 then 0 else a.toNat / b.toNat)

/-- The unsigned remainder, the dividend where the divisor is 0. -/
def remainderOf {w : Nat} (a b : BitVec w) : BitVec w :=
  BitVec.ofNat w (if b.toNat = 0 then a.toNat else a.toNat % b.toNat)

/-- The value whose bit `i` is `f` of the operands' bits `i`. -/
def bitsOf {w : Nat} (f : Bool → Bool → Bool) (a b : BitVec w) : BitVec w :=
  BitVec.ofFnLE fun i : Fin w => f (a.getLsbD i) (b.getLsbD i)

/-- The value whose bits are the other ones: `2^w - 1 - b`. -/
def complementOf {w : Nat} (b : BitVec w) : BitVec w := BitVec.ofInt w (-1 - b.toNat)

/-- The number with the other sign, modulo 2^w. -/
def negationOf {w : Nat} (a : BitVec w) : BitVec w := BitVec.ofInt w (-a.toInt)

/-- `a` times 2^n, modulo 2^w. -/
def leftOf {w : Nat} (a : BitVec w) (n : Nat) : BitVec w := BitVec.ofNat w (a.toNat * 2 ^ n)

/-- `a` as an unsigned number divided by 2^n, rounded down. -/
def rightOf {w : Nat} (a : BitVec w) (n : Nat) : BitVec w := BitVec.ofNat w (a.toNat / 2 ^ n)

/-- `a` as a two's complement number divided by 2^n, rounded down. -/
def signedRightOf {w : Nat} (a : BitVec w) (n : Nat) : BitVec w := BitVec.ofInt w (a.toInt / 2 ^ n)

/-- Both forms of a 64-bit shift (R139). Under SHIFT_MODE = mask the count is taken modulo 64; under draw a count below 64 is
used as it is, and with a count of 64 or more the result is the free value of the state's draw, whatever that is. -/
def Shift64Rule (mkK : Gpr → BitVec 32 → Instr) (mkX : Gpr → Reg → Instr) (r : Word → Nat → Word) : Prop :=
  ∀ s dst,
    (∀ a, s.regs.get dst = some a →
      (∀ imm, exec (mkK dst imm) s = .next (shifted s dst a (immediate64 imm))) ∧
      (∀ src b, s.reg src = some b → exec (mkX dst src) s = .next (shifted s dst a b)) ∧
      ∀ src, s.regs.get src = none → exec (mkX dst (.gpr src)) s = .next (s.raise (.uninitRegister src))) ∧
    (s.regs.get dst = none →
      (∀ imm, exec (mkK dst imm) s = .next (s.raise (.uninitRegister dst))) ∧
      ∀ src, exec (mkX dst src) s = .next (s.raise (.uninitRegister dst)))
where
  /-- The state after the shift of `a` by `b`. -/
  shifted (s : State) (dst : Gpr) (a b : Word) : State :=
    if s.params.shiftMode = .mask then s.wrote dst (r a (b.toNat % 64))
    else if b.toNat < 64 then s.wrote dst (r a b.toNat)
    else { s.wrote dst (Config.draw64 s.draws) with draws := s.draws + 1 }

/-- Both forms of a 32-bit shift (R139). -/
def Shift32Rule (mkK : Gpr → BitVec 32 → Instr) (mkX : Gpr → Reg → Instr) (r : BitVec 32 → Nat → BitVec 32) : Prop :=
  ∀ s dst,
    (∀ a, s.regs.get dst = some a →
      (∀ imm, exec (mkK dst imm) s = .next (shifted s dst (half a) imm)) ∧
      (∀ src b, s.reg src = some b → exec (mkX dst src) s = .next (shifted s dst (half a) (half b))) ∧
      ∀ src, s.regs.get src = none → exec (mkX dst (.gpr src)) s = .next (s.raise (.uninitRegister src))) ∧
    (s.regs.get dst = none →
      (∀ imm, exec (mkK dst imm) s = .next (s.raise (.uninitRegister dst))) ∧
      ∀ src, exec (mkX dst src) s = .next (s.raise (.uninitRegister dst)))
where
  /-- The state after the shift of `a` by `b`. -/
  shifted (s : State) (dst : Gpr) (a b : BitVec 32) : State :=
    if s.params.shiftMode = .mask then s.wrote dst (wide (r a (b.toNat % 32)))
    else if b.toNat < 32 then s.wrote dst (wide (r a b.toNat))
    else { s.wrote dst (wide (Config.draw32 s.draws)) with draws := s.draws + 1 }

/-- A byte swap of the low `n` bytes towards `target` (R158): byte `i` of the result is byte `i` of the operand where the host
has that order, byte `n - 1 - i` where it has the other, and zero above. -/
def SwapRule (target : Endian) (n : Nat) (mk : Gpr → Instr) : Prop :=
  ∀ s dst,
    (∀ v, s.regs.get dst = some v → ∃ r : Word, exec (mk dst) s = .next (s.wrote dst r) ∧
      ∀ i, i < 8 → r.extractLsb' (8 * i) 8 =
        if n ≤ i then 0
        else if target = s.params.hostEndian then v.extractLsb' (8 * i) 8
        else v.extractLsb' (8 * (n - 1 - i)) 8) ∧
    (s.regs.get dst = none → exec (mk dst) s = .next (s.raise (.uninitRegister dst)))

/-! Jumps. -/

/-- `s` with `pc` at `p + 1`, or, where the jump is taken, at `p + 1 + s(off)` (R160); all else as it was. -/
def State.jumped (s : State) (taken : Bool) (off : BitVec 16) : State :=
  { s with pc := s.pc + 1 + if taken then off.toInt else 0 }

/-- Both forms of a 64-bit conditional jump that is taken where `c` holds (R160, R161). -/
def Jump64Rule (mkK : Reg → BitVec 32 → BitVec 16 → Instr) (mkX : Reg → Reg → BitVec 16 → Instr)
    (c : Word → Word → Bool) : Prop :=
  ∀ s off,
    (∀ dst a, s.reg dst = some a →
      (∀ imm, exec (mkK dst imm off) s = .next (s.jumped (c a (immediate64 imm)) off)) ∧
      (∀ src b, s.reg src = some b → exec (mkX dst src off) s = .next (s.jumped (c a b) off)) ∧
      ∀ src, s.regs.get src = none → exec (mkX dst (.gpr src) off) s = .next (s.raise (.uninitRegister src))) ∧
    ∀ dst, s.regs.get dst = none →
      (∀ imm, exec (mkK (.gpr dst) imm off) s = .next (s.raise (.uninitRegister dst))) ∧
      ∀ src, exec (mkX (.gpr dst) src off) s = .next (s.raise (.uninitRegister dst))

/-- Both forms of a 32-bit conditional jump that is taken where `c` holds of the low halves. -/
def Jump32Rule (mkK : Reg → BitVec 32 → BitVec 16 → Instr) (mkX : Reg → Reg → BitVec 16 → Instr)
    (c : BitVec 32 → BitVec 32 → Bool) : Prop :=
  ∀ s off,
    (∀ dst a, s.reg dst = some a →
      (∀ imm, exec (mkK dst imm off) s = .next (s.jumped (c (half a) imm) off)) ∧
      (∀ src b, s.reg src = some b → exec (mkX dst src off) s = .next (s.jumped (c (half a) (half b)) off)) ∧
      ∀ src, s.regs.get src = none → exec (mkX dst (.gpr src) off) s = .next (s.raise (.uninitRegister src))) ∧
    ∀ dst, s.regs.get dst = none →
      (∀ imm, exec (mkK (.gpr dst) imm off) s = .next (s.raise (.uninitRegister dst))) ∧
      ∀ src, exec (mkX (.gpr dst) src off) s = .next (s.raise (.uninitRegister dst))

/-- All bits alike. -/
def equalTo {w : Nat} (a b : BitVec w) : Bool := decide (a.toNat = b.toNat)

/-- Some bit is set in both. -/
def commonBit {w : Nat} (a b : BitVec w) : Bool := (List.finRange w).any fun i => a.getLsbD i && b.getLsbD i

/-- Below, as unsigned numbers. -/
def below {w : Nat} (a b : BitVec w) : Bool := decide (a.toNat < b.toNat)

/-- Below, as two's complement numbers. -/
def signedBelow {w : Nat} (a b : BitVec w) : Bool := decide (a.toInt < b.toInt)

/-! Memory accesses. -/

/-- The access of `n` bytes at `a` is permitted (R47): one region holds all the bytes, without wrap, and has the rights. -/
def Permitted (p : Params) (a n : Nat) (k : AccessKind) : Prop :=
  a + n ≤ 2 ^ 64 ∧ ∃ r ∈ p.allRegions, r.base.toNat ≤ a ∧ a + n ≤ r.base.toNat + r.length ∧
    (k ≠ .write → r.readable = true) ∧ (k ≠ .read → r.writable = true)

/-- The `n` bytes from `a` on all hold a value: `bs`, in address order. -/
def State.Holds (s : State) (a n : Nat) (bs : List Byte) : Prop :=
  bs.length = n ∧ ∀ i, i < n → s.mem.read (a + i) = bs[i]?

/-- `x` is the lowest of the `n` bytes from `a` on that holds no value. -/
def State.LowestEmpty (s : State) (a n x : Nat) : Prop :=
  a ≤ x ∧ x < a + n ∧ s.mem.read x = none ∧ ∀ y, a ≤ y → y < x → s.mem.read y ≠ none

/-- The number that bytes at rising addresses stand for (R45). -/
def numberOf (e : Endian) (bs : List Byte) : Nat :=
  match e with
  | .little => bs.foldr (fun b v => b.toNat + 256 * v) 0
  | .big => bs.foldl (fun v b => 256 * v + b.toNat) 0

/-- The byte at offset `i` of an `n`-byte number in memory (R46). -/
def byteOf (e : Endian) (n v i : Nat) : Byte :=
  match e with
  | .little => BitVec.ofNat 8 (v / 256 ^ i)
  | .big => BitVec.ofNat 8 (v / 256 ^ (n - 1 - i))

/-- `t` is `s` after the low `n` bytes of the number `v` were stored at `a` and `pc` moved on by one; every other byte and
all else is as it was. -/
def Stored (s t : State) (a n v : Nat) : Prop :=
  t = { s with mem := t.mem, pc := s.pc + 1 } ∧
  ∀ x, t.mem.read x = if a ≤ x ∧ x < a + n then some (byteOf s.params.hostEndian n v (x - a)) else s.mem.read x

/-- `s` after `k` moves of other agents (R55). -/
def State.moved (s : State) : Nat → State
  | 0 => s
  | k + 1 => (s.moved k).envMove

/-- The state in which byte `i` of a regular access of `n` bytes at `a` is accessed (R51): `s`, where the access is aligned; else
other agents have moved `i` times. -/
def State.atByte (s : State) (a n i : Nat) : State :=
  if a % n = 0 then s else s.moved i

/-- A regular load of `n` bytes at `a` finds the bytes `bs`, in address order, each where its turn comes (R45, R51). -/
def State.Finds (s : State) (a n : Nat) (bs : List Byte) : Prop :=
  bs.length = n ∧ ∀ i, i < n → (s.atByte a n i).mem.read (a + i) = bs[i]?

/-- `x` is the lowest byte of a regular load of `n` bytes at `a` that holds no value when its turn comes (R45, R51, R265). -/
def State.Misses (s : State) (a n x : Nat) : Prop :=
  ∃ i, i < n ∧ x = a + i ∧ (s.atByte a n i).mem.read x = none ∧
    ∀ j, j < i → (s.atByte a n j).mem.read (a + j) ≠ none

/-- `t` is `s` after a misaligned store of the low `n` bytes of `v` at `a` (R46, R51): one byte after the other is set, other
agents move between two of them, and `pc` moves on by one. -/
def TornStored (s t : State) (a n v : Nat) : Prop :=
  ∃ u : Nat → State, u 0 = s ∧
    (∀ i, i + 1 < n → u (i + 1) = ((u i).setByte (a + i) (byteOf s.params.hostEndian n v i)).envMove) ∧
    t = { (u (n - 1)).setByte (a + (n - 1)) (byteOf s.params.hostEndian n v (n - 1)) with pc := s.pc + 1 }

/-- `t` is `s` after a regular store of the low `n` bytes of `v` at `a`: what the store leaves where no other agent acts within
it (it is aligned, or ENV_STEP is the identity), and byte by byte where it is misaligned. -/
def RegularStored (s t : State) (a n v : Nat) : Prop :=
  (a % n = 0 ∨ s.params.envStep = none → Stored s t a n v) ∧ (a % n ≠ 0 → TornStored s t a n v)

/-- The access is allowed and aligned as far as it has to be (R47, R49, R244). -/
def State.Allowed (s : State) (a n : Nat) (k : AccessKind) : Prop :=
  Permitted s.params a n k ∧ (a % n = 0 ∨ (k ≠ .atomic ∧ s.params.alignStrict = false))

/-- The MemFaults of an access of `n` bytes at `ea` by the instruction `i` (R47, R49, R244, R267): the region first, then the
alignment. -/
def AccessFaults (i : Instr) (s : State) (ea : Word) (n : Nat) (k : AccessKind) : Prop :=
  (¬ Permitted s.params ea.toNat n k → exec i s = .next (s.raise (.memFault ea n k.fault))) ∧
  (Permitted s.params ea.toNat n k → ea.toNat % n ≠ 0 → k = .atomic ∨ s.params.alignStrict = true →
    exec i s = .next (s.raise (.memFault ea n .misaligned)))

/-- A load of `n` bytes (R200, R201 to R204, R213). -/
def LoadRule (n : Nat) (mk : Gpr → Reg → BitVec 16 → Instr) : Prop :=
  ∀ s dst off,
    (∀ src, s.regs.get src = none → exec (mk dst (.gpr src) off) s = .next (s.raise (.uninitRegister src))) ∧
    ∀ src base, s.reg src = some base →
      let ea := effectiveAddress base off
      AccessFaults (mk dst src off) s ea n .read ∧
      (s.Allowed ea.toNat n .read →
        (∀ x, s.Misses ea.toNat n x → exec (mk dst src off) s = .next (s.raise (.uninitByte x))) ∧
        ∀ bs, s.Finds ea.toNat n bs → exec (mk dst src off) s =
          .next ((s.atByte ea.toNat n (n - 1)).wrote dst (BitVec.ofNat 64 (numberOf s.params.hostEndian bs))))

/-- A store of the low `n` bytes of a sign-extended immediate (R200, R205 to R208, R213). -/
def StoreImmRule (n : Nat) (mk : Reg → BitVec 16 → BitVec 32 → Instr) : Prop :=
  ∀ s off imm,
    (∀ dst, s.regs.get dst = none → exec (mk (.gpr dst) off imm) s = .next (s.raise (.uninitRegister dst))) ∧
    ∀ dst base, s.reg dst = some base →
      let ea := effectiveAddress base off
      AccessFaults (mk dst off imm) s ea n .write ∧
      (s.Allowed ea.toNat n .write →
        ∃ t, exec (mk dst off imm) s = .next t ∧ RegularStored s t ea.toNat n (immediate64 imm).toNat)

/-- A store of the low `n` bytes of a register (R200, R209 to R212, R213); the base is read first (R271). -/
def StoreRegRule (n : Nat) (mk : Reg → Reg → BitVec 16 → Instr) : Prop :=
  ∀ s off,
    (∀ dst src, s.regs.get dst = none → exec (mk (.gpr dst) src off) s = .next (s.raise (.uninitRegister dst))) ∧
    ∀ dst base, s.reg dst = some base →
      (∀ src, s.regs.get src = none → exec (mk dst (.gpr src) off) s = .next (s.raise (.uninitRegister src))) ∧
      ∀ src v, s.reg src = some v →
        let ea := effectiveAddress base off
        AccessFaults (mk dst src off) s ea n .write ∧
        (s.Allowed ea.toNat n .write →
          ∃ t, exec (mk dst src off) s = .next t ∧ RegularStored s t ea.toNat n v.toNat)

/-- The register faults, the MemFaults and the byte fault of an atomic operation of `n` bytes that reads `dst`, then `src`
(R244, R265, R271). -/
def AtomicFaults (n : Nat) (mk : Reg → Reg → BitVec 16 → Instr) (s : State) (off : BitVec 16) : Prop :=
  (∀ dst src, s.regs.get dst = none → exec (mk (.gpr dst) src off) s = .next (s.raise (.uninitRegister dst))) ∧
  ∀ dst base, s.reg dst = some base →
    (∀ src, s.regs.get src = none → exec (mk dst (.gpr src) off) s = .next (s.raise (.uninitRegister src))) ∧
    ∀ src v, s.reg src = some v →
      let ea := effectiveAddress base off
      AccessFaults (mk dst src off) s ea n .atomic ∧
      (s.Allowed ea.toNat n .atomic → ∀ x, s.LowestEmpty ea.toNat n x →
        exec (mk dst src off) s = .next (s.raise (.uninitByte x)))

/-- An atomic operation of `n` bytes that stores `f old operand` and writes no register (R221, R245). -/
def AtomicRule (n : Nat) (mk : Reg → Reg → BitVec 16 → Instr) (f : Nat → Nat → Nat) : Prop :=
  ∀ s off, AtomicFaults n mk s off ∧
    ∀ dst src base v bs, s.reg dst = some base → s.reg src = some v →
      let a := (effectiveAddress base off).toNat
      s.Allowed a n .atomic → s.Holds a n bs →
        ∃ t, exec (mk dst src off) s = .next t ∧ Stored s t a n (f (numberOf s.params.hostEndian bs) v.toNat)

/-- The same where `src` takes the old value, zero-extended (R222): the register operands are read before any is written. -/
def FetchRule (n : Nat) (mk : Reg → Gpr → BitVec 16 → Instr) (f : Nat → Nat → Nat) : Prop :=
  ∀ s off,
    (∀ dst src, s.regs.get dst = none → exec (mk (.gpr dst) src off) s = .next (s.raise (.uninitRegister dst))) ∧
    ∀ dst base, s.reg dst = some base →
      (∀ src, s.regs.get src = none → exec (mk dst src off) s = .next (s.raise (.uninitRegister src))) ∧
      ∀ src v, s.regs.get src = some v →
        let ea := effectiveAddress base off
        AccessFaults (mk dst src off) s ea n .atomic ∧
        (s.Allowed ea.toNat n .atomic →
          (∀ x, s.LowestEmpty ea.toNat n x → exec (mk dst src off) s = .next (s.raise (.uninitByte x))) ∧
          ∀ bs, s.Holds ea.toNat n bs →
            let old := numberOf s.params.hostEndian bs
            ∃ t, exec (mk dst src off) s = .next (t.setReg src (BitVec.ofNat 64 old)) ∧
              Stored s t ea.toNat n (f old v.toNat))

/-- The compare and exchange of `n` bytes (R241, R242, R244, R245): R0 is compared and takes the old value, zero-extended;
memory changes only on a match. -/
def CompareExchangeRule (n : Nat) (mk : Reg → Reg → BitVec 16 → Instr) : Prop :=
  ∀ s off,
    (∀ dst src, s.regs.get dst = none → exec (mk (.gpr dst) src off) s = .next (s.raise (.uninitRegister dst))) ∧
    ∀ dst base, s.reg dst = some base →
      (∀ src, s.regs.get src = none → exec (mk dst (.gpr src) off) s = .next (s.raise (.uninitRegister src))) ∧
      ∀ src v, s.reg src = some v →
        (s.regs.get .r0 = none → exec (mk dst src off) s = .next (s.raise (.uninitRegister .r0))) ∧
        ∀ c, s.regs.get .r0 = some c →
          let ea := effectiveAddress base off
          AccessFaults (mk dst src off) s ea n .atomic ∧
          (s.Allowed ea.toNat n .atomic →
            (∀ x, s.LowestEmpty ea.toNat n x → exec (mk dst src off) s = .next (s.raise (.uninitByte x))) ∧
            ∀ bs, s.Holds ea.toNat n bs →
              let old := numberOf s.params.hostEndian bs
              (old = c.toNat % 256 ^ n →
                ∃ t, exec (mk dst src off) s = .next (t.setReg .r0 (BitVec.ofNat 64 old)) ∧ Stored s t ea.toNat n v.toNat) ∧
              (old ≠ c.toNat % 256 ^ n → exec (mk dst src off) s = .next (s.wrote .r0 (BitVec.ofNat 64 old))))

/-! Calls and other agents. -/

/-- The byte lies in a shared region and in no region that is not shared (R55; log 13). -/
def OnlyShared (p : Params) (x : Nat) : Prop :=
  (∃ r ∈ p.allRegions, r.shared = true ∧ regionHolds r x = true) ∧
  ∀ r ∈ p.allRegions, regionHolds r x = true → r.shared = true

/-- The last value that a list of bytes gives for the address `x`. -/
def lastOf (cells : List Host.Cell) (x : Nat) : Option Byte :=
  ((cells.filter fun c => c.1 = x).getLast?).map fun c => c.2

/-- A relation relates `a` to `b`: they are one of its pairs, or, where it is given by name alone, `free` says so. -/
def Relates {α β : Type} (r : Relation α β) (free : Nat → α → Option (Nat → β)) (a : α) (b : β) : Prop :=
  match r with
  | .listed pairs => (a, b) ∈ pairs
  | .unknown name => ∃ g n, free name a = some g ∧ g n = b

/-- `f(args, Mem, ret, Mem')` for the function of an entry of HELPERS (R185). -/
def CallAllows (h : Helper) (args : List Word) (mem : Memory) (ret : Word) (after : List Host.Cell) : Prop :=
  Relates h.function (fun name a => Config.helperAnswers name a.1 a.2) (args, mem) (ret, after)

/-- ENV_STEP allows the shared bytes `after` where they were `before` (R57). -/
def EnvAllows (e : EnvStep) (before after : List Host.Cell) : Prop :=
  Relates e Config.envOutcomes before after

/-- The byte at `x` that `after` gives: the last value listed for it, no value where none is or where `x` is no address. -/
def byteAfter (after : List Host.Cell) (x : Nat) : Option Byte :=
  if x < 2 ^ 64 then lastOf after x else none

/-- Data memory `k` is `m` after a step of other agents that leaves the shared bytes `after` (R55, R57). -/
def SharedBecame (p : Params) (m k : Memory) (after : List Host.Cell) : Prop :=
  (∀ x, OnlyShared p x → k.read x = byteAfter after x) ∧ ∀ x, ¬ OnlyShared p x → k.read x = m.read x

/-- Data memory after any number of steps of ENV_STEP, none or several (R55, R293). -/
inductive EnvReaches (p : Params) (e : EnvStep) : Memory → Memory → Prop
  | none (m : Memory) : EnvReaches p e m m
  | one (m k l : Memory) (after : List Host.Cell) : EnvAllows e (m.sharedPart p) after → SharedBecame p m k after →
      EnvReaches p e k l → EnvReaches p e m l

/-- A value in a 64-bit register, zero above. -/
def zeroExtended {w : Nat} (v : BitVec w) : Word :=
  BitVec.ofNat 64 v.toNat

/-- `r` is the lowest of the `k` argument registers that holds no value (R185, R271). -/
def FirstMissingArgument (s : State) (k : Fin 6) (r : Gpr) : Prop :=
  ∃ j, j < k.val ∧ [Gpr.r1, .r2, .r3, .r4, .r5][j]? = some r ∧ s.regs.get r = none ∧
    ∀ i g, i < j → [Gpr.r1, .r2, .r3, .r4, .r5][i]? = some g → s.regs.get g ≠ none

/-- The `k` argument registers all hold a value: `args`, in order (R185). -/
def ArgumentsOf (s : State) (k : Fin 6) (args : List Word) : Prop :=
  args.length = k.val ∧
    ∀ j r, j < k.val → [Gpr.r1, .r2, .r3, .r4, .r5][j]? = some r → s.regs.get r = args[j]?

/-- The address of a byte of the stack (R48). -/
def InStack (p : Params) (x : Nat) : Prop :=
  p.stackBase.toNat ≤ x ∧ x < p.stackBase.toNat + p.stackSize

/-- `t` is `s` after a function called with `args` returned `ret` and left data memory as `after` gives it, the stack apart
where no argument points into it (R185, R187; log 9). -/
def Returned (s t : State) (args : List Word) (ret : Word) (after : List Host.Cell) : Prop :=
  t = { s with
    mem := t.mem
    regs := { s.regs with r0 := some ret, r1 := none, r2 := none, r3 := none, r4 := none, r5 := none }
    pc := s.pc + 1
    callChoices := (s.callChoices.next Config.callChoice).2 } ∧
  (∀ x, (∃ v ∈ args, InStack s.params v.toNat) ∨ ¬ InStack s.params x → t.mem.read x = byteAfter after x) ∧
  ∀ x, (∀ v ∈ args, ¬ InStack s.params v.toNat) → InStack s.params x → t.mem.read x = s.mem.read x

/-! What an instruction writes, and where it stores. -/
/-- The registers that an instruction writes (the table of `10_state.md` section 11). -/
def writes (i : Instr) : List Gpr :=
  match i with
  | .add32K dst _ | .add32X dst _ | .sub32K dst _ | .sub32X dst _ | .mul32K dst _ | .mul32X dst _ | .div32K dst _ |
  .div32X dst _ | .or32K dst _ | .or32X dst _ | .and32K dst _ | .and32X dst _ | .lsh32K dst _ | .lsh32X dst _ |
  .rsh32K dst _ | .rsh32X dst _ | .neg32K dst _ | .neg32X dst _ | .mod32K dst _ | .mod32X dst _ | .xor32K dst _ |
  .xor32X dst _ | .mov32K dst _ | .mov32X dst _ | .arsh32K dst _ | .arsh32X dst _ | .le16 dst | .le32 dst | .le64 dst
  | .be16 dst | .be32 dst | .be64 dst | .add64K dst _ | .add64X dst _ | .sub64K dst _ | .sub64X dst _ | .mul64K dst _
  | .mul64X dst _ | .div64K dst _ | .div64X dst _ | .or64K dst _ | .or64X dst _ | .and64K dst _ | .and64X dst _ |
  .lsh64K dst _ | .lsh64X dst _ | .rsh64K dst _ | .rsh64X dst _ | .neg64K dst _ | .neg64X dst _ | .mod64K dst _ |
  .mod64X dst _ | .xor64K dst _ | .xor64X dst _ | .mov64K dst _ | .mov64X dst _ | .arsh64K dst _ | .arsh64X dst _ |
  .ldxw dst _ _ | .ldxh dst _ _ | .ldxb dst _ _ | .ldxdw dst _ _ | .lddw dst _ => [dst]
  | .ja _ | .jeqK _ _ _ | .jeqX _ _ _ | .jgtK _ _ _ | .jgtX _ _ _ | .jgeK _ _ _ | .jgeX _ _ _ | .jsetK _ _ _ |
  .jsetX _ _ _ | .jneK _ _ _ | .jneX _ _ _ | .jsgtK _ _ _ | .jsgtX _ _ _ | .jsgeK _ _ _ | .jsgeX _ _ _ | .jltK _ _ _ |
  .jltX _ _ _ | .jleK _ _ _ | .jleX _ _ _ | .jsltK _ _ _ | .jsltX _ _ _ | .jsleK _ _ _ | .jsleX _ _ _ | .exit |
  .jeq32K _ _ _ | .jeq32X _ _ _ | .jgt32K _ _ _ | .jgt32X _ _ _ | .jge32K _ _ _ | .jge32X _ _ _ | .jset32K _ _ _ |
  .jset32X _ _ _ | .jne32K _ _ _ | .jne32X _ _ _ | .jsgt32K _ _ _ | .jsgt32X _ _ _ | .jsge32K _ _ _ | .jsge32X _ _ _ |
  .jlt32K _ _ _ | .jlt32X _ _ _ | .jle32K _ _ _ | .jle32X _ _ _ | .jslt32K _ _ _ | .jslt32X _ _ _ | .jsle32K _ _ _ |
  .jsle32X _ _ _ | .stw _ _ _ | .sth _ _ _ | .stb _ _ _ | .stdw _ _ _ | .stxw _ _ _ | .stxh _ _ _ | .stxb _ _ _ |
  .stxdw _ _ _ | .aadd32 _ _ _ | .aor32 _ _ _ | .aand32 _ _ _ | .axor32 _ _ _ | .aadd64 _ _ _ | .aor64 _ _ _ |
  .aand64 _ _ _ | .axor64 _ _ _ | .ldabs _ _ _ _ _ | .ldind _ _ _ _ _ => []
  | .call _ => [.r0, .r1, .r2, .r3, .r4, .r5]
  | .afadd32 _ src _ | .afor32 _ src _ | .afand32 _ src _ | .afxor32 _ src _ | .afadd64 _ src _ | .afor64 _ src _ |
  .afand64 _ src _ | .afxor64 _ src _ | .axchg32 _ src _ | .axchg64 _ src _ => [src]
  | .acmpxchg32 _ _ _ | .acmpxchg64 _ _ _ => [.r0]

/-- The address and the number of the bytes that an instruction stores to in the state `s`; none where it stores nothing. A
called function's memory effect is its own (R185) and is not in it. -/
def storesTo (i : Instr) (s : State) : Option (Word × Nat) :=
  match i with
  | .add32K _ _ | .add32X _ _ | .sub32K _ _ | .sub32X _ _ | .mul32K _ _ | .mul32X _ _ | .div32K _ _ | .div32X _ _ |
  .or32K _ _ | .or32X _ _ | .and32K _ _ | .and32X _ _ | .lsh32K _ _ | .lsh32X _ _ | .rsh32K _ _ | .rsh32X _ _ |
  .neg32K _ _ | .neg32X _ _ | .mod32K _ _ | .mod32X _ _ | .xor32K _ _ | .xor32X _ _ | .mov32K _ _ | .mov32X _ _ |
  .arsh32K _ _ | .arsh32X _ _ | .le16 _ | .le32 _ | .le64 _ | .be16 _ | .be32 _ | .be64 _ | .add64K _ _ | .add64X _ _
  | .sub64K _ _ | .sub64X _ _ | .mul64K _ _ | .mul64X _ _ | .div64K _ _ | .div64X _ _ | .or64K _ _ | .or64X _ _ |
  .and64K _ _ | .and64X _ _ | .lsh64K _ _ | .lsh64X _ _ | .rsh64K _ _ | .rsh64X _ _ | .neg64K _ _ | .neg64X _ _ |
  .mod64K _ _ | .mod64X _ _ | .xor64K _ _ | .xor64X _ _ | .mov64K _ _ | .mov64X _ _ | .arsh64K _ _ | .arsh64X _ _ |
  .ja _ | .jeqK _ _ _ | .jeqX _ _ _ | .jgtK _ _ _ | .jgtX _ _ _ | .jgeK _ _ _ | .jgeX _ _ _ | .jsetK _ _ _ |
  .jsetX _ _ _ | .jneK _ _ _ | .jneX _ _ _ | .jsgtK _ _ _ | .jsgtX _ _ _ | .jsgeK _ _ _ | .jsgeX _ _ _ | .jltK _ _ _ |
  .jltX _ _ _ | .jleK _ _ _ | .jleX _ _ _ | .jsltK _ _ _ | .jsltX _ _ _ | .jsleK _ _ _ | .jsleX _ _ _ | .call _ |
  .exit | .jeq32K _ _ _ | .jeq32X _ _ _ | .jgt32K _ _ _ | .jgt32X _ _ _ | .jge32K _ _ _ | .jge32X _ _ _ |
  .jset32K _ _ _ | .jset32X _ _ _ | .jne32K _ _ _ | .jne32X _ _ _ | .jsgt32K _ _ _ | .jsgt32X _ _ _ | .jsge32K _ _ _ |
  .jsge32X _ _ _ | .jlt32K _ _ _ | .jlt32X _ _ _ | .jle32K _ _ _ | .jle32X _ _ _ | .jslt32K _ _ _ | .jslt32X _ _ _ |
  .jsle32K _ _ _ | .jsle32X _ _ _ | .ldxw _ _ _ | .ldxh _ _ _ | .ldxb _ _ _ | .ldxdw _ _ _ | .lddw _ _ |
  .ldabs _ _ _ _ _ | .ldind _ _ _ _ _ =>
    none
  | .stw dst off _ | .stxw dst _ off | .aadd32 dst _ off | .afadd32 dst _ off | .aor32 dst _ off | .afor32 dst _ off |
  .aand32 dst _ off | .afand32 dst _ off | .axor32 dst _ off | .afxor32 dst _ off | .axchg32 dst _ off |
  .acmpxchg32 dst _ off =>
    (s.reg dst).map fun base => (effectiveAddress base off, 4)
  | .sth dst off _ | .stxh dst _ off =>
    (s.reg dst).map fun base => (effectiveAddress base off, 2)
  | .stb dst off _ | .stxb dst _ off =>
    (s.reg dst).map fun base => (effectiveAddress base off, 1)
  | .stdw dst off _ | .stxdw dst _ off | .aadd64 dst _ off | .afadd64 dst _ off | .aor64 dst _ off | .afor64 dst _ off
  | .aand64 dst _ off | .afand64 dst _ off | .axor64 dst _ off | .afxor64 dst _ off | .axchg64 dst _ off |
  .acmpxchg64 dst _ off =>
    (s.reg dst).map fun base => (effectiveAddress base off, 8)

/-- The shifts, whose results may be free values (R139). -/
def isShift (i : Instr) : Bool :=
  match i with
  | .lsh32K .. | .lsh32X .. | .rsh32K .. | .rsh32X .. | .arsh32K .. | .arsh32X .. | .lsh64K .. | .lsh64X .. |
  .rsh64K .. | .rsh64X .. | .arsh64K .. | .arsh64X .. => true
  | .add32K .. | .add32X .. | .sub32K .. | .sub32X .. | .mul32K .. | .mul32X .. | .div32K .. | .div32X .. | .or32K ..
  | .or32X .. | .and32K .. | .and32X .. | .neg32K .. | .neg32X .. | .mod32K .. | .mod32X .. | .xor32K .. | .xor32X ..
  | .mov32K .. | .mov32X .. | .le16 .. | .le32 .. | .le64 .. | .be16 .. | .be32 .. | .be64 .. | .add64K .. |
  .add64X .. | .sub64K .. | .sub64X .. | .mul64K .. | .mul64X .. | .div64K .. | .div64X .. | .or64K .. | .or64X .. |
  .and64K .. | .and64X .. | .neg64K .. | .neg64X .. | .mod64K .. | .mod64X .. | .xor64K .. | .xor64X .. | .mov64K .. |
  .mov64X .. | .ja .. | .jeqK .. | .jeqX .. | .jgtK .. | .jgtX .. | .jgeK .. | .jgeX .. | .jsetK .. | .jsetX .. |
  .jneK .. | .jneX .. | .jsgtK .. | .jsgtX .. | .jsgeK .. | .jsgeX .. | .jltK .. | .jltX .. | .jleK .. | .jleX .. |
  .jsltK .. | .jsltX .. | .jsleK .. | .jsleX .. | .call .. | .exit | .jeq32K .. | .jeq32X .. | .jgt32K .. | .jgt32X ..
  | .jge32K .. | .jge32X .. | .jset32K .. | .jset32X .. | .jne32K .. | .jne32X .. | .jsgt32K .. | .jsgt32X .. |
  .jsge32K .. | .jsge32X .. | .jlt32K .. | .jlt32X .. | .jle32K .. | .jle32X .. | .jslt32K .. | .jslt32X .. |
  .jsle32K .. | .jsle32X .. | .ldxw .. | .ldxh .. | .ldxb .. | .ldxdw .. | .stw .. | .sth .. | .stb .. | .stdw .. |
  .stxw .. | .stxh .. | .stxb .. | .stxdw .. | .aadd32 .. | .afadd32 .. | .aor32 .. | .afor32 .. | .aand32 .. |
  .afand32 .. | .axor32 .. | .afxor32 .. | .aadd64 .. | .afadd64 .. | .aor64 .. | .afor64 .. | .aand64 .. |
  .afand64 .. | .axor64 .. | .afxor64 .. | .axchg32 .. | .axchg64 .. | .acmpxchg32 .. | .acmpxchg64 .. | .lddw .. |
  .ldabs .. | .ldind .. => false

/-- The byte at `x` is none of those that the instruction stores to. -/
def OutsideStores (i : Instr) (s : State) (x : Nat) : Prop :=
  ∀ ea n, storesTo i s = some (ea, n) → x < ea.toNat ∨ ea.toNat + n ≤ x

/-- Two states, with memory in canonical form, that differ at most in bytes of memory that lie in no readable region and that
other agents do not share: what ENV_STEP allows may depend on every shared byte (R57). -/
def SameToProgram (s t : State) : Prop :=
  t = { s with mem := t.mem } ∧ s.mem.wf = true ∧ t.mem.wf = true ∧
  (∀ x, (∃ r ∈ s.params.allRegions, r.readable = true ∧ regionHolds r x = true) → s.mem.read x = t.mem.read x) ∧
  ∀ x, OnlyShared s.params x → s.mem.read x = t.mem.read x

end Sys2Proof.Machine
end

