-- ==== Sys2Proof/Certificates/Slice0/Obligations.lean ====
section
/-! DEFINITION. The statements for the provers, from the numbered rules of the spec. `Sys2Proof/Safety.lean` holds the terms
they are made of. -/

open Sys2Proof Sys2Proof.Machine

/-- Add64, add32, sub64, sub32: forms, results and faults (R113, R114, R115, R116). -/
def Obligations.AddAndSubtract : Prop :=
  AluForms 0x07 0x0f .add64K .add64X ∧ Alu64Rule .add64K .add64X sumOf ∧
  AluForms 0x04 0x0c .add32K .add32X ∧ Alu32Rule .add32K .add32X sumOf ∧
  AluForms 0x17 0x1f .sub64K .sub64X ∧ Alu64Rule .sub64K .sub64X differenceOf ∧
  AluForms 0x14 0x1c .sub32K .sub32X ∧ Alu32Rule .sub32K .sub32X differenceOf

/-- Mul64, mul32: forms, results and faults (R117, R118). -/
def Obligations.Multiply : Prop :=
  AluForms 0x27 0x2f .mul64K .mul64X ∧ Alu64Rule .mul64K .mul64X productOf ∧
  AluForms 0x24 0x2c .mul32K .mul32X ∧ Alu32Rule .mul32K .mul32X productOf

/-- Div64, div32, mod64, mod32: unsigned, with the defined results for divisor 0 (R119, R120, R131, R132). -/
def Obligations.DivideAndModulo : Prop :=
  AluForms 0x37 0x3f .div64K .div64X ∧ Alu64Rule .div64K .div64X quotientOf ∧
  AluForms 0x34 0x3c .div32K .div32X ∧ Alu32Rule .div32K .div32X quotientOf ∧
  AluForms 0x97 0x9f .mod64K .mod64X ∧ Alu64Rule .mod64K .mod64X remainderOf ∧
  AluForms 0x94 0x9c .mod32K .mod32X ∧ Alu32Rule .mod32K .mod32X remainderOf

/-- Or, and, xor at both widths: bit by bit (R121, R122, R123, R124, R133, R134). -/
def Obligations.BitwiseOperations : Prop :=
  AluForms 0x47 0x4f .or64K .or64X ∧ Alu64Rule .or64K .or64X (bitsOf fun x y => x || y) ∧
  AluForms 0x44 0x4c .or32K .or32X ∧ Alu32Rule .or32K .or32X (bitsOf fun x y => x || y) ∧
  AluForms 0x57 0x5f .and64K .and64X ∧ Alu64Rule .and64K .and64X (bitsOf fun x y => x && y) ∧
  AluForms 0x54 0x5c .and32K .and32X ∧ Alu32Rule .and32K .and32X (bitsOf fun x y => x && y) ∧
  AluForms 0xa7 0xaf .xor64K .xor64X ∧ Alu64Rule .xor64K .xor64X (bitsOf fun x y => x != y) ∧
  AluForms 0xa4 0xac .xor32K .xor32X ∧ Alu32Rule .xor32K .xor32X (bitsOf fun x y => x != y)

/-- Lsh, rsh, arsh at both widths, under either SHIFT_MODE (R125, R126, R127, R128, R137, R138, R139).
The clause on a draw is the MODEL's choice of form (log 12, DESIGN CHOICE), which no rule states: the free value is the opaque
constant `Config.draw64` or `Config.draw32` at the state's counter, which moves on by one; it holds whatever the value is. -/
def Obligations.Shifts : Prop :=
  AluForms 0x67 0x6f .lsh64K .lsh64X ∧ Shift64Rule .lsh64K .lsh64X leftOf ∧
  AluForms 0x64 0x6c .lsh32K .lsh32X ∧ Shift32Rule .lsh32K .lsh32X leftOf ∧
  AluForms 0x77 0x7f .rsh64K .rsh64X ∧ Shift64Rule .rsh64K .rsh64X rightOf ∧
  AluForms 0x74 0x7c .rsh32K .rsh32X ∧ Shift32Rule .rsh32K .rsh32X rightOf ∧
  AluForms 0xc7 0xcf .arsh64K .arsh64X ∧ Shift64Rule .arsh64K .arsh64X signedRightOf ∧
  AluForms 0xc4 0xcc .arsh32K .arsh32X ∧ Shift32Rule .arsh32K .arsh32X signedRightOf

/-- Neg64, neg32 under NEG_READING = source and negate_dst (R129, R130). -/
def Obligations.NegateUnderBothReadings : Prop :=
  NegForms 0x87 0x8f .neg64K .neg64X ∧ NegForms 0x84 0x8c .neg32K .neg32X ∧
  Unary64Rule (fun s => s.params.negReading = .source) .neg64K .neg64X complementOf ∧
  Unary32Rule (fun s => s.params.negReading = .source) .neg32K .neg32X complementOf ∧
  NegateRule .neg64K negationOf ∧
  NegateRule .neg32K fun a => wide (negationOf (half a))

/-- Mov64, mov32: the source operand, with the destination not read (R135, R136). -/
def Obligations.Move : Prop :=
  AluForms 0xb7 0xbf .mov64K .mov64X ∧ Unary64Rule (fun _ => True) .mov64K .mov64X id ∧
  AluForms 0xb4 0xbc .mov32K .mov32X ∧ Unary32Rule (fun _ => True) .mov32K .mov32X id

/-- Le16 to be64: bytes in the target order, zero above (R151, R152, R153, R154, R155, R156, R158). -/
def Obligations.ByteSwaps : Prop :=
  SwapForm 0xd4 16 .le16 ∧ SwapRule .little 2 .le16 ∧ SwapForm 0xd4 32 .le32 ∧ SwapRule .little 4 .le32 ∧
  SwapForm 0xd4 64 .le64 ∧ SwapRule .little 8 .le64 ∧ SwapForm 0xdc 16 .be16 ∧ SwapRule .big 2 .be16 ∧
  SwapForm 0xdc 32 .be32 ∧ SwapRule .big 4 .be32 ∧ SwapForm 0xdc 64 .be64 ∧ SwapRule .big 8 .be64 ∧
  ∀ dst src off imm, imm ∉ [16#32, 32#32, 64#32] →
    Illegal (slotOf 0xd4 dst src off imm) ∧ Illegal (slotOf 0xdc dst src off imm)

/-- Byte swaps of another width, and in class BPF_ALU64, are illegal (R157). -/
def Obligations.SwapReservedForms : Prop :=
  (∀ dst src off imm, imm ∉ [16#32, 32#32, 64#32] →
    Illegal (slotOf 0xd4 dst src off imm) ∧ Illegal (slotOf 0xdc dst src off imm)) ∧
  Reserved 0xd7 ∧ Reserved 0xdf

/-- A byte swap applied twice truncates (R151, R152, R153, R154, R155, R156). -/
def Obligations.SwapTwice : Prop :=
  ∀ mk n, (mk, n) ∈ [(Instr.le16, 2), (Instr.le32, 4), (Instr.le64, 8), (Instr.be16, 2), (Instr.be32, 4), (Instr.be64, 8)] →
    ∀ s dst v, s.regs.get dst = some v → ∃ t, exec (mk dst) s = .next t ∧
      exec (mk dst) t = .next { s with
        regs := s.regs.set dst (BitVec.ofNat 64 (v.toNat % 256 ^ n))
        pc := s.pc + 2 }

/-- Ja (R162). -/
def Obligations.JumpAlways : Prop :=
  (∀ off, Runs (slotOf 0x05 0 0 off 0) (.ja off)) ∧
  (∀ dst src off imm, dst ≠ 0 ∨ src ≠ 0 ∨ imm ≠ 0 → Illegal (slotOf 0x05 dst src off imm)) ∧
  Reserved 0x0d ∧ Reserved 0x06 ∧ Reserved 0x0e ∧
  ∀ s off, exec (.ja off) s = .next { s with pc := s.pc + 1 + off.toInt }

/-- Jeq, jne, jset at both widths (R163, R164, R169, R170, R171, R172). -/
def Obligations.JumpsOnEqualityAndBits : Prop :=
  JumpForms 0x15 0x1d .jeqK .jeqX ∧ Jump64Rule .jeqK .jeqX equalTo ∧
  JumpForms 0x16 0x1e .jeq32K .jeq32X ∧ Jump32Rule .jeq32K .jeq32X equalTo ∧
  JumpForms 0x55 0x5d .jneK .jneX ∧ Jump64Rule .jneK .jneX (fun a b => !equalTo a b) ∧
  JumpForms 0x56 0x5e .jne32K .jne32X ∧ Jump32Rule .jne32K .jne32X (fun a b => !equalTo a b) ∧
  JumpForms 0x45 0x4d .jsetK .jsetX ∧ Jump64Rule .jsetK .jsetX commonBit ∧
  JumpForms 0x46 0x4e .jset32K .jset32X ∧ Jump32Rule .jset32K .jset32X commonBit

/-- Jgt, jge, jlt, jle at both widths: unsigned order (R165, R166, R167, R168, R177, R178, R179, R180). -/
def Obligations.UnsignedJumps : Prop :=
  JumpForms 0x25 0x2d .jgtK .jgtX ∧ Jump64Rule .jgtK .jgtX (fun a b => below b a) ∧
  JumpForms 0x26 0x2e .jgt32K .jgt32X ∧ Jump32Rule .jgt32K .jgt32X (fun a b => below b a) ∧
  JumpForms 0x35 0x3d .jgeK .jgeX ∧ Jump64Rule .jgeK .jgeX (fun a b => !below a b) ∧
  JumpForms 0x36 0x3e .jge32K .jge32X ∧ Jump32Rule .jge32K .jge32X (fun a b => !below a b) ∧
  JumpForms 0xa5 0xad .jltK .jltX ∧ Jump64Rule .jltK .jltX below ∧
  JumpForms 0xa6 0xae .jlt32K .jlt32X ∧ Jump32Rule .jlt32K .jlt32X below ∧
  JumpForms 0xb5 0xbd .jleK .jleX ∧ Jump64Rule .jleK .jleX (fun a b => !below b a) ∧
  JumpForms 0xb6 0xbe .jle32K .jle32X ∧ Jump32Rule .jle32K .jle32X (fun a b => !below b a)

/-- Jsgt, jsge, jslt, jsle at both widths: signed order (R173, R174, R175, R176, R181, R182, R183, R184). -/
def Obligations.SignedJumps : Prop :=
  JumpForms 0x65 0x6d .jsgtK .jsgtX ∧ Jump64Rule .jsgtK .jsgtX (fun a b => signedBelow b a) ∧
  JumpForms 0x66 0x6e .jsgt32K .jsgt32X ∧ Jump32Rule .jsgt32K .jsgt32X (fun a b => signedBelow b a) ∧
  JumpForms 0x75 0x7d .jsgeK .jsgeX ∧ Jump64Rule .jsgeK .jsgeX (fun a b => !signedBelow a b) ∧
  JumpForms 0x76 0x7e .jsge32K .jsge32X ∧ Jump32Rule .jsge32K .jsge32X (fun a b => !signedBelow a b) ∧
  JumpForms 0xc5 0xcd .jsltK .jsltX ∧ Jump64Rule .jsltK .jsltX signedBelow ∧
  JumpForms 0xc6 0xce .jslt32K .jslt32X ∧ Jump32Rule .jslt32K .jslt32X signedBelow ∧
  JumpForms 0xd5 0xdd .jsleK .jsleX ∧ Jump64Rule .jsleK .jsleX (fun a b => !signedBelow b a) ∧
  JumpForms 0xd6 0xde .jsle32K .jsle32X ∧ Jump32Rule .jsle32K .jsle32X (fun a b => !signedBelow b a)

/-- The reserved jump bytes and the reserved BPF_IMM bytes are illegal (R188, R252). -/
def Obligations.ReservedOpcodeBytes : Prop :=
  (∀ b ∈ [0x06, 0x0e, 0x96, 0x9e, 0x86, 0x8e, 0x0d, 0x8d, 0x9d, 0xe5, 0xed, 0xf5, 0xfd, 0xe6, 0xee, 0xf6, 0xfe],
    Reserved b) ∧
  (∀ b ∈ [0x00, 0x08, 0x10, 0x01, 0x02, 0x03, 0x09, 0x0a, 0x0b, 0x11, 0x12, 0x13, 0x19, 0x1a, 0x1b], Reserved b) ∧
  Illegal 0

/-- An opcode byte outside the tables of R84 is illegal (R84, R85). -/
def Obligations.OnlyListedOpcodes : Prop :=
  ∀ b, b ∉ instructionBytes → b ∉ legacyBytes → Reserved b

/-- Call: the environment's function as one step (R185, R187, R268). The MODEL's choices, which no rule states: the source of
choices that picks one of the answers the function allows (log 8), and what a pointer into the stack is (log 9). -/
def Obligations.CallRunsAFunction : Prop :=
  (∀ imm, Runs (slotOf 0x85 0 0 0 imm) (.call imm)) ∧
  (∀ dst src off imm, dst ≠ 0 ∨ src ≠ 0 ∨ off ≠ 0 → Illegal (slotOf 0x85 dst src off imm)) ∧
  Reserved 0x8d ∧ Reserved 0x86 ∧ Reserved 0x8e ∧
  ∀ s imm,
    ((∀ h ∈ s.params.helpers, h.number ≠ imm) → exec (.call imm) s = .next (s.raise (.callFault imm.toNat))) ∧
    ∀ before h later, s.params.helpers = before ++ h :: later → h.number = imm → (∀ g ∈ before, g.number ≠ imm) →
      (∀ r, FirstMissingArgument s h.arity r → exec (.call imm) s = .next (s.raise (.uninitRegister r))) ∧
      ∀ args, ArgumentsOf s h.arity args →
        ((∀ ret after, ¬ CallAllows h args s.mem ret after) →
          exec (.call imm) s = .next (s.raise (.callFault imm.toNat))) ∧
        ((∃ ret after, CallAllows h args s.mem ret after) →
          ∃ ret after t, CallAllows h args s.mem ret after ∧ exec (.call imm) s = .next t ∧ Returned s t args ret after) ∧
        ∀ ret after, CallAllows h args s.mem ret after → ∃ n, ∀ rest,
          let u := { s with callChoices := { s.callChoices with given := n :: rest } }
          ∃ t, exec (.call imm) u = .next t ∧ Returned u t args ret after

/-- What a call leaves in the registers, and of the stack (R187, R185, R21). That a pointer into the stack is an argument that is
the address of one of its bytes is the MODEL's reading (log 9). -/
def Obligations.CallingConvention : Prop :=
  ∀ s imm t, s.status = .running → exec (.call imm) s = .next t → t.status = .running →
    t.reg (.gpr .r0) ≠ none ∧ (∀ r ∈ [Gpr.r1, .r2, .r3, .r4, .r5], t.reg (.gpr r) = none) ∧
    (∀ r ∈ [Reg.gpr .r6, .gpr .r7, .gpr .r8, .gpr .r9, .r10], t.reg r = s.reg r) ∧
    t.pc = s.pc + 1 ∧ t.program = s.program ∧ t.params = s.params ∧ t.envMoves = s.envMoves ∧
    ∀ before h later args, s.params.helpers = before ++ h :: later → h.number = imm → (∀ g ∈ before, g.number ≠ imm) →
      ArgumentsOf s h.arity args → (∀ v ∈ args, ¬ InStack s.params v.toNat) →
      ∀ x, InStack s.params x → t.mem.read x = s.mem.read x

/-- Exit: the run ends with the value of R0 (R186, R280). That the step which is not taken after it answers the fault `runEnded`
is the MODEL's choice (log 5). -/
def Obligations.ExitEndsTheRun : Prop :=
  Runs 0x0000000000000095 .exit ∧
  (∀ dst src off imm, dst ≠ 0 ∨ src ≠ 0 ∨ off ≠ 0 ∨ imm ≠ 0 → Illegal (slotOf 0x95 dst src off imm)) ∧
  Reserved 0x9d ∧ Reserved 0x96 ∧ Reserved 0x9e ∧
  ∀ s,
    (∀ v, s.regs.get .r0 = some v → exec .exit s = .next { s with status := .exited v } ∧
      step { s with status := .exited v } = .fault .runEnded) ∧
    (s.regs.get .r0 = none → exec .exit s = .next (s.raise (.uninitRegister .r0)))

/-- Ldxb, ldxh, ldxw, ldxdw (R201, R202, R203, R204; R51, R55 for a misaligned one). That other agents make one move, of any number
of steps of ENV_STEP, between two bytes of a misaligned load, and how that meets its checks, is the MODEL's choice (log 10,
log 11). -/
def Obligations.Loads : Prop :=
  LoadForm 0x71 .ldxb ∧ LoadRule 1 .ldxb ∧ LoadForm 0x69 .ldxh ∧ LoadRule 2 .ldxh ∧
  LoadForm 0x61 .ldxw ∧ LoadRule 4 .ldxw ∧ LoadForm 0x79 .ldxdw ∧ LoadRule 8 .ldxdw

/-- Stb, sth, stw, stdw (R205, R206, R207, R208; R51, R55 for a misaligned one). That other agents make one move, of any number of
steps of ENV_STEP, between two bytes of a misaligned store (`TornStored`) is the MODEL's choice (log 10, log 11). -/
def Obligations.StoresOfImmediates : Prop :=
  StoreImmForm 0x72 .stb ∧ StoreImmRule 1 .stb ∧ StoreImmForm 0x6a .sth ∧ StoreImmRule 2 .sth ∧
  StoreImmForm 0x62 .stw ∧ StoreImmRule 4 .stw ∧ StoreImmForm 0x7a .stdw ∧ StoreImmRule 8 .stdw

/-- Stxb, stxh, stxw, stxdw (R209, R210, R211, R212; R51, R55 for a misaligned one). That other agents make one move, of any number
of steps of ENV_STEP, between two bytes of a misaligned store (`TornStored`) is the MODEL's choice (log 10, log 11). -/
def Obligations.StoresOfRegisters : Prop :=
  StoreRegForm 0x73 .stxb ∧ StoreRegRule 1 .stxb ∧ StoreRegForm 0x6b .stxh ∧ StoreRegRule 2 .stxh ∧
  StoreRegForm 0x63 .stxw ∧ StoreRegRule 4 .stxw ∧ StoreRegForm 0x7b .stxdw ∧ StoreRegRule 8 .stxdw

/-- Aadd32, afadd32, aadd64, afadd64 (R223, R224, R231, R232). -/
def Obligations.AtomicAdd : Prop :=
  AtomicForm 0xc3 0x00 .aadd32 ∧ AtomicRule 4 .aadd32 (fun old v => old + v) ∧
  FetchForm 0xc3 0x01 .afadd32 ∧ FetchRule 4 .afadd32 (fun old v => old + v) ∧
  AtomicForm 0xdb 0x00 .aadd64 ∧ AtomicRule 8 .aadd64 (fun old v => old + v) ∧
  FetchForm 0xdb 0x01 .afadd64 ∧ FetchRule 8 .afadd64 (fun old v => old + v)

/-- Aor32, aand32, axor32 and their fetch forms (R225, R226, R227, R228, R229, R230). -/
def Obligations.AtomicBitwise32 : Prop :=
  AtomicForm 0xc3 0x40 .aor32 ∧ AtomicRule 4 .aor32 (fun old v => old ||| v) ∧
  FetchForm 0xc3 0x41 .afor32 ∧ FetchRule 4 .afor32 (fun old v => old ||| v) ∧
  AtomicForm 0xc3 0x50 .aand32 ∧ AtomicRule 4 .aand32 (fun old v => old &&& v) ∧
  FetchForm 0xc3 0x51 .afand32 ∧ FetchRule 4 .afand32 (fun old v => old &&& v) ∧
  AtomicForm 0xc3 0xa0 .axor32 ∧ AtomicRule 4 .axor32 (fun old v => old ^^^ v) ∧
  FetchForm 0xc3 0xa1 .afxor32 ∧ FetchRule 4 .afxor32 (fun old v => old ^^^ v)

/-- Aor64, aand64, axor64 and their fetch forms (R233, R234, R235, R236, R237, R238). -/
def Obligations.AtomicBitwise64 : Prop :=
  AtomicForm 0xdb 0x40 .aor64 ∧ AtomicRule 8 .aor64 (fun old v => old ||| v) ∧
  FetchForm 0xdb 0x41 .afor64 ∧ FetchRule 8 .afor64 (fun old v => old ||| v) ∧
  AtomicForm 0xdb 0x50 .aand64 ∧ AtomicRule 8 .aand64 (fun old v => old &&& v) ∧
  FetchForm 0xdb 0x51 .afand64 ∧ FetchRule 8 .afand64 (fun old v => old &&& v) ∧
  AtomicForm 0xdb 0xa0 .axor64 ∧ AtomicRule 8 .axor64 (fun old v => old ^^^ v) ∧
  FetchForm 0xdb 0xa1 .afxor64 ∧ FetchRule 8 .afxor64 (fun old v => old ^^^ v)

/-- Axchg32, axchg64 (R239, R240). -/
def Obligations.AtomicExchange : Prop :=
  FetchForm 0xc3 0xe1 .axchg32 ∧ FetchRule 4 .axchg32 (fun _ v => v) ∧
  FetchForm 0xdb 0xe1 .axchg64 ∧ FetchRule 8 .axchg64 (fun _ v => v)

/-- Acmpxchg32, acmpxchg64 (R241, R242). -/
def Obligations.AtomicCompareExchange : Prop :=
  AtomicForm 0xc3 0xf1 .acmpxchg32 ∧ CompareExchangeRule 4 .acmpxchg32 ∧
  AtomicForm 0xdb 0xf1 .acmpxchg64 ∧ CompareExchangeRule 8 .acmpxchg64

/-- Atomic selectors that are not listed, and other atomic bytes, are illegal (R243). -/
def Obligations.AtomicReservedForms : Prop :=
  (∀ dst src off imm,
    imm ∉ [0x00#32, 0x01#32, 0x40#32, 0x41#32, 0x50#32, 0x51#32, 0xa0#32, 0xa1#32, 0xe1#32, 0xf1#32] →
    Illegal (slotOf 0xc3 dst src off imm) ∧ Illegal (slotOf 0xdb dst src off imm)) ∧
  Reserved 0xd3 ∧ Reserved 0xcb ∧
  ∀ b ∈ [0xc0, 0xc8, 0xd0, 0xd8, 0xc1, 0xc9, 0xd1, 0xd9, 0xc2, 0xca, 0xd2, 0xda], Reserved b

/-- Lddw under both layouts (R250, R253). -/
def Obligations.WideLoad : Prop :=
  (∀ s dst imm64, exec (.lddw dst imm64) s = .next { s with
    regs := s.regs.set dst imm64
    pc := s.pc + 2 }) ∧
  (∀ s dst w1, s.status = .running → s.params.wideImm = .source →
    s.fetchSlots = .ok (slotOf 0x18 dst.num 0 0 0, some w1) → Stepped s (exec (.lddw dst w1) s)) ∧
  (∀ s dst (lo hi : BitVec 32), s.status = .running → s.params.wideImm = .split32 →
    s.fetchSlots = .ok (slotOf 0x18 dst.num 0 0 lo, some (hi ++ 0#32)) → Stepped s (exec (.lddw dst (hi ++ lo)) s)) ∧
  (∀ dst src off imm, src ≠ 0 ∨ off ≠ 0 ∨ 10 ≤ dst.toNat → Illegal (slotOf 0x18 dst src off imm)) ∧
  (∀ dst src off imm, imm ≠ 0 → IllegalWhere (fun s => s.params.wideImm = .source) (slotOf 0x18 dst src off imm)) ∧
  (∀ s w, s.status = .running → s.fetchSlots = .ok (w, none) → w.toNat % 256 = 0x18 →
    step s = .next (s.raise (.illegalInstruction w))) ∧
  ∀ s w w1, s.status = .running → s.params.wideImm = .split32 → s.fetchSlots = .ok (w, some w1) → w.toNat % 256 = 0x18 →
    w1.toNat % 2 ^ 32 ≠ 0 → step s = .next (s.raise (.illegalInstruction w))

/-- Pc on the second slot of a wide instruction raises PcFault (R251, R266). -/
def Obligations.SecondSlotIsNoInstruction : Prop :=
  ∀ (s : State) (i : Nat) w, s.status = .running → FirstSlotAt s.program i → s.program[i]? = some w →
    w.toNat % 256 = 0x18 → s.pc = (i : Int) + 1 →
    step s = .next (s.raise .pcFault)

/-- Ldabs, ldind: refused, whatever their other fields are (R255, R256). -/
def Obligations.LegacyIsRefused : Prop :=
  (∀ s w next, s.status = .running → s.fetchSlots = .ok (w, next) → w.extractLsb' 0 8 ∈ legacyBytes →
    step s = .refused (.legacyPacketAccess s.pc)) ∧
  (∀ size dst src off imm s, exec (.ldabs size dst src off imm) s = .refused (.legacyPacketAccess s.pc)) ∧
  (∀ size dst src off imm s, exec (.ldind size dst src off imm) s = .refused (.legacyPacketAccess s.pc)) ∧
  ∀ b ∈ [0x21, 0x22, 0x23, 0x29, 0x2a, 0x2b, 0x31, 0x32, 0x33, 0x39, 0x3a, 0x3b, 0x41, 0x42, 0x43, 0x49, 0x4a, 0x4b, 0x51,
    0x52, 0x53, 0x59, 0x5a, 0x5b], Reserved b

/-- A step fetches at first slots only, else PcFault (R266). -/
def Obligations.FetchAtFirstSlots : Prop :=
  ∀ s : State, s.status = .running →
    (∀ i : Nat, s.pc = (i : Int) → FirstSlotAt s.program i →
      ∃ w, s.program[i]? = some w ∧ s.fetchSlots = .ok (w, s.program[i + 1]?)) ∧
    ((∀ i : Nat, s.pc = (i : Int) → ¬ FirstSlotAt s.program i) → step s = .next (s.raise .pcFault)) ∧
    (s.pc < 0 ∨ (s.program.length : Int) ≤ s.pc → step s = .next (s.raise .pcFault))

/-- A step runs the instruction that its slots decode to (R91, R263, R293). -/
def Obligations.StepRunsDecoded : Prop :=
  ∀ s w next, s.status = .running → s.fetchSlots = .ok (w, next) →
    (∀ i, decode s.params w next = .ok i → Stepped s (exec i s)) ∧
    ∀ e, decode s.params w next = .error e → step s = .next (s.raise (.illegalInstruction w))

/-- A run that has ended takes no step (R272, R273, R280). That the step answers the fault `runEnded` is the MODEL's choice
(log 5). -/
def Obligations.EndedRunTakesNoStep : Prop :=
  ∀ s, s.status ≠ .running → step s = .fault .runEnded

/-- A raised fault changes the run status and nothing else (R272). That the step which is not taken after it answers the fault
`runEnded` is the MODEL's choice (log 5). -/
def Obligations.FaultsArePrecise : Prop :=
  ∀ s t f p, s.status = .running → step s = .next t → t.status = .faulted f p →
    p = s.pc ∧ t = { s with status := .faulted f s.pc } ∧ step t = .fault .runEnded

/-- A running state always has a step, but for the legacy bytes (R262, R264, R281). -/
def Obligations.RunningStepsAnswer : Prop :=
  ∀ s, s.status = .running → (∃ t, step s = .next t) ∨
    (step s = .refused (.legacyPacketAccess s.pc) ∧
      ∃ w, s.program[s.pc.toNat]? = some w ∧ w.extractLsb' 0 8 ∈ legacyBytes)

/-- A run ends normally only by exit, with the value of R0 (R294, R280, R262). -/
def Obligations.OnlyExitEndsNormally : Prop :=
  ∀ s t v, s.status = .running → step s = .next t → t.status = .exited v →
    s.fetch = .ok .exit ∧ s.regs.get .r0 = some v ∧ t = { s with status := .exited v }

/-- The checks of a regular and of an atomic access, in order (R47, R49, R244, R267). -/
def Obligations.AccessChecks : Prop :=
  ∀ (s : State) ea n k strict,
    (s.checkAccess ea n k strict = .ok () ↔
      Permitted s.params ea.toNat n k ∧ (strict = true → ea.toNat % n = 0)) ∧
    (s.checkAccess ea n k strict = .error (.memFault ea n k.fault) ↔ ¬ Permitted s.params ea.toNat n k) ∧
    (s.checkAccess ea n k strict = .error (.memFault ea n .misaligned) ↔
      Permitted s.params ea.toNat n k ∧ strict = true ∧ ea.toNat % n ≠ 0)

/-- Narrow reads of an eight byte write see its bytes (R60). -/
def Obligations.MixedWidthAccesses : Prop :=
  ∀ (s t : State) (a v : Word), a.toNat % 8 = 0 → Permitted s.params a.toNat 8 .read → s.memWrite a 8 v = .ok t →
    (s.params.hostEndian = .little →
      t.memRead a 1 = .ok (zeroExtended (v.extractLsb' 0 8), t) ∧
      t.memRead (a + 6) 2 = .ok (zeroExtended (v.extractLsb' 48 16), t) ∧
      t.memRead (a + 4) 4 = .ok (zeroExtended (v.extractLsb' 32 32), t)) ∧
    (s.params.hostEndian = .big →
      t.memRead a 1 = .ok (zeroExtended (v.extractLsb' 56 8), t) ∧
      t.memRead (a + 6) 2 = .ok (zeroExtended (v.extractLsb' 0 16), t) ∧
      t.memRead (a + 4) 4 = .ok (zeroExtended (v.extractLsb' 0 32), t))

/-- A move of other agents changes shared bytes only, by steps that ENV_STEP allows (R2, R55, R57, R293). The MODEL's choices,
which no rule states: the source of choices (log 10), and that a byte of a shared and of an unshared region does not move
(log 13). -/
def Obligations.OtherAgentsMoveSharedBytes : Prop :=
  ∀ s : State,
    s.envMove = { s with mem := s.envMove.mem, envMoves := s.envMove.envMoves } ∧
    (s.params.envStep = none → s.envMove = s) ∧
    (∀ x, ¬ OnlyShared s.params x → s.envMove.mem.read x = s.mem.read x) ∧
    ∀ e, s.params.envStep = some e →
      EnvReaches s.params e s.mem s.envMove.mem ∧
      (∀ rest, s.envMoves.given = [] :: rest → s.envMove.mem = s.mem) ∧
      ∀ after, EnvAllows e (s.mem.sharedPart s.params) after → ∃ n, ∀ rest,
        let u := { s with envMoves := { s.envMoves with given := [n] :: rest } }
        SharedBecame s.params s.mem u.envMove.mem after

/-- A register write is read back and leaves the others (R20, R22, R30). -/
def Obligations.RegisterFile : Prop :=
  ∀ (s : State) r v q,
    ((s.setReg r v).reg q = if q = .gpr r then some v else s.reg q) ∧
    (∀ w, s.readReg q = .ok w ↔ s.reg q = some w) ∧
    (∀ g, s.readReg q = .error (.uninitRegister g) ↔ q = .gpr g ∧ s.regs.get g = none)

/-- The effective address is the base plus the signed offset, modulo 2^64 (R41, R81). -/
def Obligations.EffectiveAddress : Prop :=
  ∀ (base : Word) (off : BitVec 16), effectiveAddress base off = BitVec.ofInt 64 (base.toNat + off.toInt)

/-- The state at program entry (R31). -/
def Obligations.EntryState : Prop :=
  ∀ p program mem answers moves,
    let s := State.entry p program mem answers moves
    s.pc = 0 ∧ (∀ r ∈ [Gpr.r0, .r6, .r7, .r8, .r9], s.reg (.gpr r) = none) ∧
    (∀ k r, (k, r) ∈ [(0, Gpr.r1), (1, .r2), (2, .r3), (3, .r4), (4, .r5)] → s.reg (.gpr r) = p.entryArgs[k]?) ∧
    s.reg .r10 = some (BitVec.ofNat 64 (p.stackBase.toNat + p.stackSize)) ∧
    (∀ x, p.stackBase.toNat ≤ x → x < p.stackBase.toNat + p.stackSize → s.mem.read x = none) ∧
    (∀ x, x < p.stackBase.toNat ∨ p.stackBase.toNat + p.stackSize ≤ x → s.mem.read x = mem.read x) ∧
    s.status = .running ∧ s.program = program ∧ s.params = p

/-- The state after reset (R290, R31, R2). -/
def Obligations.ResetState : Prop :=
  State.reset.pc = 0 ∧ State.reset.status = .running ∧ (∀ r, State.reset.regs.get r = none) ∧
    (∀ x, State.reset.mem.read x = none) ∧ State.reset.reg .r10 = some 0x10200#64 ∧ State.reset.program = []

/-- The invariant holds after reset and at every entry (R31, R48). -/
def Obligations.ResetHasInvariant : Prop :=
  State.reset.Inv ∧ ∀ p program mem answers moves, mem.wf = true → (State.entry p program mem answers moves).Inv

/-- Every step keeps the invariant (R22, R40, R48). -/
def Obligations.StepKeepsInvariant : Prop :=
  ∀ s t : State, s.Inv → step s = .next t → t.Inv

/-- R10, PROGRAM and the parameters never change (R22, R29, R58, R48). -/
def Obligations.FixedForTheWholeRun : Prop :=
  ∀ n s t, State.after n s = some t → t.fp = s.fp ∧ t.program = s.program ∧ t.params = s.params

/-- Decoding an encoded instruction gives it back (R71, R79, R84, R90, R253). -/
def Obligations.DecodeOfEncode : Prop :=
  ∀ p i next, i.wellFormed p = true → ∃ w rest, encode p i = w :: rest ∧ decode p w (rest.head?.or next) = .ok i

/-- An instruction's slots are the only ones that decode to it (R71, R72, R83, R85, R90). -/
def Obligations.EncodeOfDecode : Prop :=
  ∀ p w next i, decode p w next = .ok i → encode p i = w :: if w.toNat % 256 = 0x18 then next.toList else []

/-- What decodes is well-formed (R90, R91). -/
def Obligations.DecodedIsWellFormed : Prop :=
  ∀ p w next i, decode p w next = .ok i → i.wellFormed p = true

/-- Slots of the spec's examples decode to their instructions (R113, R136, R154, R163, R185, R202, R224, R250). -/
def Obligations.WrittenWordsDecode : Prop :=
  decode Params.default 0x000000000000210f none = .ok (.add64X .r1 (.gpr .r2)) ∧
    decode Params.default 0xffffffff000001b4 none = .ok (.mov32K .r1 0xffffffff) ∧
    decode Params.default 0x00000010000001dc none = .ok (.be16 .r1) ∧
    decode Params.default 0xffffffff00050115 none = .ok (.jeqK (.gpr .r1) 0xffffffff 5) ∧
    decode Params.default 0x0000000700000085 none = .ok (.call 7) ∧
    decode Params.default 0x00000000fff8a069 none = .ok (.ldxh .r0 .r10 0xfff8) ∧
    decode Params.default 0x00000001fff81ac3 none = .ok (.afadd32 .r10 .r1 0xfff8) ∧
    decode Params.default 0x0000000000000118 (some 0x1122334455667788) = .ok (.lddw .r1 0x1122334455667788)

/-- The bytes of program text on a little-endian host (R87). -/
def Obligations.ProgramBytes : Prop :=
  (∀ program : List Slot, programOfBytes (program.flatMap slotBytes) = some program) ∧
  ∀ opcode dst src off imm, slotBytes (slotOf opcode dst src off imm) =
    [opcode, src ++ dst, off.extractLsb' 0 8, off.extractLsb' 8 8, imm.extractLsb' 0 8, imm.extractLsb' 8 8,
      imm.extractLsb' 16 8, imm.extractLsb' 24 8]

/-- A word placed where the machine fetches is what the next step runs (R91, R290). -/
def Obligations.PlacedWordRuns : Prop :=
  ∀ (s : State) nbits w,
    (∃ program, s.withFetchWord nbits w = { s with program := program, pc := s.pc.toNat, status := .running }) ∧
    ∀ i, decode s.params (BitVec.ofNat 64 (w % 2 ^ nbits)) (some (BitVec.ofNat 64 (w % 2 ^ nbits / 2 ^ 64))) = .ok i →
      Stepped (s.withFetchWord nbits w) (exec i (s.withFetchWord nbits w))

/-- Which registers and other state an instruction leaves alone (R111, R161, R187, R222, R26). -/
def Obligations.RegisterFrame : Prop :=
  ∀ i s t, exec i s = .next t →
    (∀ r, r ∉ writes i → t.regs.get r = s.regs.get r) ∧ t.fp = s.fp ∧ t.program = s.program ∧ t.params = s.params ∧
    ((∀ imm, i ≠ .call imm) → t.callChoices = s.callChoices) ∧
    (isShift i = false → t.draws = s.draws) ∧
    (t.status = s.status ∨ (∃ f, t.status = .faulted f s.pc) ∨ (i = .exit ∧ ∃ v, t.status = .exited v))

/-- Which bytes an instruction leaves alone (R46, R55, R112, R200, R272). -/
def Obligations.MemoryFrame : Prop :=
  ∀ i s t, (∀ imm, i ≠ .call imm) → exec i s = .next t →
    ∀ x, OutsideStores i s x → (s.params.alignStrict = true ∨ s.params.envStep = none ∨ ¬ OnlyShared s.params x) →
      t.mem.read x = s.mem.read x

/-- Bytes outside every writable region never change (R47, R54, R55, R275). -/
def Obligations.WritesOnlyWhereAllowed : Prop :=
  ∀ n s t, s.params.helpers = [] → State.after n s = some t →
    ∀ x, (∀ r ∈ s.params.allRegions, r.writable = true → regionHolds r x = false) → ¬ OnlyShared s.params x →
      t.mem.read x = s.mem.read x

/-- Bytes outside every readable region that other agents do not share have no influence (R47, R54, R275, R57). -/
def Obligations.ReadsOnlyWhereAllowed : Prop :=
  ∀ n s s' t, s.params.helpers = [] → SameToProgram s s' → State.after n s = some t →
    ∃ t', State.after n s' = some t' ∧ SameToProgram t t'
end

