-- ==== Sys2Proof/Laws/Bytes.lean ====
section
/-! SUPPORT. Bytes of a value and the value of bytes. -/

namespace Sys2Proof.Machine

@[simp] theorem bytesLE_length (n v : Nat) : (bytesLE n v).length = n := by
  induction n generalizing v with
  | zero => rfl
  | succ n ih => simp [bytesLE, ih]

@[simp] theorem hostOrder_length (e : Endian) (bs : List Byte) : (hostOrder e bs).length = bs.length := by
  cases e <;> simp [hostOrder]

@[simp] theorem bytesOfValue_length (e : Endian) (n : Nat) (v : Word) : (bytesOfValue e n v).length = n := by
  simp [bytesOfValue]

@[simp] theorem hostOrder_hostOrder (e : Endian) (bs : List Byte) : hostOrder e (hostOrder e bs) = bs := by
  cases e <;> simp [hostOrder]

/-- Byte `i` of a number, counted from the least significant. -/
theorem bytesLE_getElem? (n v i : Nat) (h : i < n) : (bytesLE n v)[i]? = some (BitVec.ofNat 8 (v / 256 ^ i)) := by
  induction n generalizing v i with
  | zero => omega
  | succ n ih =>
    cases i with
    | zero => simp [bytesLE]
    | succ i =>
      simp only [bytesLE, List.getElem?_cons_succ]
      rw [ih (v / 256) i (by omega), Nat.div_div_eq_div_mul, Nat.pow_succ, Nat.mul_comm]

theorem valueLE_lt (bs : List Byte) : valueLE bs < 256 ^ bs.length := by
  induction bs with
  | nil => simp [valueLE]
  | cons b bs ih =>
    simp only [valueLE, List.length_cons, Nat.pow_succ]
    have := b.isLt
    omega

/-- Byte `i` of the value of bytes is byte `i`. -/
theorem valueLE_byte (bs : List Byte) (i : Nat) (h : i < bs.length) :
    some (BitVec.ofNat 8 (valueLE bs / 256 ^ i)) = bs[i]? := by
  induction bs generalizing i with
  | nil => simp at h
  | cons b bs ih =>
    cases i with
    | zero =>
      simp only [valueLE, Nat.pow_zero, Nat.div_one, List.getElem?_cons_zero, Option.some.injEq]
      apply BitVec.eq_of_toNat_eq
      simp [BitVec.toNat_ofNat]
      omega
    | succ i =>
      simp only [valueLE, List.getElem?_cons_succ, Nat.pow_succ]
      rw [← ih i (by simpa using h), Nat.mul_comm (256 ^ i) 256, ← Nat.div_div_eq_div_mul]
      have := b.isLt
      congr 3
      omega

/-- The value of the low `n` bytes of a number is the number modulo `256^n`. -/
theorem valueLE_bytesLE (n v : Nat) : valueLE (bytesLE n v) = v % 256 ^ n := by
  induction n generalizing v with
  | zero => simp [bytesLE, valueLE, Nat.mod_one]
  | succ n ih =>
    have h : (BitVec.ofNat 8 v).toNat = v % 256 := rfl
    simp only [bytesLE, valueLE, ih, h]
    rw [Nat.pow_succ, Nat.mul_comm (256 ^ n) 256, Nat.mod_mul]

/-- Byte `i` of a word, as bits. -/
theorem ofNat_div_eq_extract (v : Word) (i : Nat) : BitVec.ofNat 8 (v.toNat / 256 ^ i) = v.extractLsb' (8 * i) 8 := by
  apply BitVec.eq_of_toNat_eq
  simp only [BitVec.toNat_ofNat, BitVec.extractLsb'_toNat, Nat.shiftRight_eq_div_pow]
  rw [show (256 : Nat) ^ i = 2 ^ (8 * i) by rw [Nat.pow_mul]]

/-- The byte at offset `i` of the bytes of a value at rising addresses (R46). -/
theorem bytesOfValue_getElem? (e : Endian) (n : Nat) (v : Word) (i : Nat) (h : i < n) :
    (bytesOfValue e n v)[i]? =
      some (v.extractLsb' (8 * match e with | .little => i | .big => n - 1 - i) 8) := by
  cases e with
  | little =>
    simp only [bytesOfValue, hostOrder]
    rw [bytesLE_getElem? n _ i h, ofNat_div_eq_extract]
  | big =>
    simp only [bytesOfValue, hostOrder]
    rw [List.getElem?_reverse (by simpa using h), bytesLE_length, bytesLE_getElem? n _ _ (by omega), ofNat_div_eq_extract]

/-- Reading back the bytes of a value gives its low `n` bytes (R45, R46). -/
theorem valueOfBytes_bytesOfValue (e : Endian) (n : Nat) (v : Word) :
    valueOfBytes e (bytesOfValue e n v) = lowBytes n v := by
  simp [valueOfBytes, bytesOfValue, lowBytes, valueLE_bytesLE]

theorem valueOfBytes_toNat (e : Endian) (bs : List Byte) (h : bs.length ≤ 8) :
    (valueOfBytes e bs).toNat = valueLE (hostOrder e bs) := by
  have h1 := valueLE_lt (hostOrder e bs)
  have h2 : (256 : Nat) ^ (hostOrder e bs).length ≤ 256 ^ 8 := Nat.pow_le_pow_right (by omega) (by simpa using h)
  simp only [valueOfBytes, BitVec.toNat_ofNat]
  exact Nat.mod_eq_of_lt (by omega)

/-- Byte `i` of the value of bytes at rising addresses (R45). -/
theorem valueOfBytes_byte (e : Endian) (bs : List Byte) (h : bs.length ≤ 8) (i : Nat) (hi : i < bs.length) :
    some ((valueOfBytes e bs).extractLsb' (8 * i) 8) =
      bs[match e with | .little => i | .big => bs.length - 1 - i]? := by
  rw [← ofNat_div_eq_extract, valueOfBytes_toNat e bs h, valueLE_byte _ i (by simpa using hi)]
  cases e with
  | little => rfl
  | big => simp only [hostOrder]; rw [List.getElem?_reverse hi]

end Sys2Proof.Machine
end

