-- ==== Sys2Proof/Laws/Memory.lean ====
section
/-! SUPPORT. Memory: what one operation does to every byte, and that it keeps the canonical form. -/

namespace Sys2Proof.Machine

theorem Memory.read_write_self (m : Memory) (a : Nat) (v : Byte) : (m.write a v).read a = some v := by
  induction m with
  | nil => simp [Memory.write, Memory.read]
  | cons c m ih =>
    obtain ⟨x, b⟩ := c
    simp only [Memory.write]
    split_ifs with h1 h2
    · simp [Memory.read]
    · simp [Memory.read]
    · simp [Memory.read, Ne.symm h2, ih]

theorem Memory.read_write_ne (m : Memory) {a x : Nat} (v : Byte) (h : x ≠ a) : (m.write a v).read x = m.read x := by
  induction m with
  | nil => simp [Memory.write, Memory.read, Ne.symm h]
  | cons c m ih =>
    obtain ⟨y, b⟩ := c
    simp only [Memory.write]
    split_ifs with h1 h2
    · simp [Memory.read, Ne.symm h]
    · subst h2; simp [Memory.read, Ne.symm h]
    · simp [Memory.read, ih]

theorem Memory.read_write (m : Memory) (a x : Nat) (v : Byte) :
    (m.write a v).read x = if x = a then some v else m.read x := by
  split_ifs with h
  · rw [h]; exact m.read_write_self a v
  · exact m.read_write_ne v h

theorem Memory.wfFrom_mono {m : Memory} {lo lo' : Nat} (h : Memory.wfFrom lo m = true) (hl : lo' ≤ lo) :
    Memory.wfFrom lo' m = true := by
  cases m with
  | nil => rfl
  | cons c m =>
    obtain ⟨x, b⟩ := c
    simp only [Memory.wfFrom, Bool.and_eq_true, decide_eq_true_eq] at h ⊢
    exact ⟨⟨by omega, h.1.2⟩, h.2⟩

theorem Memory.wfFrom_write {m : Memory} {lo a : Nat} (v : Byte) (h : Memory.wfFrom lo m = true) (hl : lo ≤ a)
    (ha : a < 2 ^ 64) : Memory.wfFrom lo (m.write a v) = true := by
  induction m generalizing lo with
  | nil =>
    simp only [Memory.write, Memory.wfFrom, Bool.and_eq_true, decide_eq_true_eq]
    exact ⟨⟨hl, ha⟩, trivial⟩
  | cons c m ih =>
    obtain ⟨x, b⟩ := c
    simp only [Memory.wfFrom, Bool.and_eq_true, decide_eq_true_eq] at h
    simp only [Memory.write]
    split_ifs with h1 h2
    · simp only [Memory.wfFrom, Bool.and_eq_true, decide_eq_true_eq]
      exact ⟨⟨hl, ha⟩, ⟨by omega, h.1.2⟩, h.2⟩
    · subst h2
      simp only [Memory.wfFrom, Bool.and_eq_true, decide_eq_true_eq]
      exact ⟨⟨hl, ha⟩, h.2⟩
    · simp only [Memory.wfFrom, Bool.and_eq_true, decide_eq_true_eq]
      exact ⟨h.1, ih h.2 (by omega)⟩

/-- Setting a byte of the address space keeps the canonical form. -/
theorem Memory.wf_write {m : Memory} {a : Nat} (v : Byte) (h : m.wf = true) (ha : a < 2 ^ 64) :
    (m.write a v).wf = true :=
  Memory.wfFrom_write v h (Nat.zero_le a) ha

/-- Setting bytes that all lie in the address space keeps the canonical form. -/
theorem Memory.wf_writeBytes {m : Memory} {a : Nat} (bs : List Byte) (h : m.wf = true) (ha : a + bs.length ≤ 2 ^ 64) :
    (m.writeBytes a bs).wf = true := by
  induction bs generalizing m a with
  | nil => exact h
  | cons b bs ih =>
    simp only [List.length_cons] at ha
    exact ih (Memory.wf_write b h (by omega)) (by omega)

/-- Setting listed bytes keeps the canonical form. -/
theorem Memory.wf_writeCells {m : Memory} (cs : List Host.Cell) (h : m.wf = true) : (m.writeCells cs).wf = true := by
  induction cs generalizing m with
  | nil => exact h
  | cons c cs ih =>
    obtain ⟨a, b⟩ := c
    simp only [Memory.writeCells]
    split_ifs with ha
    · exact ih (Memory.wf_write b h ha)
    · exact ih h

/-- What every byte is after bytes were set from `a` on. -/
theorem Memory.read_writeBytes (m : Memory) (a : Nat) (bs : List Byte) (x : Nat) :
    (m.writeBytes a bs).read x = if a ≤ x ∧ x < a + bs.length then bs[x - a]? else m.read x := by
  induction bs generalizing m a with
  | nil =>
    rw [if_neg (by simp only [List.length_nil]; omega)]
    rfl
  | cons b bs ih =>
    simp only [Memory.writeBytes, ih, List.length_cons]
    by_cases h1 : a + 1 ≤ x ∧ x < a + 1 + bs.length
    · rw [if_pos h1, if_pos (by omega), show x - a = (x - (a + 1)) + 1 by omega, List.getElem?_cons_succ]
    · rw [if_neg h1, Memory.read_write]
      by_cases h2 : x = a
      · subst h2; simp
      · rw [if_neg h2, if_neg (by omega)]

theorem Memory.read_writeBytes_of_outside (m : Memory) {a : Nat} {bs : List Byte} {x : Nat}
    (h : x < a ∨ a + bs.length ≤ x) : (m.writeBytes a bs).read x = m.read x := by
  rw [Memory.read_writeBytes, if_neg (by omega)]

/-- Bytes that are not listed stay as they are. -/
theorem Memory.read_writeCells_of_notin (m : Memory) (cs : List Host.Cell) {x : Nat} (h : ∀ c ∈ cs, c.1 ≠ x) :
    (m.writeCells cs).read x = m.read x := by
  induction cs generalizing m with
  | nil => rfl
  | cons c cs ih =>
    obtain ⟨a, b⟩ := c
    have hx : x ≠ a := fun e => h (a, b) (List.mem_cons_self ..) e.symm
    simp only [Memory.writeCells]
    rw [ih _ fun c hc => h c (List.mem_cons_of_mem _ hc)]
    split_ifs
    · exact m.read_write_ne b hx
    · rfl

/-- What every byte is after listed bytes were set in order: the last value listed for it, if there is one. -/
theorem Memory.read_writeCells (m : Memory) (cs : List Host.Cell) (x : Nat) : (m.writeCells cs).read x
    = if x < 2^64 then (lastOf cs x).or (m.read x) else m.read x := by
  induction cs generalizing m with
  | nil => simp [Memory.writeCells, lastOf]
  | cons c cs ih =>
    obtain ⟨a, b⟩ := c
    simp only [Memory.writeCells, ih]
    by_cases hx : x < 2^64
    · simp only [hx, if_true]
      simp only [lastOf, List.filter_cons]
      by_cases hax : a = x
      · subst hax
        simp only [decide_true, if_true, hx, Memory.read_write_self]
        rw [List.getLast?_cons]
        cases (List.filter (fun c : Host.Cell => decide (c.1 = a)) cs).getLast? <;> simp
      · simp only [hax, decide_false, Bool.false_eq_true, if_false]
        congr 1
        split
        · exact Memory.read_write_ne _ _ (Ne.symm hax)
        · rfl
    · simp only [hx, if_false]
      split
      · exact Memory.read_write_ne _ _ (by omega)
      · rfl

/-- What every byte is in the part of memory whose addresses satisfy `g`. -/
theorem Memory.read_filter (m : Memory) (g : Nat → Bool) (x : Nat) :
    Memory.read (m.filter fun c => g c.1) x = if g x then m.read x else none := by
  induction m with
  | nil => simp [Memory.read]
  | cons c m ih =>
    obtain ⟨a, b⟩ := c
    simp only [List.filter_cons, Memory.read]
    by_cases hx : a = x
    · subst hx
      cases hg : g a
      · simp [ih, hg]
      · simp [Memory.read]
    · cases hg : g a
      · simp [ih, hx]
      · simp [Memory.read, ih, hx]

/-- A part of canonical memory is canonical. -/
theorem Memory.wfFrom_filter {m : Memory} (g : Host.Cell → Bool) {lo : Nat} (h : Memory.wfFrom lo m = true) :
    Memory.wfFrom lo (m.filter g) = true := by
  induction m generalizing lo with
  | nil => rfl
  | cons c m ih =>
    obtain ⟨a, b⟩ := c
    simp only [Memory.wfFrom, Bool.and_eq_true, decide_eq_true_eq] at h
    rw [List.filter_cons]
    split
    · simp only [Memory.wfFrom, Bool.and_eq_true, decide_eq_true_eq]
      exact ⟨h.1, ih h.2⟩
    · exact ih (Memory.wfFrom_mono h.2 (by omega))

/-- The last value listed for an address that satisfies `g` is the last one listed at all. -/
theorem lastOf_filter (cs : List Host.Cell) (g : Nat → Bool) (x : Nat) :
    lastOf (cs.filter fun c => g c.1) x = if g x then lastOf cs x else none := by
  simp only [lastOf, List.filter_filter]
  split_ifs with h
  · congr 2
    apply List.filter_congr
    intro c _
    by_cases hc : c.1 = x <;> simp [hc, h]
  · rw [List.filter_eq_nil_iff.mpr]
    · rfl
    · intro c _
      by_cases hc : c.1 = x <;> simp [hc, h]

/-- What every byte is after other agents or a called function set those where `here` holds (R55, R185). -/
theorem Memory.read_replace (m : Memory) (here : Nat → Bool) (after : List Host.Cell) (x : Nat) :
    (m.replace here after).read x = if here x then byteAfter after x else m.read x := by
  simp only [Memory.replace, Memory.read_writeCells, lastOf_filter, byteAfter]
  rw [show Memory.read (m.filter fun c => !here c.1) x = if !here x then m.read x else none from
    m.read_filter (fun a => !here a) x]
  cases here x <;> simp

/-- Setting bytes so keeps the canonical form. -/
theorem Memory.wf_replace {m : Memory} (here : Nat → Bool) (after : List Host.Cell) (h : m.wf = true) :
    (m.replace here after).wf = true :=
  Memory.wf_writeCells _ (Memory.wfFrom_filter _ h)

/-- Reading `n` bytes succeeds exactly when each holds a value, and gives them in order. -/
theorem Memory.readBytes_eq_ok {m : Memory} {a n : Nat} {bs : List Byte} :
    m.readBytes a n = .ok bs ↔ bs.length = n ∧ ∀ i, i < n → m.read (a + i) = bs[i]? := by
  induction n generalizing a bs with
  | zero =>
    simp only [Memory.readBytes, Except.ok.injEq, Nat.not_lt_zero, false_imp_iff, implies_true, and_true]
    constructor
    · rintro rfl; rfl
    · intro h; exact (List.eq_nil_of_length_eq_zero h).symm
  | succ n ih =>
    simp only [Memory.readBytes]
    constructor
    · intro h
      split at h
      · cases h
      · next b hb =>
        split at h
        · cases h
        · next cs hc =>
          cases h
          obtain ⟨hl, hr⟩ := ih.mp hc
          refine ⟨by simp [hl], fun i hi => ?_⟩
          cases i with
          | zero => simpa using hb
          | succ i => simpa [Nat.add_assoc, Nat.add_comm 1 i] using hr i (by omega)
    · rintro ⟨hl, hr⟩
      cases bs with
      | nil => simp at hl
      | cons b bs =>
        have h0 := hr 0 (by omega)
        simp only [Nat.add_zero, List.getElem?_cons_zero] at h0
        have : m.readBytes (a + 1) n = .ok bs := ih.mpr
          ⟨by simpa using hl, fun i hi => by simpa [Nat.add_assoc, Nat.add_comm 1 i] using hr (i + 1) (by omega)⟩
        rw [h0, this]

/-- Reading `n` bytes fails exactly at the lowest one that holds no value. -/
theorem Memory.readBytes_eq_error {m : Memory} {a n x : Nat} :
    m.readBytes a n = .error x ↔ ∃ i, i < n ∧ x = a + i ∧ m.read x = none ∧ ∀ j, j < i → m.read (a + j) ≠ none := by
  induction n generalizing a with
  | zero => simp [Memory.readBytes]
  | succ n ih =>
    simp only [Memory.readBytes]
    cases hb : m.read a with
    | none =>
      simp only [Except.error.injEq]
      constructor
      · rintro rfl; exact ⟨0, by omega, by omega, hb, by omega⟩
      · rintro ⟨i, _, rfl, _, hj⟩
        rcases Nat.eq_zero_or_pos i with rfl | h
        · rfl
        · exact absurd (by simpa using hb) (hj 0 h)
    | some b =>
      have key : (∃ i, i < n + 1 ∧ x = a + i ∧ m.read x = none ∧ ∀ j, j < i → m.read (a + j) ≠ none) ↔
          ∃ i, i < n ∧ x = a + 1 + i ∧ m.read x = none ∧ ∀ j, j < i → m.read (a + 1 + j) ≠ none := by
        constructor
        · rintro ⟨i, hi, rfl, hn, hj⟩
          cases i with
          | zero => simp [hb] at hn
          | succ i =>
            exact ⟨i, by omega, by omega, hn, fun j hji => by
              have := hj (j + 1) (by omega)
              rwa [show a + (j + 1) = a + 1 + j by omega] at this⟩
        · rintro ⟨i, hi, rfl, hn, hj⟩
          refine ⟨i + 1, by omega, by omega, hn, fun j hji => ?_⟩
          cases j with
          | zero => simp [hb]
          | succ j =>
            have := hj j (by omega)
            rwa [show a + 1 + j = a + (j + 1) by omega] at this
      rw [key, ← ih]
      cases Memory.readBytes m (a + 1) n <;> simp

/-- Nothing below the first listed address holds a value. -/
theorem Memory.read_eq_none_of_lt {m : Memory} {lo a : Nat} (h : Memory.wfFrom lo m = true) (ha : a < lo) :
    m.read a = none := by
  induction m generalizing lo with
  | nil => rfl
  | cons c m ih =>
    obtain ⟨x, b⟩ := c
    simp only [Memory.wfFrom, Bool.and_eq_true, decide_eq_true_eq] at h
    simp only [Memory.read]
    rw [if_neg (by omega)]
    exact ih h.2 (by omega)

/-- The canonical form is canonical: memories in which every byte reads alike are equal data. -/
theorem Memory.eq_of_read_eq {m k : Memory} {lo : Nat} (hm : Memory.wfFrom lo m = true) (hk : Memory.wfFrom lo k = true)
    (h : ∀ a, m.read a = k.read a) : m = k := by
  induction m generalizing lo k with
  | nil =>
    cases k with
    | nil => rfl
    | cons d k => have := h d.1; simp [Memory.read] at this
  | cons c m ih =>
    obtain ⟨x, b⟩ := c
    cases k with
    | nil => have := h x; simp [Memory.read] at this
    | cons d k =>
      obtain ⟨y, e⟩ := d
      simp only [Memory.wfFrom, Bool.and_eq_true, decide_eq_true_eq] at hm hk
      have hx := h x
      have hy := h y
      simp only [Memory.read, if_true] at hx hy
      have hxy : x = y := by
        rcases Nat.lt_trichotomy x y with hlt | heq | hgt
        · rw [if_neg (by omega), Memory.read_eq_none_of_lt hk.2 (by omega)] at hx; cases hx
        · exact heq
        · rw [if_neg (by omega), Memory.read_eq_none_of_lt hm.2 (by omega)] at hy; cases hy
      subst hxy
      simp only [if_true, Option.some.injEq] at hx
      subst hx
      congr 1
      refine ih hm.2 hk.2 fun a => ?_
      by_cases ha : x = a
      · subst ha
        rw [Memory.read_eq_none_of_lt hm.2 (by omega), Memory.read_eq_none_of_lt hk.2 (by omega)]
      · have := h a
        simpa [Memory.read, ha] using this

end Sys2Proof.Machine
end

