-- ==== Sys2Proof/Laws/State.lean ====
section
/-! SUPPORT. What each update of the state leaves in each field: one lemma per field per update, so that no proof unfolds a
record update. -/

namespace Sys2Proof.Machine

@[simp] theorem State.setReg_regs (s : State) (r : Gpr) (v : Word) : (s.setReg r v).regs = s.regs.set r v := rfl
@[simp] theorem State.setReg_fp (s : State) (r : Gpr) (v : Word) : (s.setReg r v).fp = s.fp := rfl
@[simp] theorem State.setReg_pc (s : State) (r : Gpr) (v : Word) : (s.setReg r v).pc = s.pc := rfl
@[simp] theorem State.setReg_mem (s : State) (r : Gpr) (v : Word) : (s.setReg r v).mem = s.mem := rfl
@[simp] theorem State.setReg_program (s : State) (r : Gpr) (v : Word) : (s.setReg r v).program = s.program := rfl
@[simp] theorem State.setReg_status (s : State) (r : Gpr) (v : Word) : (s.setReg r v).status = s.status := rfl
@[simp] theorem State.setReg_params (s : State) (r : Gpr) (v : Word) : (s.setReg r v).params = s.params := rfl
@[simp] theorem State.setReg_callChoices (s : State) (r : Gpr) (v : Word) : (s.setReg r v).callChoices = s.callChoices := rfl
@[simp] theorem State.setReg_envMoves (s : State) (r : Gpr) (v : Word) : (s.setReg r v).envMoves = s.envMoves := rfl
@[simp] theorem State.setReg_draws (s : State) (r : Gpr) (v : Word) : (s.setReg r v).draws = s.draws := rfl

@[simp] theorem State.advance_regs (s : State) (n : Int) : (s.advance n).regs = s.regs := rfl
@[simp] theorem State.advance_fp (s : State) (n : Int) : (s.advance n).fp = s.fp := rfl
@[simp] theorem State.advance_pc (s : State) (n : Int) : (s.advance n).pc = s.pc + n := rfl
@[simp] theorem State.advance_mem (s : State) (n : Int) : (s.advance n).mem = s.mem := rfl
@[simp] theorem State.advance_program (s : State) (n : Int) : (s.advance n).program = s.program := rfl
@[simp] theorem State.advance_status (s : State) (n : Int) : (s.advance n).status = s.status := rfl
@[simp] theorem State.advance_params (s : State) (n : Int) : (s.advance n).params = s.params := rfl
@[simp] theorem State.advance_callChoices (s : State) (n : Int) : (s.advance n).callChoices = s.callChoices := rfl
@[simp] theorem State.advance_envMoves (s : State) (n : Int) : (s.advance n).envMoves = s.envMoves := rfl
@[simp] theorem State.advance_draws (s : State) (n : Int) : (s.advance n).draws = s.draws := rfl

@[simp] theorem State.nextSlot_regs (s : State) : (s.nextSlot).regs = s.regs := rfl
@[simp] theorem State.nextSlot_fp (s : State) : (s.nextSlot).fp = s.fp := rfl
@[simp] theorem State.nextSlot_pc (s : State) : (s.nextSlot).pc = s.pc + 1 := rfl
@[simp] theorem State.nextSlot_mem (s : State) : (s.nextSlot).mem = s.mem := rfl
@[simp] theorem State.nextSlot_program (s : State) : (s.nextSlot).program = s.program := rfl
@[simp] theorem State.nextSlot_status (s : State) : (s.nextSlot).status = s.status := rfl
@[simp] theorem State.nextSlot_params (s : State) : (s.nextSlot).params = s.params := rfl
@[simp] theorem State.nextSlot_callChoices (s : State) : (s.nextSlot).callChoices = s.callChoices := rfl
@[simp] theorem State.nextSlot_envMoves (s : State) : (s.nextSlot).envMoves = s.envMoves := rfl
@[simp] theorem State.nextSlot_draws (s : State) : (s.nextSlot).draws = s.draws := rfl

@[simp] theorem State.raise_regs (s : State) (f : RaisedFault) : (s.raise f).regs = s.regs := rfl
@[simp] theorem State.raise_fp (s : State) (f : RaisedFault) : (s.raise f).fp = s.fp := rfl
@[simp] theorem State.raise_pc (s : State) (f : RaisedFault) : (s.raise f).pc = s.pc := rfl
@[simp] theorem State.raise_mem (s : State) (f : RaisedFault) : (s.raise f).mem = s.mem := rfl
@[simp] theorem State.raise_program (s : State) (f : RaisedFault) : (s.raise f).program = s.program := rfl
@[simp] theorem State.raise_status (s : State) (f : RaisedFault) : (s.raise f).status = .faulted f s.pc := rfl
@[simp] theorem State.raise_params (s : State) (f : RaisedFault) : (s.raise f).params = s.params := rfl
@[simp] theorem State.raise_callChoices (s : State) (f : RaisedFault) : (s.raise f).callChoices = s.callChoices := rfl
@[simp] theorem State.raise_envMoves (s : State) (f : RaisedFault) : (s.raise f).envMoves = s.envMoves := rfl
@[simp] theorem State.raise_draws (s : State) (f : RaisedFault) : (s.raise f).draws = s.draws := rfl

@[simp] theorem State.exit_regs (s : State) (v : Word) : (s.exit v).regs = s.regs := rfl
@[simp] theorem State.exit_fp (s : State) (v : Word) : (s.exit v).fp = s.fp := rfl
@[simp] theorem State.exit_pc (s : State) (v : Word) : (s.exit v).pc = s.pc := rfl
@[simp] theorem State.exit_mem (s : State) (v : Word) : (s.exit v).mem = s.mem := rfl
@[simp] theorem State.exit_program (s : State) (v : Word) : (s.exit v).program = s.program := rfl
@[simp] theorem State.exit_status (s : State) (v : Word) : (s.exit v).status = .exited v := rfl
@[simp] theorem State.exit_params (s : State) (v : Word) : (s.exit v).params = s.params := rfl
@[simp] theorem State.exit_callChoices (s : State) (v : Word) : (s.exit v).callChoices = s.callChoices := rfl
@[simp] theorem State.exit_envMoves (s : State) (v : Word) : (s.exit v).envMoves = s.envMoves := rfl
@[simp] theorem State.exit_draws (s : State) (v : Word) : (s.exit v).draws = s.draws := rfl

@[simp] theorem State.setByte_regs (s : State) (a : Nat) (b : Byte) : (s.setByte a b).regs = s.regs := rfl
@[simp] theorem State.setByte_fp (s : State) (a : Nat) (b : Byte) : (s.setByte a b).fp = s.fp := rfl
@[simp] theorem State.setByte_pc (s : State) (a : Nat) (b : Byte) : (s.setByte a b).pc = s.pc := rfl
@[simp] theorem State.setByte_mem (s : State) (a : Nat) (b : Byte) : (s.setByte a b).mem = s.mem.write a b := rfl
@[simp] theorem State.setByte_program (s : State) (a : Nat) (b : Byte) : (s.setByte a b).program = s.program := rfl
@[simp] theorem State.setByte_status (s : State) (a : Nat) (b : Byte) : (s.setByte a b).status = s.status := rfl
@[simp] theorem State.setByte_params (s : State) (a : Nat) (b : Byte) : (s.setByte a b).params = s.params := rfl
@[simp] theorem State.setByte_callChoices (s : State) (a : Nat) (b : Byte) : (s.setByte a b).callChoices = s.callChoices := rfl
@[simp] theorem State.setByte_envMoves (s : State) (a : Nat) (b : Byte) : (s.setByte a b).envMoves = s.envMoves := rfl
@[simp] theorem State.setByte_draws (s : State) (a : Nat) (b : Byte) : (s.setByte a b).draws = s.draws := rfl

@[simp] theorem State.writeBytes_regs (s : State) (a : Nat) (bs : List Byte) : (s.writeBytes a bs).regs = s.regs := rfl
@[simp] theorem State.writeBytes_fp (s : State) (a : Nat) (bs : List Byte) : (s.writeBytes a bs).fp = s.fp := rfl
@[simp] theorem State.writeBytes_pc (s : State) (a : Nat) (bs : List Byte) : (s.writeBytes a bs).pc = s.pc := rfl
@[simp] theorem State.writeBytes_mem (s : State) (a : Nat) (bs : List Byte) : (s.writeBytes a bs).mem = s.mem.writeBytes a bs := rfl
@[simp] theorem State.writeBytes_program (s : State) (a : Nat) (bs : List Byte) : (s.writeBytes a bs).program = s.program := rfl
@[simp] theorem State.writeBytes_status (s : State) (a : Nat) (bs : List Byte) : (s.writeBytes a bs).status = s.status := rfl
@[simp] theorem State.writeBytes_params (s : State) (a : Nat) (bs : List Byte) : (s.writeBytes a bs).params = s.params := rfl
@[simp] theorem State.writeBytes_callChoices (s : State) (a : Nat) (bs : List Byte) : (s.writeBytes a bs).callChoices = s.callChoices := rfl
@[simp] theorem State.writeBytes_envMoves (s : State) (a : Nat) (bs : List Byte) : (s.writeBytes a bs).envMoves = s.envMoves := rfl
@[simp] theorem State.writeBytes_draws (s : State) (a : Nat) (bs : List Byte) : (s.writeBytes a bs).draws = s.draws := rfl

@[simp] theorem State.atomicWrite_regs (s : State) (ea : Word) (n : Nat) (v : Word) : (s.atomicWrite ea n v).regs = s.regs := rfl
@[simp] theorem State.atomicWrite_fp (s : State) (ea : Word) (n : Nat) (v : Word) : (s.atomicWrite ea n v).fp = s.fp := rfl
@[simp] theorem State.atomicWrite_pc (s : State) (ea : Word) (n : Nat) (v : Word) : (s.atomicWrite ea n v).pc = s.pc := rfl
@[simp] theorem State.atomicWrite_mem (s : State) (ea : Word) (n : Nat) (v : Word) : (s.atomicWrite ea n v).mem = s.mem.writeBytes ea.toNat (bytesOfValue s.params.hostEndian n v) := rfl
@[simp] theorem State.atomicWrite_program (s : State) (ea : Word) (n : Nat) (v : Word) : (s.atomicWrite ea n v).program = s.program := rfl
@[simp] theorem State.atomicWrite_status (s : State) (ea : Word) (n : Nat) (v : Word) : (s.atomicWrite ea n v).status = s.status := rfl
@[simp] theorem State.atomicWrite_params (s : State) (ea : Word) (n : Nat) (v : Word) : (s.atomicWrite ea n v).params = s.params := rfl
@[simp] theorem State.atomicWrite_callChoices (s : State) (ea : Word) (n : Nat) (v : Word) : (s.atomicWrite ea n v).callChoices = s.callChoices := rfl
@[simp] theorem State.atomicWrite_envMoves (s : State) (ea : Word) (n : Nat) (v : Word) : (s.atomicWrite ea n v).envMoves = s.envMoves := rfl
@[simp] theorem State.atomicWrite_draws (s : State) (ea : Word) (n : Nat) (v : Word) : (s.atomicWrite ea n v).draws = s.draws := rfl

@[simp] theorem State.afterCall_regs (s : State) (args : List Word) (ret : Word) (after : List Host.Cell) : (s.afterCall args ret after).regs = s.regs.afterCall ret := rfl
@[simp] theorem State.afterCall_fp (s : State) (args : List Word) (ret : Word) (after : List Host.Cell) : (s.afterCall args ret after).fp = s.fp := rfl
@[simp] theorem State.afterCall_pc (s : State) (args : List Word) (ret : Word) (after : List Host.Cell) : (s.afterCall args ret after).pc = s.pc := rfl
@[simp] theorem State.afterCall_mem (s : State) (args : List Word) (ret : Word) (after : List Host.Cell) : (s.afterCall args ret after).mem = s.mem.replace (callMayChange s.params args) after := rfl
@[simp] theorem State.afterCall_program (s : State) (args : List Word) (ret : Word) (after : List Host.Cell) : (s.afterCall args ret after).program = s.program := rfl
@[simp] theorem State.afterCall_status (s : State) (args : List Word) (ret : Word) (after : List Host.Cell) : (s.afterCall args ret after).status = s.status := rfl
@[simp] theorem State.afterCall_params (s : State) (args : List Word) (ret : Word) (after : List Host.Cell) : (s.afterCall args ret after).params = s.params := rfl
@[simp] theorem State.afterCall_callChoices (s : State) (args : List Word) (ret : Word) (after : List Host.Cell) : (s.afterCall args ret after).callChoices = s.callChoices := rfl
@[simp] theorem State.afterCall_envMoves (s : State) (args : List Word) (ret : Word) (after : List Host.Cell) : (s.afterCall args ret after).envMoves = s.envMoves := rfl
@[simp] theorem State.afterCall_draws (s : State) (args : List Word) (ret : Word) (after : List Host.Cell) : (s.afterCall args ret after).draws = s.draws := rfl

@[simp] theorem State.fetchTo_fp (s : State) (d : FetchTo) (v : Word) : (s.fetchTo d v).fp = s.fp := by
  cases d <;> rfl
@[simp] theorem State.fetchTo_pc (s : State) (d : FetchTo) (v : Word) : (s.fetchTo d v).pc = s.pc := by
  cases d <;> rfl
@[simp] theorem State.fetchTo_mem (s : State) (d : FetchTo) (v : Word) : (s.fetchTo d v).mem = s.mem := by
  cases d <;> rfl
@[simp] theorem State.fetchTo_program (s : State) (d : FetchTo) (v : Word) : (s.fetchTo d v).program = s.program := by
  cases d <;> rfl
@[simp] theorem State.fetchTo_status (s : State) (d : FetchTo) (v : Word) : (s.fetchTo d v).status = s.status := by
  cases d <;> rfl
@[simp] theorem State.fetchTo_params (s : State) (d : FetchTo) (v : Word) : (s.fetchTo d v).params = s.params := by
  cases d <;> rfl
@[simp] theorem State.fetchTo_callChoices (s : State) (d : FetchTo) (v : Word) : (s.fetchTo d v).callChoices = s.callChoices := by
  cases d <;> rfl
@[simp] theorem State.fetchTo_envMoves (s : State) (d : FetchTo) (v : Word) : (s.fetchTo d v).envMoves = s.envMoves := by
  cases d <;> rfl
@[simp] theorem State.fetchTo_draws (s : State) (d : FetchTo) (v : Word) : (s.fetchTo d v).draws = s.draws := by
  cases d <;> rfl
@[simp] theorem State.fetchTo_nothing (s : State) (v : Word) : s.fetchTo .nothing v = s := rfl
@[simp] theorem State.fetchTo_register (s : State) (r : Gpr) (v : Word) : s.fetchTo (.register r) v = s.setReg r v := rfl

@[simp] theorem State.jump_regs (s : State) (c : Bool) (off : BitVec 16) : (s.jump c off).regs = s.regs := by
  cases c <;> rfl
@[simp] theorem State.jump_fp (s : State) (c : Bool) (off : BitVec 16) : (s.jump c off).fp = s.fp := by
  cases c <;> rfl
@[simp] theorem State.jump_mem (s : State) (c : Bool) (off : BitVec 16) : (s.jump c off).mem = s.mem := by
  cases c <;> rfl
@[simp] theorem State.jump_program (s : State) (c : Bool) (off : BitVec 16) : (s.jump c off).program = s.program := by
  cases c <;> rfl
@[simp] theorem State.jump_status (s : State) (c : Bool) (off : BitVec 16) : (s.jump c off).status = s.status := by
  cases c <;> rfl
@[simp] theorem State.jump_params (s : State) (c : Bool) (off : BitVec 16) : (s.jump c off).params = s.params := by
  cases c <;> rfl
@[simp] theorem State.jump_callChoices (s : State) (c : Bool) (off : BitVec 16) : (s.jump c off).callChoices = s.callChoices := by
  cases c <;> rfl
@[simp] theorem State.jump_envMoves (s : State) (c : Bool) (off : BitVec 16) : (s.jump c off).envMoves = s.envMoves := by
  cases c <;> rfl
@[simp] theorem State.jump_draws (s : State) (c : Bool) (off : BitVec 16) : (s.jump c off).draws = s.draws := by
  cases c <;> rfl
@[simp] theorem State.jump_pc (s : State) (c : Bool) (off : BitVec 16) :
    (s.jump c off).pc = if c then s.pc + (1 + off.toInt) else s.pc + 1 := by
  cases c <;> rfl

@[simp] theorem State.envMove_regs (s : State) : s.envMove.regs = s.regs := by
  unfold State.envMove; split <;> rfl
@[simp] theorem State.envMove_fp (s : State) : s.envMove.fp = s.fp := by
  unfold State.envMove; split <;> rfl
@[simp] theorem State.envMove_pc (s : State) : s.envMove.pc = s.pc := by
  unfold State.envMove; split <;> rfl
@[simp] theorem State.envMove_program (s : State) : s.envMove.program = s.program := by
  unfold State.envMove; split <;> rfl
@[simp] theorem State.envMove_status (s : State) : s.envMove.status = s.status := by
  unfold State.envMove; split <;> rfl
@[simp] theorem State.envMove_params (s : State) : s.envMove.params = s.params := by
  unfold State.envMove; split <;> rfl
@[simp] theorem State.envMove_callChoices (s : State) : s.envMove.callChoices = s.callChoices := by
  unfold State.envMove; split <;> rfl
@[simp] theorem State.envMove_draws (s : State) : s.envMove.draws = s.draws := by
  unfold State.envMove; split <;> rfl
theorem State.envMove_mem (s : State) (e : EnvStep) (h : s.params.envStep = some e) :
    s.envMove.mem = s.mem.envSteps s.params e (s.envMoves.next Config.envChoice).1 := by
  unfold State.envMove; rw [h]
/-- Where ENV_STEP is the identity, other agents change nothing (R2). -/
theorem State.envMove_of_identity {s : State} (h : s.params.envStep = none) : s.envMove = s := by
  unfold State.envMove; rw [h]

/-! Registers. -/

@[simp] theorem Regs.get_set_self (g : Regs) (r : Gpr) (v : Word) : (g.set r v).get r = some v := by
  cases r <;> rfl

theorem Regs.get_set_ne (g : Regs) {r q : Gpr} (v : Word) (h : q ≠ r) : (g.set r v).get q = g.get q := by
  cases r <;> cases q <;> first | rfl | exact absurd rfl h

theorem Regs.get_set (g : Regs) (r q : Gpr) (v : Word) : (g.set r v).get q = if q = r then some v else g.get q := by
  split
  · next h => rw [h]; exact g.get_set_self r v
  · next h => exact g.get_set_ne v h

/-- A register file is what its registers hold. -/
theorem Regs.ext_get {g k : Regs} (h : ∀ r, g.get r = k.get r) : g = k := by
  cases g; cases k
  simp only [Regs.mk.injEq]
  exact ⟨h .r0, h .r1, h .r2, h .r3, h .r4, h .r5, h .r6, h .r7, h .r8, h .r9⟩

@[simp] theorem State.reg_r10 (s : State) : s.reg .r10 = some s.fp := rfl
@[simp] theorem State.reg_gpr (s : State) (r : Gpr) : s.reg (.gpr r) = s.regs.get r := rfl

/-- A register that holds a value is read. -/
theorem State.readReg_of_some {s : State} {r : Reg} {v : Word} (h : s.reg r = some v) : s.readReg r = .ok v := by
  cases r with
  | gpr r => simp only [State.reg] at h; simp [State.readReg, h]
  | r10 => simp only [State.reg, Option.some.injEq] at h; simp [State.readReg, h]

/-- A register that holds no value raises UninitRead. -/
theorem State.readReg_of_none {s : State} {r : Gpr} (h : s.reg (.gpr r) = none) :
    s.readReg (.gpr r) = .error (.uninitRegister r) := by
  simp only [State.reg] at h
  simp [State.readReg, h]

/-- All that reading a register can do. -/
theorem State.readReg_cases (s : State) (r : Reg) :
    (∃ v, s.reg r = some v ∧ s.readReg r = .ok v) ∨
      (∃ g, r = .gpr g ∧ s.reg r = none ∧ s.readReg r = .error (.uninitRegister g)) := by
  cases h : s.reg r with
  | some v => exact .inl ⟨v, rfl, State.readReg_of_some h⟩
  | none =>
    cases r with
    | gpr g => exact .inr ⟨g, rfl, rfl, State.readReg_of_none h⟩
    | r10 => simp at h

theorem State.readReg_eq_ok {s : State} {r : Reg} {v : Word} : s.readReg r = .ok v ↔ s.reg r = some v := by
  constructor
  · intro h
    rcases s.readReg_cases r with ⟨w, hw, hr⟩ | ⟨g, _, _, hr⟩
    · rw [hr] at h; cases h; exact hw
    · rw [hr] at h; cases h
  · exact State.readReg_of_some

/-- States that agree in every field are equal. -/
theorem State.eq_of_fields {s t : State} (regs : s.regs = t.regs) (fp : s.fp = t.fp) (pc : s.pc = t.pc)
    (mem : s.mem = t.mem) (program : s.program = t.program) (status : s.status = t.status) (params : s.params = t.params)
    (callChoices : s.callChoices = t.callChoices) (envMoves : s.envMoves = t.envMoves) (draws : s.draws = t.draws) :
    s = t := by
  cases s; cases t
  simp only [State.mk.injEq]
  exact ⟨regs, fp, pc, mem, program, status, params, callChoices, envMoves, draws⟩

end Sys2Proof.Machine
end

