-- ==== Sys2Proof/Laws/Ops.lean ====
section
/-! SUPPORT. The shared operations: what each can do, said once. The `_cases` lemmas say everything an operation that answers
a next state may have done. -/

namespace Sys2Proof.Machine

/-! Plumbing. -/

theorem except_bind_eq_ok {ε α β : Type} {x : Except ε α} {f : α → Except ε β} {b : β} :
    (x >>= f) = .ok b ↔ ∃ a, x = .ok a ∧ f a = .ok b := by
  cases x with
  | error e => simp [bind, Except.bind]
  | ok a => simp [bind, Except.bind]

@[simp] theorem except_ok_bind {ε α β : Type} (a : α) (f : α → Except ε β) : ((Except.ok a : Except ε α) >>= f) = f a := rfl
@[simp] theorem except_error_bind {ε α β : Type} (e : ε) (f : α → Except ε β) :
    ((Except.error e : Except ε α) >>= f) = .error e := rfl
@[simp] theorem except_pure {ε α : Type} (a : α) : (pure a : Except ε α) = .ok a := rfl

@[simp] theorem State.finish_ok (s t : State) : s.finish (.ok t) = .next t := rfl
@[simp] theorem State.finish_error (s : State) (f : RaisedFault) : s.finish (.error f) = .next (s.raise f) := rfl

/-- An instruction that is finished in `t` computed `t`, or took a fault (R272). -/
theorem State.finish_eq_next {s t : State} {m : Except RaisedFault State} :
    s.finish m = .next t ↔ m = .ok t ∨ ∃ f, m = .error f ∧ t = s.raise f := by
  cases m with
  | ok u => simp
  | error f => simp [eq_comm]

/-! Moves of other agents. -/

/-- A move of other agents changes data memory and the source of coming moves only (R55). -/
theorem State.envMove_eq (s : State) :
    s.envMove = { s with mem := s.envMove.mem, envMoves := s.envMove.envMoves } := by
  unfold State.envMove
  split <;> rfl

theorem sharedByte_eq_true {p : Params} {x : Nat} : sharedByte p x = true ↔ OnlyShared p x := by
  simp only [sharedByte, OnlyShared, Bool.and_eq_true, List.any_eq_true, Bool.not_eq_true', List.any_eq_false]
  refine and_congr Iff.rfl (forall_congr' fun r => forall_congr' fun _ => ?_)
  cases r.shared <;> cases regionHolds r x <;> decide

/-- Everything a numbered list holds has a number. -/
theorem numbered_cases {β : Type} (l : List β) :
    (l = [] ∧ numbered l = none) ∨ ∃ g, numbered l = some g ∧ ∀ b, b ∈ l ↔ ∃ n, g n = b := by
  match l with
  | [] => exact .inl ⟨rfl, rfl⟩
  | [c] => exact .inr ⟨_, rfl, fun b => by simp [eq_comm]⟩
  | c :: d :: cs =>
    refine .inr ⟨_, rfl, fun b => ⟨fun h => ?_, ?_⟩⟩
    · obtain ⟨n, hn, he⟩ := List.mem_iff_getElem.mp h
      have hn' : n < cs.length + 2 := hn
      exact ⟨n, by rw [Nat.mod_eq_of_lt hn', List.getD_eq_getElem _ _ hn]; exact he⟩
    · rintro ⟨n, rfl⟩
      have hn : n % (cs.length + 2) < (c :: d :: cs).length := Nat.mod_lt _ (Nat.succ_pos _)
      rw [List.getD_eq_getElem _ _ hn]
      exact List.getElem_mem hn

/-- What a relation allows is what it relates, and each of it has a number. -/
theorem Relation.allowed_cases {α β : Type} [DecidableEq α] (r : Relation α β) (free : Nat → α → Option (Nat → β)) (a : α) :
    (Relation.allowed r free a = none ∧ ∀ b, ¬ Relates r free a b) ∨
      ∃ g, Relation.allowed r free a = some g ∧ ∀ b, Relates r free a b ↔ ∃ n, g n = b := by
  cases r with
  | listed pairs =>
    have hm : ∀ b, b ∈ pairs.filterMap (fun c => if c.1 = a then some c.2 else none) ↔ (a, b) ∈ pairs := by
      intro b
      simp only [List.mem_filterMap]
      constructor
      · rintro ⟨⟨x, y⟩, hc, h⟩
        split_ifs at h with hx
        cases h; cases hx; exact hc
      · exact fun h => ⟨(a, b), h, by simp⟩
    rcases numbered_cases (pairs.filterMap fun c => if c.1 = a then some c.2 else none) with ⟨hl, hn⟩ | ⟨g, hg, hb⟩
    · exact .inl ⟨hn, fun b h => by have := (hm b).mpr h; rw [hl] at this; cases this⟩
    · exact .inr ⟨g, hg, fun b => (hm b).symm.trans (hb b)⟩
  | unknown name =>
    cases h : free name a with
    | none => exact .inl ⟨h, fun b ⟨g, n, hg, _⟩ => by rw [h] at hg; cases hg⟩
    | some g =>
      refine .inr ⟨g, h, fun b => ⟨?_, fun ⟨n, hn⟩ => ⟨g, n, h, hn⟩⟩⟩
      rintro ⟨k, n, hk, hn⟩
      rw [h] at hk; cases hk; exact ⟨n, hn⟩

/-- What one step of ENV_STEP does (R57): none where it allows none, else one that it allows. -/
theorem Memory.envStep_cases (m : Memory) (p : Params) (e : EnvStep) (n : Nat) :
    m.envStep p e n = m ∨ ∃ after, EnvAllows e (m.sharedPart p) after ∧ m.envStep p e n = m.replace (sharedByte p) after := by
  simp only [Memory.envStep, EnvStep.outcomes]
  rcases Relation.allowed_cases e Config.envOutcomes (m.sharedPart p) with ⟨h, -⟩ | ⟨g, h, hb⟩
  · rw [h]; exact .inl rfl
  · rw [h]; exact .inr ⟨g n, (hb _).mpr ⟨n, rfl⟩, rfl⟩

/-- Data memory of which the shared bytes are replaced (R55). -/
theorem sharedBecame_replace (p : Params) (m : Memory) (after : List Host.Cell) :
    SharedBecame p m (m.replace (sharedByte p) after) after := by
  refine ⟨fun x h => ?_, fun x h => ?_⟩
  · rw [Memory.read_replace, if_pos (sharedByte_eq_true.mpr h)]
  · rw [Memory.read_replace, if_neg (by rw [sharedByte_eq_true]; exact h)]

/-- Steps of ENV_STEP change memory as the relation allows (R55, R57). -/
theorem Memory.envSteps_reaches (m : Memory) (p : Params) (e : EnvStep) (ns : List Nat) :
    EnvReaches p e m (m.envSteps p e ns) := by
  induction ns generalizing m with
  | nil => exact .none m
  | cons n ns ih =>
    rcases m.envStep_cases p e n with h | ⟨after, ha, h⟩
    · simp only [Memory.envSteps, h]; exact ih m
    · exact .one m _ _ after ha (by rw [h]; exact sharedBecame_replace p m after) (ih _)

/-- Steps of ENV_STEP keep the canonical form. -/
theorem Memory.envSteps_wf {m : Memory} (p : Params) (e : EnvStep) (ns : List Nat) (h : m.wf = true) :
    (m.envSteps p e ns).wf = true := by
  induction ns generalizing m with
  | nil => exact h
  | cons n ns ih =>
    refine ih ?_
    rcases m.envStep_cases p e n with hm | ⟨after, -, hm⟩
    · rw [hm]; exact h
    · rw [hm]; exact Memory.wf_replace _ _ h

/-- The environment moves keep the canonical form. -/
theorem State.envMove_wf {s : State} (h : s.mem.wf = true) : s.envMove.mem.wf = true := by
  simp only [State.envMove]
  split
  · exact h
  · exact Memory.envSteps_wf _ _ _ h

/-- What ENV_STEP reaches has the bytes that other agents may not change as they were (R55). -/
theorem EnvReaches.read_of_not_shared {p : Params} {e : EnvStep} {m k : Memory} (h : EnvReaches p e m k) {x : Nat}
    (hx : ¬ OnlyShared p x) : k.read x = m.read x := by
  induction h with
  | none m => rfl
  | one m k l after _ hk _ ih => rw [ih, hk.2 x hx]

/-- A byte that other agents may not change stays as it is (R55). -/
theorem State.envMove_read_of_not_shared {s : State} {x : Nat} (h : ¬ OnlyShared s.params x) :
    s.envMove.mem.read x = s.mem.read x := by
  cases he : s.params.envStep with
  | none => rw [State.envMove_of_identity he]
  | some e => rw [State.envMove_mem s e he]; exact (Memory.envSteps_reaches _ _ _ _).read_of_not_shared h

/-! The checks before an access. -/

theorem regionPermits_eq_true {r : Region} {a n : Nat} {k : AccessKind} :
    regionPermits r a n k = true ↔ r.base.toNat ≤ a ∧ a + n ≤ r.base.toNat + r.length ∧
      (k ≠ .write → r.readable = true) ∧ (k ≠ .read → r.writable = true) := by
  cases k <;> simp [regionPermits, and_assoc]

theorem Params.permits_eq_true {p : Params} {a n : Nat} {k : AccessKind} :
    Params.permits p a n k = true ↔ Permitted p a n k := by
  simp only [Params.permits, Permitted, Bool.and_eq_true, decide_eq_true_eq, List.any_eq_true, regionPermits_eq_true]

theorem aligned_eq_true {ea : Word} {n : Nat} : aligned ea n = true ↔ ea.toNat % n = 0 := by
  simp [aligned]

theorem State.checkAccess_of_not_permitted {s : State} {ea : Word} {n : Nat} {k : AccessKind} {strict : Bool}
    (h : ¬ Permitted s.params ea.toNat n k) : s.checkAccess ea n k strict = .error (.memFault ea n k.fault) := by
  have : Params.permits s.params ea.toNat n k = false := by
    rw [← Bool.not_eq_true, Params.permits_eq_true]; exact h
  simp [State.checkAccess, this]

theorem State.checkAccess_of_misaligned {s : State} {ea : Word} {n : Nat} {k : AccessKind} {strict : Bool}
    (h : Permitted s.params ea.toNat n k) (hs : strict = true) (ha : ea.toNat % n ≠ 0) :
    s.checkAccess ea n k strict = .error (.memFault ea n .misaligned) := by
  have ha' : aligned ea n = false := by rw [← Bool.not_eq_true, aligned_eq_true]; exact ha
  simp [State.checkAccess, Params.permits_eq_true.mpr h, hs, ha']

theorem State.checkAccess_of_allowed {s : State} {ea : Word} {n : Nat} {k : AccessKind} {strict : Bool}
    (h : Permitted s.params ea.toNat n k) (ha : strict = true → ea.toNat % n = 0) :
    s.checkAccess ea n k strict = .ok () := by
  simp only [State.checkAccess, Params.permits_eq_true.mpr h, Bool.not_true, Bool.false_eq_true, if_false]
  cases strict with
  | false => simp
  | true => simp [aligned_eq_true.mpr (ha rfl)]

/-- An access that passes its checks lies in the address space. -/
theorem State.checkAccess_bound {s : State} {ea : Word} {n : Nat} {k : AccessKind} {strict : Bool} {u : Unit}
    (h : s.checkAccess ea n k strict = .ok u) : Permitted s.params ea.toNat n k := by
  by_contra hp
  rw [State.checkAccess_of_not_permitted hp] at h
  cases h

/-! Accesses byte by byte. -/

theorem State.moved_succ' (s : State) (k : Nat) : s.moved (k + 1) = s.envMove.moved k := by
  induction k with
  | zero => rfl
  | succ k ih => rw [State.moved, ih]; rfl

/-- A misaligned load reads byte `i` after `i` moves of other agents (R51). -/
theorem State.readTorn_eq_ok {s t : State} {a n : Nat} {bs : List Byte} :
    s.readTorn a n = .ok (bs, t) ↔
      bs.length = n ∧ (∀ i, i < n → (s.moved i).mem.read (a + i) = bs[i]?) ∧ t = s.moved (n - 1) := by
  induction n using Nat.strong_induction_on generalizing s a bs t with
  | _ n ih =>
    match n with
    | 0 =>
      simp only [State.readTorn, Except.ok.injEq, Prod.mk.injEq, List.length_eq_zero_iff, Nat.not_lt_zero, false_imp_iff,
        implies_true, true_and]
      exact ⟨fun h => ⟨h.1.symm, h.2.symm⟩, fun h => ⟨h.1.symm, h.2.symm⟩⟩
    | 1 =>
      simp only [State.readTorn]
      constructor
      · intro h
        split at h
        · cases h
        · next b hb =>
          cases h
          exact ⟨rfl, fun i hi => by obtain rfl : i = 0 := by omega
                                     simpa [State.moved] using hb, rfl⟩
      · rintro ⟨hl, hr, rfl⟩
        have h0 := hr 0 (by omega)
        simp only [State.moved, Nat.add_zero] at h0
        obtain ⟨b, rfl⟩ := List.length_eq_one_iff.mp hl
        simp only [h0, List.getElem?_cons_zero]
    | n + 2 =>
      simp only [State.readTorn]
      constructor
      · intro h
        split at h
        · cases h
        · next b hb =>
          split at h
          · cases h
          · next cs u hc =>
            cases h
            obtain ⟨hl, hr, ht⟩ := (ih (n + 1) (by omega)).mp hc
            refine ⟨by simp [hl], fun i hi => ?_, ?_⟩
            · cases i with
              | zero => simpa [State.moved] using hb
              | succ i =>
                rw [State.moved_succ', show a + (i + 1) = a + 1 + i by omega, hr i (by omega), List.getElem?_cons_succ]
            · rw [ht, show n + 2 - 1 = (n + 1 - 1) + 1 by omega, State.moved_succ']
      · rintro ⟨hl, hr, ht⟩
        cases bs with
        | nil => simp at hl
        | cons b bs =>
          have h0 := hr 0 (by omega)
          simp only [State.moved, Nat.add_zero, List.getElem?_cons_zero] at h0
          have : s.envMove.readTorn (a + 1) (n + 1) = .ok (bs, t) := (ih (n + 1) (by omega)).mpr
            ⟨by simpa using hl, fun i hi => by
              have := hr (i + 1) (by omega)
              rwa [State.moved_succ', show a + (i + 1) = a + 1 + i by omega, List.getElem?_cons_succ] at this, by
              rw [ht, show n + 2 - 1 = (n + 1 - 1) + 1 by omega, State.moved_succ']⟩
          simp only [h0, this]

/-- A misaligned load fails at the lowest byte that holds no value when its turn comes (R51, R265). -/
theorem State.readTorn_eq_error {s : State} {a n : Nat} {f : RaisedFault} :
    s.readTorn a n = .error f ↔ ∃ i, i < n ∧ f = .uninitByte (a + i) ∧ (s.moved i).mem.read (a + i) = none ∧
      ∀ j, j < i → (s.moved j).mem.read (a + j) ≠ none := by
  induction n using Nat.strong_induction_on generalizing s a with
  | _ n ih =>
    match n with
    | 0 => simp [State.readTorn]
    | 1 =>
      simp only [State.readTorn]
      constructor
      · intro h
        split at h
        · next hb => cases h; exact ⟨0, by omega, rfl, hb, by omega⟩
        · cases h
      · rintro ⟨i, hi, rfl, hn, -⟩
        obtain rfl : i = 0 := by omega
        simp only [State.moved, Nat.add_zero] at hn
        simp only [hn, Nat.add_zero]
    | n + 2 =>
      simp only [State.readTorn]
      constructor
      · intro h
        split at h
        · next hb => cases h; exact ⟨0, by omega, rfl, hb, by omega⟩
        · next b hb =>
          split at h
          · next e he =>
            cases h
            obtain ⟨i, hi, rfl, hn, hj⟩ := (ih (n + 1) (by omega)).mp he
            refine ⟨i + 1, by omega, by congr 1; omega, ?_, fun j hji => ?_⟩
            · rw [State.moved_succ', show a + (i + 1) = a + 1 + i by omega]; exact hn
            · cases j with
              | zero => simp [State.moved, hb]
              | succ j => rw [State.moved_succ', show a + (j + 1) = a + 1 + j by omega]; exact hj j (by omega)
          · cases h
      · rintro ⟨i, hi, rfl, hn, hj⟩
        cases i with
        | zero =>
          simp only [State.moved, Nat.add_zero] at hn
          simp only [hn, Nat.add_zero]
        | succ i =>
          have h0 := hj 0 (by omega)
          simp only [State.moved, Nat.add_zero] at h0
          obtain ⟨b, hb⟩ := Option.ne_none_iff_exists'.mp h0
          have : s.envMove.readTorn (a + 1) (n + 1) = .error (.uninitByte (a + (i + 1))) := (ih (n + 1) (by omega)).mpr
            ⟨i, by omega, by congr 1; omega, by
              rwa [State.moved_succ', show a + (i + 1) = a + 1 + i by omega] at hn, fun j hji => by
              have := hj (j + 1) (by omega)
              rwa [State.moved_succ', show a + (j + 1) = a + 1 + j by omega] at this⟩
          simp only [hb, this]

@[simp] theorem State.moved_regs (s : State) (k : Nat) : (s.moved k).regs = s.regs := by
  induction k with
  | zero => rfl
  | succ k ih => rw [State.moved, State.envMove_regs, ih]

@[simp] theorem State.moved_fp (s : State) (k : Nat) : (s.moved k).fp = s.fp := by
  induction k with
  | zero => rfl
  | succ k ih => rw [State.moved, State.envMove_fp, ih]

@[simp] theorem State.moved_pc (s : State) (k : Nat) : (s.moved k).pc = s.pc := by
  induction k with
  | zero => rfl
  | succ k ih => rw [State.moved, State.envMove_pc, ih]

@[simp] theorem State.moved_program (s : State) (k : Nat) : (s.moved k).program = s.program := by
  induction k with
  | zero => rfl
  | succ k ih => rw [State.moved, State.envMove_program, ih]

@[simp] theorem State.moved_status (s : State) (k : Nat) : (s.moved k).status = s.status := by
  induction k with
  | zero => rfl
  | succ k ih => rw [State.moved, State.envMove_status, ih]

@[simp] theorem State.moved_params (s : State) (k : Nat) : (s.moved k).params = s.params := by
  induction k with
  | zero => rfl
  | succ k ih => rw [State.moved, State.envMove_params, ih]

@[simp] theorem State.moved_callChoices (s : State) (k : Nat) : (s.moved k).callChoices = s.callChoices := by
  induction k with
  | zero => rfl
  | succ k ih => rw [State.moved, State.envMove_callChoices, ih]

@[simp] theorem State.moved_draws (s : State) (k : Nat) : (s.moved k).draws = s.draws := by
  induction k with
  | zero => rfl
  | succ k ih => rw [State.moved, State.envMove_draws, ih]

/-- Moves of other agents change data memory and the source of coming moves only. -/
theorem State.moved_eq (s : State) (k : Nat) :
    s.moved k = { s with mem := (s.moved k).mem, envMoves := (s.moved k).envMoves } :=
  State.eq_of_fields (by simp) (by simp) (by simp) rfl (by simp) (by simp) (by simp) (by simp) rfl (by simp)

theorem State.moved_of_identity {s : State} (h : s.params.envStep = none) (k : Nat) : s.moved k = s := by
  induction k with
  | zero => rfl
  | succ k ih => rw [State.moved, ih, State.envMove_of_identity h]

theorem State.moved_wf {s : State} (h : s.mem.wf = true) (k : Nat) : (s.moved k).mem.wf = true := by
  induction k with
  | zero => exact h
  | succ k ih => exact State.envMove_wf ih

theorem State.moved_read_of_not_shared {s : State} {x : Nat} (h : ¬ OnlyShared s.params x) (k : Nat) :
    (s.moved k).mem.read x = s.mem.read x := by
  induction k with
  | zero => rfl
  | succ k ih =>
    rw [State.moved, State.envMove_read_of_not_shared (by simpa using h), ih]

@[simp] theorem State.writeTorn_regs (s : State) (a : Nat) (bs : List Byte) : (s.writeTorn a bs).regs = s.regs := by
  induction bs generalizing s a with
  | nil => rfl
  | cons b bs ih =>
    cases bs with
    | nil => rfl
    | cons c bs => rw [State.writeTorn, ih, State.envMove_regs, State.setByte_regs]

@[simp] theorem State.writeTorn_fp (s : State) (a : Nat) (bs : List Byte) : (s.writeTorn a bs).fp = s.fp := by
  induction bs generalizing s a with
  | nil => rfl
  | cons b bs ih =>
    cases bs with
    | nil => rfl
    | cons c bs => rw [State.writeTorn, ih, State.envMove_fp, State.setByte_fp]

@[simp] theorem State.writeTorn_pc (s : State) (a : Nat) (bs : List Byte) : (s.writeTorn a bs).pc = s.pc := by
  induction bs generalizing s a with
  | nil => rfl
  | cons b bs ih =>
    cases bs with
    | nil => rfl
    | cons c bs => rw [State.writeTorn, ih, State.envMove_pc, State.setByte_pc]

@[simp] theorem State.writeTorn_program (s : State) (a : Nat) (bs : List Byte) : (s.writeTorn a bs).program = s.program := by
  induction bs generalizing s a with
  | nil => rfl
  | cons b bs ih =>
    cases bs with
    | nil => rfl
    | cons c bs => rw [State.writeTorn, ih, State.envMove_program, State.setByte_program]

@[simp] theorem State.writeTorn_status (s : State) (a : Nat) (bs : List Byte) : (s.writeTorn a bs).status = s.status := by
  induction bs generalizing s a with
  | nil => rfl
  | cons b bs ih =>
    cases bs with
    | nil => rfl
    | cons c bs => rw [State.writeTorn, ih, State.envMove_status, State.setByte_status]

@[simp] theorem State.writeTorn_params (s : State) (a : Nat) (bs : List Byte) : (s.writeTorn a bs).params = s.params := by
  induction bs generalizing s a with
  | nil => rfl
  | cons b bs ih =>
    cases bs with
    | nil => rfl
    | cons c bs => rw [State.writeTorn, ih, State.envMove_params, State.setByte_params]

@[simp] theorem State.writeTorn_callChoices (s : State) (a : Nat) (bs : List Byte) : (s.writeTorn a bs).callChoices = s.callChoices := by
  induction bs generalizing s a with
  | nil => rfl
  | cons b bs ih =>
    cases bs with
    | nil => rfl
    | cons c bs => rw [State.writeTorn, ih, State.envMove_callChoices, State.setByte_callChoices]

@[simp] theorem State.writeTorn_draws (s : State) (a : Nat) (bs : List Byte) : (s.writeTorn a bs).draws = s.draws := by
  induction bs generalizing s a with
  | nil => rfl
  | cons b bs ih =>
    cases bs with
    | nil => rfl
    | cons c bs => rw [State.writeTorn, ih, State.envMove_draws, State.setByte_draws]

/-- A misaligned store that lies in the address space keeps the canonical form. -/
theorem State.writeTorn_wf {s : State} {a : Nat} (bs : List Byte) (h : s.mem.wf = true) (ha : a + bs.length ≤ 2 ^ 64) :
    (s.writeTorn a bs).mem.wf = true := by
  induction bs generalizing s a with
  | nil => exact h
  | cons b bs ih =>
    simp only [List.length_cons] at ha
    cases bs with
    | nil => exact Memory.wf_write b h (by omega)
    | cons c bs =>
      rw [State.writeTorn]
      exact ih (State.envMove_wf (Memory.wf_write b h (by omega))) (by simp only [List.length_cons] at ha ⊢; omega)

/-- A misaligned store leaves a byte outside it alone, if other agents do. -/
theorem State.writeTorn_read_of_outside {s : State} {a : Nat} (bs : List Byte) {x : Nat} (h : x < a ∨ a + bs.length ≤ x)
    (hs : ¬ OnlyShared s.params x) : (s.writeTorn a bs).mem.read x = s.mem.read x := by
  induction bs generalizing s a with
  | nil => rfl
  | cons b bs ih =>
    simp only [List.length_cons] at h
    cases bs with
    | nil => exact Memory.read_write_ne _ _ (by simp only [List.length_nil] at h; omega)
    | cons c bs =>
      rw [State.writeTorn, ih (by simp only [List.length_cons] at h ⊢; omega) (by simpa using hs),
        State.envMove_read_of_not_shared (by simpa using hs)]
      exact Memory.read_write_ne _ _ (by omega)

/-- Where ENV_STEP is the identity, a misaligned store is the plain one. -/
theorem State.writeTorn_of_identity {s : State} {a : Nat} (bs : List Byte) (h : s.params.envStep = none) :
    s.writeTorn a bs = s.writeBytes a bs := by
  induction bs generalizing s a with
  | nil => rfl
  | cons b bs ih =>
    cases bs with
    | nil => rfl
    | cons c bs =>
      rw [State.writeTorn, State.envMove_of_identity (by simpa using h), ih (by simpa using h)]
      rfl

/-! Regular and atomic accesses. -/

theorem State.readBytes_eq_ok {s : State} {a n : Nat} {bs : List Byte} :
    s.readBytes a n = .ok bs ↔ bs.length = n ∧ ∀ i, i < n → s.mem.read (a + i) = bs[i]? := by
  rw [← Memory.readBytes_eq_ok]
  simp only [State.readBytes]
  cases s.mem.readBytes a n <;> simp

theorem State.readBytes_eq_error {s : State} {a n : Nat} {f : RaisedFault} :
    s.readBytes a n = .error f ↔ ∃ i, i < n ∧ f = .uninitByte (a + i) ∧ s.mem.read (a + i) = none ∧
      ∀ j, j < i → s.mem.read (a + j) ≠ none := by
  simp only [State.readBytes]
  cases hr : s.mem.readBytes a n with
  | ok bs =>
    simp only [reduceCtorEq, false_iff, not_exists, not_and]
    intro i hi _ hn
    rw [(Memory.readBytes_eq_ok.mp hr).2 i hi] at hn
    have := (Memory.readBytes_eq_ok.mp hr).1
    simp only [List.getElem?_eq_none_iff] at hn
    omega
  | error x =>
    obtain ⟨i, hi, rfl, hn, hj⟩ := Memory.readBytes_eq_error.mp hr
    constructor
    · intro h; cases h; exact ⟨i, hi, rfl, hn, hj⟩
    · rintro ⟨k, hk, rfl, hkn, hkj⟩
      rcases Nat.lt_trichotomy i k with h | rfl | h
      · exact absurd hn (hkj i h)
      · rfl
      · exact absurd hkn (hj k h)

/-- A regular read gives the value of the bytes it finds, in a state that differs by moves of other agents (R45, R51). -/
theorem State.memRead_cases {s t : State} {ea v : Word} {n : Nat} (h : s.memRead ea n = .ok (v, t)) :
    Permitted s.params ea.toNat n .read ∧ (s.params.alignStrict = true → ea.toNat % n = 0) ∧
      ∃ bs, s.Finds ea.toNat n bs ∧ v = valueOfBytes s.params.hostEndian bs ∧ t = s.atByte ea.toNat n (n - 1) := by
  simp only [State.memRead, except_bind_eq_ok] at h
  obtain ⟨u, hc, h⟩ := h
  have hp := State.checkAccess_bound hc
  refine ⟨hp, fun hs => ?_, ?_⟩
  · by_contra ha
    rw [State.checkAccess_of_misaligned hp hs ha] at hc
    cases hc
  · split at h
    · next ha =>
      rw [aligned_eq_true] at ha
      obtain ⟨bs, hb, h⟩ := except_bind_eq_ok.mp h
      cases h
      have := State.readBytes_eq_ok.mp hb
      exact ⟨bs, ⟨this.1, fun i hi => by simpa [State.atByte, ha] using this.2 i hi⟩, rfl, by simp [State.atByte, ha]⟩
    · next ha =>
      rw [aligned_eq_true] at ha
      obtain ⟨⟨bs, w⟩, hb, h⟩ := except_bind_eq_ok.mp h
      cases h
      have := State.readTorn_eq_ok.mp hb
      exact ⟨bs, ⟨this.1, fun i hi => by simpa [State.atByte, ha] using this.2.1 i hi⟩, rfl, by
        simpa [State.atByte, ha] using this.2.2⟩

/-- A regular write sets the bytes, at once where it is aligned and one by one where it is not (R46, R51). -/
theorem State.memWrite_cases {s t : State} {ea v : Word} {n : Nat} (h : s.memWrite ea n v = .ok t) :
    Permitted s.params ea.toNat n .write ∧ (s.params.alignStrict = true → ea.toNat % n = 0) ∧
      t = if ea.toNat % n = 0 then s.writeBytes ea.toNat (bytesOfValue s.params.hostEndian n v)
        else s.writeTorn ea.toNat (bytesOfValue s.params.hostEndian n v) := by
  simp only [State.memWrite, except_bind_eq_ok] at h
  obtain ⟨u, hc, h⟩ := h
  have hp := State.checkAccess_bound hc
  refine ⟨hp, fun hs => ?_, ?_⟩
  · by_contra ha
    rw [State.checkAccess_of_misaligned hp hs ha] at hc
    cases hc
  · by_cases ha : ea.toNat % n = 0
    · rw [if_pos (aligned_eq_true.mpr ha)] at h
      cases h; rw [if_pos ha]
    · rw [if_neg (by rw [aligned_eq_true]; exact ha)] at h
      cases h; rw [if_neg ha]

/-- An atomic read is always aligned and needs both rights (R244). -/
theorem State.atomicRead_cases {s : State} {ea v : Word} {n : Nat} (h : s.atomicRead ea n = .ok v) :
    Permitted s.params ea.toNat n .atomic ∧ ea.toNat % n = 0 ∧
      ∃ bs, s.Holds ea.toNat n bs ∧ v = valueOfBytes s.params.hostEndian bs := by
  simp only [State.atomicRead, except_bind_eq_ok] at h
  obtain ⟨u, hc, bs, hb, h⟩ := h
  have hp := State.checkAccess_bound hc
  refine ⟨hp, ?_, bs, State.readBytes_eq_ok.mp hb, ?_⟩
  · by_contra ha
    rw [State.checkAccess_of_misaligned hp rfl ha] at hc
    cases hc
  · cases h; rfl

/-! The shared operations of the instructions. -/

theorem State.alu64_cases {s t : State} {f : Word → Word → Word} {dst : Gpr} {b : Source} (h : s.alu64 f dst b = .next t) :
    (∃ e, t = s.raise e) ∨ ∃ x y, s.readReg (.gpr dst) = .ok x ∧ s.source64 b = .ok y ∧
      t = (s.setReg dst (f x y)).nextSlot := by
  rcases State.finish_eq_next.mp h with h | ⟨e, -, h⟩
  · obtain ⟨x, hx, y, hy, h⟩ := by simpa only [except_bind_eq_ok] using h
    cases h; exact .inr ⟨x, y, hx, hy, rfl⟩
  · exact .inl ⟨e, h⟩

theorem State.alu32_cases {s t : State} {f : BitVec 32 → BitVec 32 → BitVec 32} {dst : Gpr} {b : Source}
    (h : s.alu32 f dst b = .next t) :
    (∃ e, t = s.raise e) ∨ ∃ x y, s.readLow32 (.gpr dst) = .ok x ∧ s.source32 b = .ok y ∧
      t = (s.setReg dst (zext64 (f x y))).nextSlot := by
  rcases State.finish_eq_next.mp h with h | ⟨e, -, h⟩
  · obtain ⟨x, hx, y, hy, h⟩ := by simpa only [except_bind_eq_ok] using h
    cases h; exact .inr ⟨x, y, hx, hy, rfl⟩
  · exact .inl ⟨e, h⟩

theorem State.unary64_cases {s t : State} {f : Word → Word} {dst : Gpr} {b : Source} (h : s.unary64 f dst b = .next t) :
    (∃ e, t = s.raise e) ∨ ∃ y, s.source64 b = .ok y ∧ t = (s.setReg dst (f y)).nextSlot := by
  rcases State.finish_eq_next.mp h with h | ⟨e, -, h⟩
  · obtain ⟨y, hy, h⟩ := by simpa only [except_bind_eq_ok] using h
    cases h; exact .inr ⟨y, hy, rfl⟩
  · exact .inl ⟨e, h⟩

theorem State.unary32_cases {s t : State} {f : BitVec 32 → BitVec 32} {dst : Gpr} {b : Source}
    (h : s.unary32 f dst b = .next t) :
    (∃ e, t = s.raise e) ∨ ∃ y, s.source32 b = .ok y ∧ t = (s.setReg dst (zext64 (f y))).nextSlot := by
  rcases State.finish_eq_next.mp h with h | ⟨e, -, h⟩
  · obtain ⟨y, hy, h⟩ := by simpa only [except_bind_eq_ok] using h
    cases h; exact .inr ⟨y, hy, rfl⟩
  · exact .inl ⟨e, h⟩

/-- A shift's result comes with the state it was drawn from: only the count of draws may differ (R139). -/
theorem State.shifted64_state (s : State) (f : Word → Nat → Word) (x y : Word) :
    (s.shifted64 f x y).2 = { s with draws := (s.shifted64 f x y).2.draws } := by
  simp only [State.shifted64]
  split
  · rfl
  · split <;> rfl

theorem State.shifted32_state (s : State) (f : BitVec 32 → Nat → BitVec 32) (x y : BitVec 32) :
    (s.shifted32 f x y).2 = { s with draws := (s.shifted32 f x y).2.draws } := by
  simp only [State.shifted32]
  split
  · rfl
  · split <;> rfl

theorem State.shift64_cases {s t : State} {f : Word → Nat → Word} {dst : Gpr} {b : Source}
    (h : s.shift64 f dst b = .next t) :
    (∃ e, t = s.raise e) ∨ ∃ x y, s.readReg (.gpr dst) = .ok x ∧ s.source64 b = .ok y ∧
      t = ((s.shifted64 f x y).2.setReg dst (s.shifted64 f x y).1).nextSlot := by
  rcases State.finish_eq_next.mp h with h | ⟨e, -, h⟩
  · obtain ⟨x, hx, y, hy, h⟩ := by simpa only [except_bind_eq_ok] using h
    cases h; exact .inr ⟨x, y, hx, hy, rfl⟩
  · exact .inl ⟨e, h⟩

theorem State.shift32_cases {s t : State} {f : BitVec 32 → Nat → BitVec 32} {dst : Gpr} {b : Source}
    (h : s.shift32 f dst b = .next t) :
    (∃ e, t = s.raise e) ∨ ∃ x y, s.readLow32 (.gpr dst) = .ok x ∧ s.source32 b = .ok y ∧
      t = ((s.shifted32 f x y).2.setReg dst (zext64 (s.shifted32 f x y).1)).nextSlot := by
  rcases State.finish_eq_next.mp h with h | ⟨e, -, h⟩
  · obtain ⟨x, hx, y, hy, h⟩ := by simpa only [except_bind_eq_ok] using h
    cases h; exact .inr ⟨x, y, hx, hy, rfl⟩
  · exact .inl ⟨e, h⟩

theorem State.byteSwap_cases {s t : State} {target : Endian} {n : Nat} {dst : Gpr}
    (h : s.byteSwap target n dst = .next t) :
    (∃ e, t = s.raise e) ∨ ∃ v, s.readReg (.gpr dst) = .ok v ∧
      t = (s.setReg dst (if target = s.params.hostEndian then lowBytes n v else swapBytes n v)).nextSlot := by
  rcases State.finish_eq_next.mp h with h | ⟨e, -, h⟩
  · obtain ⟨v, hv, h⟩ := by simpa only [except_bind_eq_ok] using h
    cases h; exact .inr ⟨v, hv, rfl⟩
  · exact .inl ⟨e, h⟩

theorem State.jump64_cases {s t : State} {c : Word → Word → Bool} {dst : Reg} {b : Source} {off : BitVec 16}
    (h : s.jump64 c dst b off = .next t) : (∃ e, t = s.raise e) ∨ ∃ taken, t = s.jump taken off := by
  rcases State.finish_eq_next.mp h with h | ⟨e, -, h⟩
  · obtain ⟨x, -, y, -, h⟩ := by simpa only [except_bind_eq_ok] using h
    cases h; exact .inr ⟨_, rfl⟩
  · exact .inl ⟨e, h⟩

theorem State.jump32_cases {s t : State} {c : BitVec 32 → BitVec 32 → Bool} {dst : Reg} {b : Source} {off : BitVec 16}
    (h : s.jump32 c dst b off = .next t) : (∃ e, t = s.raise e) ∨ ∃ taken, t = s.jump taken off := by
  rcases State.finish_eq_next.mp h with h | ⟨e, -, h⟩
  · obtain ⟨x, -, y, -, h⟩ := by simpa only [except_bind_eq_ok] using h
    cases h; exact .inr ⟨_, rfl⟩
  · exact .inl ⟨e, h⟩

/-- A jump changes `pc` only (R160). -/
theorem State.jump_eq (s : State) (taken : Bool) (off : BitVec 16) :
    s.jump taken off = { s with pc := s.pc + 1 + if taken then off.toInt else 0 } := by
  cases taken with
  | false => simp [State.jump, State.nextSlot, State.advance]
  | true => simp [State.jump, State.advance, signedOffset, Int.add_assoc]

theorem State.load_cases {s t : State} {n : Nat} {dst : Gpr} {src : Reg} {off : BitVec 16}
    (h : s.load n dst src off = .next t) :
    (∃ e, t = s.raise e) ∨ ∃ base v u, s.reg src = some base ∧ s.memRead (effectiveAddress base off) n = .ok (v, u) ∧
      t = (u.setReg dst v).nextSlot := by
  rcases State.finish_eq_next.mp h with h | ⟨e, -, h⟩
  · obtain ⟨base, hb, ⟨v, u⟩, hr, h⟩ := by simpa only [except_bind_eq_ok] using h
    cases h; exact .inr ⟨base, v, u, State.readReg_eq_ok.mp hb, hr, rfl⟩
  · exact .inl ⟨e, h⟩

theorem State.storeImm_cases {s t : State} {n : Nat} {dst : Reg} {off : BitVec 16} {imm : BitVec 32}
    (h : s.storeImm n dst off imm = .next t) :
    (∃ e, t = s.raise e) ∨ ∃ base u, s.reg dst = some base ∧
      s.memWrite (effectiveAddress base off) n (sext64 imm) = .ok u ∧ t = u.nextSlot := by
  rcases State.finish_eq_next.mp h with h | ⟨e, -, h⟩
  · obtain ⟨base, hb, u, hw, h⟩ := by simpa only [except_bind_eq_ok] using h
    cases h; exact .inr ⟨base, u, State.readReg_eq_ok.mp hb, hw, rfl⟩
  · exact .inl ⟨e, h⟩

theorem State.storeReg_cases {s t : State} {n : Nat} {dst src : Reg} {off : BitVec 16}
    (h : s.storeReg n dst src off = .next t) :
    (∃ e, t = s.raise e) ∨ ∃ base v u, s.reg dst = some base ∧ s.reg src = some v ∧
      s.memWrite (effectiveAddress base off) n v = .ok u ∧ t = u.nextSlot := by
  rcases State.finish_eq_next.mp h with h | ⟨e, -, h⟩
  · obtain ⟨base, hb, v, hv, u, hw, h⟩ := by simpa only [except_bind_eq_ok] using h
    cases h; exact .inr ⟨base, v, u, State.readReg_eq_ok.mp hb, State.readReg_eq_ok.mp hv, hw, rfl⟩
  · exact .inl ⟨e, h⟩

theorem State.atomic64_cases {s t : State} {f : Word → Word → Word} {dst src : Reg} {off : BitVec 16} {d : FetchTo}
    (h : s.atomic64 f dst src off d = .next t) :
    (∃ e, t = s.raise e) ∨ ∃ base v old, s.reg dst = some base ∧ s.reg src = some v ∧
      s.atomicRead (effectiveAddress base off) 8 = .ok old ∧
      t = ((s.atomicWrite (effectiveAddress base off) 8 (f old v)).fetchTo d old).nextSlot := by
  rcases State.finish_eq_next.mp h with h | ⟨e, -, h⟩
  · obtain ⟨base, hb, v, hv, old, ho, h⟩ := by simpa only [except_bind_eq_ok] using h
    cases h; exact .inr ⟨base, v, old, State.readReg_eq_ok.mp hb, State.readReg_eq_ok.mp hv, ho, rfl⟩
  · exact .inl ⟨e, h⟩

theorem State.atomic32_cases {s t : State} {f : BitVec 32 → BitVec 32 → BitVec 32} {dst src : Reg} {off : BitVec 16}
    {d : FetchTo} (h : s.atomic32 f dst src off d = .next t) :
    (∃ e, t = s.raise e) ∨ ∃ base v old, s.reg dst = some base ∧ s.reg src = some v ∧
      s.atomicRead (effectiveAddress base off) 4 = .ok old ∧
      t = ((s.atomicWrite (effectiveAddress base off) 4 (zext64 (f (low32 old) (low32 v)))).fetchTo d old).nextSlot := by
  rcases State.finish_eq_next.mp h with h | ⟨e, -, h⟩
  · obtain ⟨base, hb, v, hv, old, ho, h⟩ := by simpa only [except_bind_eq_ok] using h
    obtain ⟨w, hw, hv⟩ := by simpa only [State.readLow32, except_bind_eq_ok] using hv
    cases h; cases hv
    exact .inr ⟨base, w, old, State.readReg_eq_ok.mp hb, State.readReg_eq_ok.mp hw, ho, rfl⟩
  · exact .inl ⟨e, h⟩

theorem State.compareExchange64_cases {s t : State} {dst src : Reg} {off : BitVec 16}
    (h : s.compareExchange64 dst src off = .next t) :
    (∃ e, t = s.raise e) ∨ ∃ base v c old, s.reg dst = some base ∧ s.reg src = some v ∧ s.regs.get .r0 = some c ∧
      s.atomicRead (effectiveAddress base off) 8 = .ok old ∧
      t = ((if old = c then s.atomicWrite (effectiveAddress base off) 8 v else s).setReg .r0 old).nextSlot := by
  rcases State.finish_eq_next.mp h with h | ⟨e, -, h⟩
  · obtain ⟨base, hb, v, hv, c, hc, old, ho, h⟩ := by simpa only [except_bind_eq_ok] using h
    cases h
    exact .inr ⟨base, v, c, old, State.readReg_eq_ok.mp hb, State.readReg_eq_ok.mp hv, State.readReg_eq_ok.mp hc, ho, rfl⟩
  · exact .inl ⟨e, h⟩

theorem State.compareExchange32_cases {s t : State} {dst src : Reg} {off : BitVec 16}
    (h : s.compareExchange32 dst src off = .next t) :
    (∃ e, t = s.raise e) ∨ ∃ base v c old, s.reg dst = some base ∧ s.reg src = some v ∧ s.regs.get .r0 = some c ∧
      s.atomicRead (effectiveAddress base off) 4 = .ok old ∧
      t = ((if low32 old = low32 c then s.atomicWrite (effectiveAddress base off) 4 (zext64 (low32 v)) else s).setReg .r0
        old).nextSlot := by
  rcases State.finish_eq_next.mp h with h | ⟨e, -, h⟩
  · obtain ⟨base, hb, v, hv, c, hc, old, ho, h⟩ := by simpa only [except_bind_eq_ok] using h
    obtain ⟨w, hw, hv⟩ := by simpa only [State.readLow32, except_bind_eq_ok] using hv
    obtain ⟨d, hd, hc⟩ := by simpa only [State.readLow32, except_bind_eq_ok] using hc
    cases h; cases hv; cases hc
    exact .inr ⟨base, w, d, old, State.readReg_eq_ok.mp hb, State.readReg_eq_ok.mp hw, State.readReg_eq_ok.mp hd, ho, rfl⟩
  · exact .inl ⟨e, h⟩

/-- A function that allows no answer chooses none (R185, R268). -/
theorem State.chooseAnswer_of_none (s : State) (h : Helper) (args : List Word)
    (hn : ∀ ret after, ¬ CallAllows h args s.mem ret after) : s.chooseAnswer h args = none := by
  simp only [State.chooseAnswer, HelperFunction.answers]
  rcases Relation.allowed_cases h.function (fun name a => Config.helperAnswers name a.1 a.2) (args, s.mem) with
    ⟨he, -⟩ | ⟨g, he, hb⟩
  · rw [he]
  · exact absurd ((hb (g 0)).mpr ⟨0, rfl⟩) (hn (g 0).1 (g 0).2)

/-- A function that allows an answer chooses one it allows, by the next choice, and each by some choice (R185). -/
theorem State.chooseAnswer_of_some (s : State) (h : Helper) (args : List Word)
    (ha : ∃ ret after, CallAllows h args s.mem ret after) :
    ∃ g : Nat → Word × List Host.Cell, (∀ ret after, CallAllows h args s.mem ret after ↔ ∃ n, g n = (ret, after)) ∧
      ∀ c, ({ s with callChoices := c } : State).chooseAnswer h args =
        some (g (c.next Config.callChoice).1, { s with callChoices := (c.next Config.callChoice).2 }) := by
  simp only [State.chooseAnswer, HelperFunction.answers]
  rcases Relation.allowed_cases h.function (fun name a => Config.helperAnswers name a.1 a.2) (args, s.mem) with
    ⟨he, hb⟩ | ⟨g, he, hb⟩
  · obtain ⟨ret, after, ha⟩ := ha
    exact absurd ha (hb (ret, after))
  · exact ⟨g, fun ret after => hb (ret, after), fun c => by simp only [he]⟩

/-- What a call chose (R185): an answer that its function allows, in a state that differs by the source of choices only. -/
theorem State.chooseAnswer_eq_some {s u : State} {h : Helper} {args : List Word} {ret : Word} {after : List Host.Cell}
    (hc : s.chooseAnswer h args = some ((ret, after), u)) :
    CallAllows h args s.mem ret after ∧ u = { s with callChoices := u.callChoices } := by
  by_cases ha : ∃ ret after, CallAllows h args s.mem ret after
  · obtain ⟨g, hg, he⟩ := s.chooseAnswer_of_some h args ha
    have he := he s.callChoices
    rw [show ({ s with callChoices := s.callChoices } : State) = s from rfl, hc] at he
    simp only [Option.some.injEq, Prod.mk.injEq] at he
    exact ⟨(hg ret after).mpr ⟨_, he.1.symm⟩, by rw [he.2]⟩
  · rw [s.chooseAnswer_of_none h args fun ret after h => ha ⟨ret, after, h⟩] at hc
    cases hc

theorem execCall_cases {s t : State} {imm : BitVec 32} (h : execCall imm s = .next t) :
    (∃ e, t = s.raise e) ∨ ∃ g args ret after u, helperOf s.params.helpers imm = some g ∧
      s.readArgs (argumentRegisters.take g.arity.val) = .ok args ∧
      s.chooseAnswer g args = some ((ret, after), u) ∧ t = (u.afterCall args ret after).nextSlot := by
  rcases State.finish_eq_next.mp h with h | ⟨e, -, h⟩
  · split at h
    · cases h
    · next g hg =>
      obtain ⟨args, ha, h⟩ := except_bind_eq_ok.mp h
      split at h
      · next ret after u hc => cases h; exact .inr ⟨g, args, ret, after, u, hg, ha, hc, rfl⟩
      · cases h
  · exact .inl ⟨e, h⟩

theorem execExit_cases {s t : State} (h : execExit s = .next t) :
    (∃ e, t = s.raise e) ∨ ∃ v, s.regs.get .r0 = some v ∧ t = s.exit v := by
  rcases State.finish_eq_next.mp h with h | ⟨e, -, h⟩
  · obtain ⟨v, hv, h⟩ := by simpa only [except_bind_eq_ok] using h
    cases h; exact .inr ⟨v, State.readReg_eq_ok.mp hv, rfl⟩
  · exact .inl ⟨e, h⟩

end Sys2Proof.Machine
end

