-- ==== Sys2Proof/Laws/Call.lean ====
section
/-! SUPPORT. Calls: the entry of a function number, the arguments, and what a called function leaves. -/

namespace Sys2Proof.Machine

/-- The first entry with the number is the function's (R185). -/
theorem helperOf_append (before : List Helper) (h : Helper) (later : List Helper) (imm : BitVec 32) (h1 : h.number
    = imm) (h2 : ∀ g ∈ before, g.number ≠ imm) : helperOf (before ++ h :: later) imm = some h := by
  induction before with
  | nil => simp [helperOf, h1]
  | cons g b ih =>
    simp only [List.cons_append, helperOf]
    rw [if_neg (h2 g (by simp))]
    exact ih fun g hg => h2 g (by simp [hg])

/-- A number without an entry names no function. -/
theorem helperOf_none (l : List Helper) (imm : BitVec 32) (h2 : ∀ g ∈ l, g.number ≠ imm) : helperOf l imm = none := by
  induction l with
  | nil => rfl
  | cons g b ih =>
    simp only [helperOf]
    rw [if_neg (h2 g (by simp))]
    exact ih fun g hg => h2 g (by simp [hg])

/-- Arguments that all hold a value are read in order (R185). -/
theorem State.readArgs_of_some (s : State) (l : List Gpr) (args : List Word) (hl : args.length = l.length) (h : ∀ (j :
    Nat) (r : Gpr), l[j]? = some r → s.regs.get r = args[j]?) : s.readArgs l = .ok args := by
  induction l generalizing args with
  | nil => simp at hl; subst hl; rfl
  | cons r l ih =>
    cases args with
    | nil => simp at hl
    | cons a args =>
      have h0 := h 0 r rfl
      simp only [List.getElem?_cons_zero] at h0
      rw [State.readArgs, State.readReg_of_some (r := .gpr r) h0, except_ok_bind, ih args (by simpa using hl) fun j r hr
          => by simpa using h (j+1) r (by simpa using hr)]
      rfl

/-- The first argument register without a value is what a call faults on (R271). -/
theorem State.readArgs_of_none (s : State) (l : List Gpr) (r : Gpr) (j : Nat) (hj : l[j]? = some r) (hr : s.regs.get r
    = none) (hp : ∀ i g, i < j → l[i]? = some g → s.regs.get g ≠ none) : s.readArgs l = .error (.uninitRegister r) := by
  induction l generalizing j with
  | nil => simp at hj
  | cons g l ih =>
    cases j with
    | zero => simp at hj; subst hj; rw [State.readArgs, State.readReg_of_none hr]; rfl
    | succ j =>
      obtain ⟨v, hv⟩ := Option.ne_none_iff_exists'.mp (hp 0 g (by omega) rfl)
      rw [State.readArgs, State.readReg_of_some (r := .gpr g) hv, except_ok_bind, ih j (by simpa using hj) fun i g hi hg
          => hp (i+1) g (by omega) (by simpa using hg)]
      rfl

theorem regionHolds_stack {p : Params} {x : Nat} : regionHolds p.stackRegion x = true ↔ InStack p x := by
  simp only [regionHolds, Bool.and_eq_true, decide_eq_true_eq]
  rfl

/-- Which bytes a called function may change (R185, R187). -/
theorem callMayChange_eq_true {p : Params} {args : List Word} {x : Nat} :
    callMayChange p args x = true ↔ (∃ v ∈ args, InStack p v.toNat) ∨ ¬ InStack p x := by
  simp only [callMayChange, pointsIntoStack, Bool.or_eq_true, List.any_eq_true, Bool.not_eq_true', ← Bool.not_eq_true,
    regionHolds_stack]

/-- What a called function leaves (R185, R187). -/
theorem State.afterCall_returned (s : State) (args : List Word) (ret : Word) (after : List Host.Cell) :
    Returned s
      (({ s with callChoices := (s.callChoices.next Config.callChoice).2 } : State).afterCall args ret after).nextSlot
      args ret after := by
  refine ⟨rfl, fun x h => ?_, fun x h hx => ?_⟩
  · show (s.mem.replace _ _).read x = _
    rw [Memory.read_replace, if_pos (callMayChange_eq_true.mpr h)]
  · show (s.mem.replace _ _).read x = _
    rw [Memory.read_replace, if_neg]
    rw [callMayChange_eq_true]
    rintro (⟨v, hv, hi⟩ | hn)
    · exact h v hv hi
    · exact hn hx

end Sys2Proof.Machine
end

