-- ==== Sys2Proof/Laws/Decode.lean ====
section
/-! SUPPORT. Decoding: the fields of a slot, the checks on each field, and the row of an opcode byte. -/

namespace Sys2Proof

/-- The fields of a slot built from fields are those fields (R71). -/
@[simp] theorem Fields.ofSlot_toSlot (f : Fields) : Fields.ofSlot f.toSlot = f := by
  obtain ⟨o, d, s, off, imm⟩ := f
  simp only [Fields.ofSlot, Fields.toSlot, Fields.mk.injEq]
  refine ⟨?_, ?_, ?_, ?_, ?_⟩ <;>
  · apply BitVec.eq_of_getLsbD_eq
    intro i hi
    simp only [BitVec.getLsbD_extractLsb', BitVec.getLsbD_append, hi, decide_true, Bool.true_and]
    repeat' split
    all_goals first
      | rfl
      | omega
      | (congr 1; omega)

/-- A slot is made of its fields (R71). -/
@[simp] theorem Fields.toSlot_ofSlot (w : Slot) : (Fields.ofSlot w).toSlot = w := by
  simp only [Fields.ofSlot, Fields.toSlot]
  apply BitVec.eq_of_getLsbD_eq
  intro i hi
  simp only [BitVec.getLsbD_append, BitVec.getLsbD_extractLsb']
  repeat' split
  all_goals
    rw [decide_eq_true (by omega), Bool.true_and]
    congr 1
    omega

theorem unusedField_eq_ok {w : Nat} {v : BitVec w} {u : Unit} : unusedField v = .ok u ↔ v = 0#w := by
  simp only [unusedField]
  split_ifs with h <;> simp [h]

@[simp] theorem unusedField_zero {w : Nat} : unusedField 0#w = .ok () := by
  simp [unusedField]

@[simp] theorem readField_num (r : Reg) : readField r.num = .ok r := by
  cases r with
  | gpr r => cases r <;> rfl
  | r10 => rfl

@[simp] theorem writtenField_num (r : Gpr) : writtenField r.num = .ok r := by
  cases r <;> rfl

theorem readField_eq_ok {n : BitVec 4} {r : Reg} : readField n = .ok r ↔ n = r.num := by
  constructor
  · intro h
    simp only [readField] at h
    split at h <;> cases h <;> exact BitVec.eq_of_toNat_eq ‹_›
  · rintro rfl; exact readField_num r

theorem writtenField_eq_ok {n : BitVec 4} {r : Gpr} : writtenField n = .ok r ↔ n = r.num := by
  constructor
  · intro h
    simp only [writtenField] at h
    split at h <;> cases h
    exact readField_eq_ok.mp ‹_›
  · rintro rfl; exact writtenField_num r

theorem Reg.num_toNat_le (r : Reg) : r.num.toNat ≤ 10 := by
  cases r with
  | gpr r => cases r <;> decide
  | r10 => decide

theorem Gpr.num_toNat_lt (r : Gpr) : r.num.toNat < 10 := by
  cases r <;> decide

/-- A register field above 10 names no register (R23, R83). -/
theorem readField_of_gt {n : BitVec 4} (h : 10 < n.toNat) : ∃ e, readField n = .error e := by
  cases hr : readField n with
  | error e => exact ⟨e, rfl⟩
  | ok r =>
    have := r.num_toNat_le
    rw [readField_eq_ok.mp hr] at h
    omega

/-- R10 and what is above it cannot be written (R22, R83). -/
theorem writtenField_of_ge {n : BitVec 4} (h : 10 ≤ n.toNat) : ∃ e, writtenField n = .error e := by
  cases hr : writtenField n with
  | error e => exact ⟨e, rfl⟩
  | ok r =>
    have := r.num_toNat_lt
    rw [writtenField_eq_ok.mp hr] at h
    omega

/-- A field that is used in no way and is not zero stops the decoding (R72). -/
theorem unusedField_of_ne {w : Nat} {v : BitVec w} (h : v ≠ 0#w) : unusedField v = .error .unusedFieldNotZero := by
  simp [unusedField, h]

/-- Decoding by the row of the opcode byte. -/
theorem decode_of_row {p : Params} {w : Slot} {next : Option Slot} {shape : Shape}
    (h : findRow (Fields.ofSlot w).opcode opcodeMap = some shape) :
    decode p w next = shape.operands p (Fields.ofSlot w) next := by
  simp only [decode, h]

/-- Decoding where the opcode byte has no row (R85). -/
theorem decode_of_no_row {p : Params} {w : Slot} {next : Option Slot}
    (h : findRow (Fields.ofSlot w).opcode opcodeMap = none) : decode p w next = .error .reservedOpcode := by
  simp only [decode, h]

end Sys2Proof
end

