-- ==== Sys2Proof/Laws/Step.lean ====
section
/-! SUPPORT. One step: what its parts answer. -/

namespace Sys2Proof.Machine

@[simp] theorem betweenSteps_fault (f : Fault) : betweenSteps (.fault f) = .fault f := rfl
@[simp] theorem betweenSteps_refused (q : Refusal) : betweenSteps (.refused q) = .refused q := rfl

/-- Other agents move after an instruction if the run goes on (R55). -/
theorem betweenSteps_next (t : State) : betweenSteps (.next t) = .next (if t.status = .running then t.envMove else t) := by
  simp only [betweenSteps]
  cases t.status <;> simp

/-- After a raised fault nothing moves. -/
@[simp] theorem betweenSteps_raise (s : State) (f : RaisedFault) : betweenSteps (.next (s.raise f)) = .next (s.raise f) := rfl

theorem step_of_not_running {s : State} (h : s.status ≠ .running) : step s = .fault .runEnded := by
  simp only [step, h, if_false]

/-- The fetch gives the instruction that the slots decode to (R91). -/
theorem State.fetch_of_decode {s : State} {w : Slot} {next : Option Slot} {i : Instr} (h : s.fetchSlots = .ok (w, next))
    (hd : decode s.params w next = .ok i) : s.fetch = .ok i := by
  simp only [State.fetch, h, hd]

theorem State.fetch_of_decode_error {s : State} {w : Slot} {next : Option Slot} {e : DecodeError}
    (h : s.fetchSlots = .ok (w, next)) (hd : decode s.params w next = .error e) :
    s.fetch = .error (.illegalInstruction w) := by
  simp only [State.fetch, h, hd]

theorem step_of_fetch {s : State} {i : Instr} (hs : s.status = .running) (h : s.fetch = .ok i) :
    step s = betweenSteps (exec i s) := by
  simp only [step, hs, h, if_true]

theorem step_of_fetch_error {s : State} {f : RaisedFault} (hs : s.status = .running) (h : s.fetch = .error f) :
    step s = .next (s.raise f) := by
  simp only [step, hs, h, if_true]

/-- A state that a step answers: a fault was raised by the fetch, or an instruction answered it, with a move of other agents
after it if the run goes on. -/
theorem step_cases {s t : State} (h : step s = .next t) :
    s.status = .running ∧
      ((∃ f, s.fetch = .error f ∧ t = s.raise f) ∨
        ∃ i u, s.fetch = .ok i ∧ exec i s = .next u ∧ t = if u.status = .running then u.envMove else u) := by
  by_cases hs : s.status = .running
  · refine ⟨hs, ?_⟩
    cases hf : s.fetch with
    | error f =>
      rw [step_of_fetch_error hs hf] at h
      cases h
      exact .inl ⟨f, rfl, rfl⟩
    | ok i =>
      rw [step_of_fetch hs hf] at h
      cases he : exec i s with
      | next u =>
        rw [he, betweenSteps_next] at h
        cases h
        exact .inr ⟨i, u, rfl, he, rfl⟩
      | fault f => rw [he] at h; cases h
      | refused q => rw [he] at h; cases h
  · rw [step_of_not_running hs] at h; cases h

/-- Runs compose. -/
theorem State.after_succ {s t : State} {n : Nat} :
    State.after (n + 1) s = some t ↔ ∃ u, step s = .next u ∧ State.after n u = some t := by
  simp only [State.after]
  cases step s <;> simp

/-- What every step keeps, every run keeps. -/
theorem State.after_induction {P : State → State → Prop} (refl : ∀ s, P s s) (trans : ∀ {s t u}, P s t → P t u → P s u)
    (one : ∀ {s t}, step s = .next t → P s t) {n : Nat} {s t : State} (h : State.after n s = some t) : P s t := by
  induction n generalizing s with
  | zero =>
    simp only [State.after, Option.some.injEq] at h
    subst h
    exact refl s
  | succ n ih =>
    obtain ⟨u, hu, h⟩ := State.after_succ.mp h
    exact trans (one hu) (ih h)

end Sys2Proof.Machine
end

