-- ==== Sys2Proof/Laws/Exec.lean ====
section
/-! SUPPORT. What any instruction that answers a next state may have done, said once: claims over all instructions are case
analyses of `Did`. -/

namespace Sys2Proof.Machine

/-- The register that an atomic operation gives the old value to (R222). -/
def FetchTo.written : FetchTo → List Gpr
  | .nothing => []
  | .register r => [r]

/-- What an instruction `i` that answers a next state in `s` may have done. -/
inductive Did (s : State) (i : Instr) : State → Prop
  /-- It raised a fault (R272). -/
  | raised (f : RaisedFault) : Did s i (s.raise f)
  /-- It wrote its destination register; a shift may have drawn a free value (R111, R139, R158). -/
  | computed (dst : Gpr) (v : Word) (d : Nat) : writes i = [dst] → storesTo i s = none → (∀ imm, i ≠ .call imm) →
      (isShift i = false → d = s.draws) → Did s i (({ s with draws := d } : State).setReg dst v).nextSlot
  /-- It wrote the 64-bit immediate (R250). -/
  | wide (dst : Gpr) (v : Word) : i = .lddw dst v → Did s i ((s.setReg dst v).advance 2)
  /-- It jumped, or did not (R160). -/
  | jumped (taken : Bool) (off : BitVec 16) : writes i = [] → storesTo i s = none → (∀ imm, i ≠ .call imm) →
      Did s i (s.jump taken off)
  /-- It loaded from memory (R200). -/
  | loaded (n : Nat) (dst : Gpr) (ea v : Word) (u : State) : writes i = [dst] → storesTo i s = none →
      (∀ imm, i ≠ .call imm) → s.memRead ea n = .ok (v, u) → Did s i (u.setReg dst v).nextSlot
  /-- It stored to memory (R200). -/
  | stored (n : Nat) (ea v : Word) (u : State) : writes i = [] → storesTo i s = some (ea, n) → (∀ imm, i ≠ .call imm) →
      s.memWrite ea n v = .ok u → Did s i u.nextSlot
  /-- It was an atomic operation that stored (R220). -/
  | exchanged (n : Nat) (ea old v : Word) (d : FetchTo) : writes i = d.written →
      storesTo i s = some (ea, n) → (∀ imm, i ≠ .call imm) → s.atomicRead ea n = .ok old →
      Did s i ((s.atomicWrite ea n v).fetchTo d old).nextSlot
  /-- It was a compare and exchange that did not match (R241, R242). -/
  | compared (n : Nat) (ea old : Word) : writes i = [.r0] → storesTo i s = some (ea, n) → (∀ imm, i ≠ .call imm) →
      s.atomicRead ea n = .ok old → Did s i (s.setReg .r0 old).nextSlot
  /-- It was a call whose function returned (R185). -/
  | called (imm : BitVec 32) (g : Helper) (args : List Word) (ret : Word) (after : List Host.Cell) (u : State) :
      i = .call imm → helperOf s.params.helpers imm = some g →
      s.readArgs (argumentRegisters.take g.arity.val) = .ok args → s.chooseAnswer g args = some ((ret, after), u) →
      Did s i (u.afterCall args ret after).nextSlot
  /-- It ended the run (R280). -/
  | exited (v : Word) : i = .exit → s.regs.get .r0 = some v → Did s i (s.exit v)

theorem did_alu64 {s t : State} {i : Instr} {f : Word → Word → Word} {dst : Gpr} {b : Source}
    (h : s.alu64 f dst b = .next t) (hw : writes i = [dst]) (hs : storesTo i s = none) (hc : ∀ imm, i ≠ .call imm) :
    Did s i t := by
  rcases State.alu64_cases h with ⟨e, rfl⟩ | ⟨x, y, -, -, rfl⟩
  · exact .raised e
  · exact .computed dst _ s.draws hw hs hc fun _ => rfl

theorem did_alu32 {s t : State} {i : Instr} {f : BitVec 32 → BitVec 32 → BitVec 32} {dst : Gpr} {b : Source}
    (h : s.alu32 f dst b = .next t) (hw : writes i = [dst]) (hs : storesTo i s = none) (hc : ∀ imm, i ≠ .call imm) :
    Did s i t := by
  rcases State.alu32_cases h with ⟨e, rfl⟩ | ⟨x, y, -, -, rfl⟩
  · exact .raised e
  · exact .computed dst _ s.draws hw hs hc fun _ => rfl

theorem did_unary64 {s t : State} {i : Instr} {f : Word → Word} {dst : Gpr} {b : Source}
    (h : s.unary64 f dst b = .next t) (hw : writes i = [dst]) (hs : storesTo i s = none) (hc : ∀ imm, i ≠ .call imm) :
    Did s i t := by
  rcases State.unary64_cases h with ⟨e, rfl⟩ | ⟨y, -, rfl⟩
  · exact .raised e
  · exact .computed dst _ s.draws hw hs hc fun _ => rfl

theorem did_unary32 {s t : State} {i : Instr} {f : BitVec 32 → BitVec 32} {dst : Gpr} {b : Source}
    (h : s.unary32 f dst b = .next t) (hw : writes i = [dst]) (hs : storesTo i s = none) (hc : ∀ imm, i ≠ .call imm) :
    Did s i t := by
  rcases State.unary32_cases h with ⟨e, rfl⟩ | ⟨y, -, rfl⟩
  · exact .raised e
  · exact .computed dst _ s.draws hw hs hc fun _ => rfl

theorem did_shift64 {s t : State} {i : Instr} {f : Word → Nat → Word} {dst : Gpr} {b : Source}
    (h : s.shift64 f dst b = .next t) (hw : writes i = [dst]) (hs : storesTo i s = none) (hc : ∀ imm, i ≠ .call imm)
    (hi : isShift i = true) :
    Did s i t := by
  rcases State.shift64_cases h with ⟨e, rfl⟩ | ⟨x, y, -, -, rfl⟩
  · exact .raised e
  · rw [State.shifted64_state]
    exact .computed dst _ _ hw hs hc fun hn => by rw [hi] at hn; cases hn

theorem did_shift32 {s t : State} {i : Instr} {f : BitVec 32 → Nat → BitVec 32} {dst : Gpr} {b : Source}
    (h : s.shift32 f dst b = .next t) (hw : writes i = [dst]) (hs : storesTo i s = none) (hc : ∀ imm, i ≠ .call imm)
    (hi : isShift i = true) :
    Did s i t := by
  rcases State.shift32_cases h with ⟨e, rfl⟩ | ⟨x, y, -, -, rfl⟩
  · exact .raised e
  · rw [State.shifted32_state]
    exact .computed dst _ _ hw hs hc fun hn => by rw [hi] at hn; cases hn

theorem did_byteSwap {s t : State} {i : Instr} {target : Endian} {n : Nat} {dst : Gpr}
    (h : s.byteSwap target n dst = .next t) (hw : writes i = [dst]) (hs : storesTo i s = none)
    (hc : ∀ imm, i ≠ .call imm) :
    Did s i t := by
  rcases State.byteSwap_cases h with ⟨e, rfl⟩ | ⟨v, -, rfl⟩
  · exact .raised e
  · exact .computed dst _ s.draws hw hs hc fun _ => rfl

theorem did_jump64 {s t : State} {i : Instr} {c : Word → Word → Bool} {dst : Reg} {b : Source} {off : BitVec 16}
    (h : s.jump64 c dst b off = .next t) (hw : writes i = []) (hs : storesTo i s = none) (hc : ∀ imm, i ≠ .call imm) :
    Did s i t := by
  rcases State.jump64_cases h with ⟨e, rfl⟩ | ⟨taken, rfl⟩
  · exact .raised e
  · exact .jumped taken off hw hs hc

theorem did_jump32 {s t : State} {i : Instr} {c : BitVec 32 → BitVec 32 → Bool} {dst : Reg} {b : Source}
    {off : BitVec 16} (h : s.jump32 c dst b off = .next t) (hw : writes i = []) (hs : storesTo i s = none)
    (hc : ∀ imm, i ≠ .call imm) :
    Did s i t := by
  rcases State.jump32_cases h with ⟨e, rfl⟩ | ⟨taken, rfl⟩
  · exact .raised e
  · exact .jumped taken off hw hs hc

theorem did_load {s t : State} {i : Instr} {n : Nat} {dst : Gpr} {src : Reg} {off : BitVec 16}
    (h : s.load n dst src off = .next t) (hw : writes i = [dst]) (hs : storesTo i s = none)
    (hc : ∀ imm, i ≠ .call imm) :
    Did s i t := by
  rcases State.load_cases h with ⟨e, rfl⟩ | ⟨base, v, u, -, hr, rfl⟩
  · exact .raised e
  · exact .loaded n dst _ v u hw hs hc hr

theorem did_storeImm {s t : State} {i : Instr} {n : Nat} {dst : Reg} {off : BitVec 16} {imm : BitVec 32}
    (h : s.storeImm n dst off imm = .next t) (hw : writes i = []) (hs : storesTo i s = (s.reg dst).map fun base =>
    (effectiveAddress base off, n)) (hc : ∀ imm, i ≠ .call imm) :
    Did s i t := by
  rcases State.storeImm_cases h with ⟨e, rfl⟩ | ⟨base, u, hb, hwr, rfl⟩
  · exact .raised e
  · exact .stored n _ _ u hw (by rw [hs, hb]; rfl) hc hwr

theorem did_storeReg {s t : State} {i : Instr} {n : Nat} {dst src : Reg} {off : BitVec 16}
    (h : s.storeReg n dst src off = .next t) (hw : writes i = []) (hs : storesTo i s = (s.reg dst).map fun base =>
    (effectiveAddress base off, n)) (hc : ∀ imm, i ≠ .call imm) :
    Did s i t := by
  rcases State.storeReg_cases h with ⟨e, rfl⟩ | ⟨base, v, u, hb, -, hwr, rfl⟩
  · exact .raised e
  · exact .stored n _ _ u hw (by rw [hs, hb]; rfl) hc hwr

theorem did_atomic64 {s t : State} {i : Instr} {f : Word → Word → Word} {dst src : Reg} {off : BitVec 16}
    {d : FetchTo} (h : s.atomic64 f dst src off d = .next t) (hw : writes i = d.written) (hs : storesTo i s =
    (s.reg dst).map fun base => (effectiveAddress base off, 8)) (hc : ∀ imm, i ≠ .call imm) :
    Did s i t := by
  rcases State.atomic64_cases h with ⟨e, rfl⟩ | ⟨base, v, old, hb, -, ho, rfl⟩
  · exact .raised e
  · exact .exchanged 8 _ old _ d hw (by rw [hs, hb]; rfl) hc ho

theorem did_atomic32 {s t : State} {i : Instr} {f : BitVec 32 → BitVec 32 → BitVec 32} {dst src : Reg}
    {off : BitVec 16} {d : FetchTo} (h : s.atomic32 f dst src off d = .next t) (hw : writes i = d.written)
    (hs : storesTo i s = (s.reg dst).map fun base => (effectiveAddress base off, 4)) (hc : ∀ imm, i ≠ .call imm) :
    Did s i t := by
  rcases State.atomic32_cases h with ⟨e, rfl⟩ | ⟨base, v, old, hb, -, ho, rfl⟩
  · exact .raised e
  · exact .exchanged 4 _ old _ d hw (by rw [hs, hb]; rfl) hc ho

theorem did_compareExchange64 {s t : State} {i : Instr} {dst src : Reg} {off : BitVec 16}
    (h : s.compareExchange64 dst src off = .next t) (hw : writes i = [.r0]) (hs : storesTo i s =
    (s.reg dst).map fun base => (effectiveAddress base off, 8)) (hc : ∀ imm, i ≠ .call imm) :
    Did s i t := by
  rcases State.compareExchange64_cases h with ⟨e, rfl⟩ | ⟨base, v, c, old, hb, -, -, ho, rfl⟩
  · exact .raised e
  · split
    · exact .exchanged 8 _ old v (.register .r0) hw (by rw [hs, hb]; rfl) hc ho
    · exact .compared 8 _ old hw (by rw [hs, hb]; rfl) hc ho

theorem did_compareExchange32 {s t : State} {i : Instr} {dst src : Reg} {off : BitVec 16}
    (h : s.compareExchange32 dst src off = .next t) (hw : writes i = [.r0]) (hs : storesTo i s =
    (s.reg dst).map fun base => (effectiveAddress base off, 4)) (hc : ∀ imm, i ≠ .call imm) :
    Did s i t := by
  rcases State.compareExchange32_cases h with ⟨e, rfl⟩ | ⟨base, v, c, old, hb, -, -, ho, rfl⟩
  · exact .raised e
  · split
    · exact .exchanged 4 _ old _ (.register .r0) hw (by rw [hs, hb]; rfl) hc ho
    · exact .compared 4 _ old hw (by rw [hs, hb]; rfl) hc ho

theorem did_illegal {s t : State} {i j : Instr} (h : s.illegal j = .next t) : Did s i t := by
  cases h
  exact .raised _

/-- What an instruction that answers a next state may have done. -/
theorem exec_did {i : Instr} {s t : State} (h : exec i s = .next t) : Did s i t := by
  cases i with
  | add32K dst imm => exact did_alu32 h rfl rfl (by simp)
  | add32X dst src => exact did_alu32 h rfl rfl (by simp)
  | sub32K dst imm => exact did_alu32 h rfl rfl (by simp)
  | sub32X dst src => exact did_alu32 h rfl rfl (by simp)
  | mul32K dst imm => exact did_alu32 h rfl rfl (by simp)
  | mul32X dst src => exact did_alu32 h rfl rfl (by simp)
  | div32K dst imm => exact did_alu32 h rfl rfl (by simp)
  | div32X dst src => exact did_alu32 h rfl rfl (by simp)
  | or32K dst imm => exact did_alu32 h rfl rfl (by simp)
  | or32X dst src => exact did_alu32 h rfl rfl (by simp)
  | and32K dst imm => exact did_alu32 h rfl rfl (by simp)
  | and32X dst src => exact did_alu32 h rfl rfl (by simp)
  | lsh32K dst imm => exact did_shift32 h rfl rfl (by simp) rfl
  | lsh32X dst src => exact did_shift32 h rfl rfl (by simp) rfl
  | rsh32K dst imm => exact did_shift32 h rfl rfl (by simp) rfl
  | rsh32X dst src => exact did_shift32 h rfl rfl (by simp) rfl
  | neg32K dst imm =>
    simp only [exec, execNeg32K] at h
    split at h
    · exact did_unary32 h rfl rfl (by simp)
    · split_ifs at h
      · exact did_alu32 h rfl rfl (by simp)
      · exact did_illegal h
  | neg32X dst src =>
    simp only [exec, execNeg32X] at h
    split at h
    · exact did_unary32 h rfl rfl (by simp)
    · exact did_illegal h
  | mod32K dst imm => exact did_alu32 h rfl rfl (by simp)
  | mod32X dst src => exact did_alu32 h rfl rfl (by simp)
  | xor32K dst imm => exact did_alu32 h rfl rfl (by simp)
  | xor32X dst src => exact did_alu32 h rfl rfl (by simp)
  | mov32K dst imm =>
    simp only [exec, execMov32K] at h
    exact did_unary32 h rfl rfl (by simp)
  | mov32X dst src =>
    simp only [exec, execMov32X] at h
    exact did_unary32 h rfl rfl (by simp)
  | arsh32K dst imm => exact did_shift32 h rfl rfl (by simp) rfl
  | arsh32X dst src => exact did_shift32 h rfl rfl (by simp) rfl
  | le16 dst => exact did_byteSwap h rfl rfl (by simp)
  | le32 dst => exact did_byteSwap h rfl rfl (by simp)
  | le64 dst => exact did_byteSwap h rfl rfl (by simp)
  | be16 dst => exact did_byteSwap h rfl rfl (by simp)
  | be32 dst => exact did_byteSwap h rfl rfl (by simp)
  | be64 dst => exact did_byteSwap h rfl rfl (by simp)
  | add64K dst imm => exact did_alu64 h rfl rfl (by simp)
  | add64X dst src => exact did_alu64 h rfl rfl (by simp)
  | sub64K dst imm => exact did_alu64 h rfl rfl (by simp)
  | sub64X dst src => exact did_alu64 h rfl rfl (by simp)
  | mul64K dst imm => exact did_alu64 h rfl rfl (by simp)
  | mul64X dst src => exact did_alu64 h rfl rfl (by simp)
  | div64K dst imm => exact did_alu64 h rfl rfl (by simp)
  | div64X dst src => exact did_alu64 h rfl rfl (by simp)
  | or64K dst imm => exact did_alu64 h rfl rfl (by simp)
  | or64X dst src => exact did_alu64 h rfl rfl (by simp)
  | and64K dst imm => exact did_alu64 h rfl rfl (by simp)
  | and64X dst src => exact did_alu64 h rfl rfl (by simp)
  | lsh64K dst imm => exact did_shift64 h rfl rfl (by simp) rfl
  | lsh64X dst src => exact did_shift64 h rfl rfl (by simp) rfl
  | rsh64K dst imm => exact did_shift64 h rfl rfl (by simp) rfl
  | rsh64X dst src => exact did_shift64 h rfl rfl (by simp) rfl
  | neg64K dst imm =>
    simp only [exec, execNeg64K] at h
    split at h
    · exact did_unary64 h rfl rfl (by simp)
    · split_ifs at h
      · exact did_alu64 h rfl rfl (by simp)
      · exact did_illegal h
  | neg64X dst src =>
    simp only [exec, execNeg64X] at h
    split at h
    · exact did_unary64 h rfl rfl (by simp)
    · exact did_illegal h
  | mod64K dst imm => exact did_alu64 h rfl rfl (by simp)
  | mod64X dst src => exact did_alu64 h rfl rfl (by simp)
  | xor64K dst imm => exact did_alu64 h rfl rfl (by simp)
  | xor64X dst src => exact did_alu64 h rfl rfl (by simp)
  | mov64K dst imm =>
    simp only [exec, execMov64K] at h
    exact did_unary64 h rfl rfl (by simp)
  | mov64X dst src =>
    simp only [exec, execMov64X] at h
    exact did_unary64 h rfl rfl (by simp)
  | arsh64K dst imm => exact did_shift64 h rfl rfl (by simp) rfl
  | arsh64X dst src => exact did_shift64 h rfl rfl (by simp) rfl
  | ja off =>
    cases h
    exact .jumped true off rfl rfl (by simp)
  | jeqK dst imm off => exact did_jump64 h rfl rfl (by simp)
  | jeqX dst src off => exact did_jump64 h rfl rfl (by simp)
  | jgtK dst imm off => exact did_jump64 h rfl rfl (by simp)
  | jgtX dst src off => exact did_jump64 h rfl rfl (by simp)
  | jgeK dst imm off => exact did_jump64 h rfl rfl (by simp)
  | jgeX dst src off => exact did_jump64 h rfl rfl (by simp)
  | jsetK dst imm off => exact did_jump64 h rfl rfl (by simp)
  | jsetX dst src off => exact did_jump64 h rfl rfl (by simp)
  | jneK dst imm off => exact did_jump64 h rfl rfl (by simp)
  | jneX dst src off => exact did_jump64 h rfl rfl (by simp)
  | jsgtK dst imm off => exact did_jump64 h rfl rfl (by simp)
  | jsgtX dst src off => exact did_jump64 h rfl rfl (by simp)
  | jsgeK dst imm off => exact did_jump64 h rfl rfl (by simp)
  | jsgeX dst src off => exact did_jump64 h rfl rfl (by simp)
  | jltK dst imm off => exact did_jump64 h rfl rfl (by simp)
  | jltX dst src off => exact did_jump64 h rfl rfl (by simp)
  | jleK dst imm off => exact did_jump64 h rfl rfl (by simp)
  | jleX dst src off => exact did_jump64 h rfl rfl (by simp)
  | jsltK dst imm off => exact did_jump64 h rfl rfl (by simp)
  | jsltX dst src off => exact did_jump64 h rfl rfl (by simp)
  | jsleK dst imm off => exact did_jump64 h rfl rfl (by simp)
  | jsleX dst src off => exact did_jump64 h rfl rfl (by simp)
  | call imm =>
    rcases execCall_cases h with ⟨e, rfl⟩ | ⟨g, args, ret, after, u, hg, ha, hc, rfl⟩
    · exact .raised e
    · exact .called imm g args ret after u rfl hg ha hc
  | exit =>
    rcases execExit_cases h with ⟨e, rfl⟩ | ⟨v, hv, rfl⟩
    · exact .raised e
    · exact .exited v rfl hv
  | jeq32K dst imm off => exact did_jump32 h rfl rfl (by simp)
  | jeq32X dst src off => exact did_jump32 h rfl rfl (by simp)
  | jgt32K dst imm off => exact did_jump32 h rfl rfl (by simp)
  | jgt32X dst src off => exact did_jump32 h rfl rfl (by simp)
  | jge32K dst imm off => exact did_jump32 h rfl rfl (by simp)
  | jge32X dst src off => exact did_jump32 h rfl rfl (by simp)
  | jset32K dst imm off => exact did_jump32 h rfl rfl (by simp)
  | jset32X dst src off => exact did_jump32 h rfl rfl (by simp)
  | jne32K dst imm off => exact did_jump32 h rfl rfl (by simp)
  | jne32X dst src off => exact did_jump32 h rfl rfl (by simp)
  | jsgt32K dst imm off => exact did_jump32 h rfl rfl (by simp)
  | jsgt32X dst src off => exact did_jump32 h rfl rfl (by simp)
  | jsge32K dst imm off => exact did_jump32 h rfl rfl (by simp)
  | jsge32X dst src off => exact did_jump32 h rfl rfl (by simp)
  | jlt32K dst imm off => exact did_jump32 h rfl rfl (by simp)
  | jlt32X dst src off => exact did_jump32 h rfl rfl (by simp)
  | jle32K dst imm off => exact did_jump32 h rfl rfl (by simp)
  | jle32X dst src off => exact did_jump32 h rfl rfl (by simp)
  | jslt32K dst imm off => exact did_jump32 h rfl rfl (by simp)
  | jslt32X dst src off => exact did_jump32 h rfl rfl (by simp)
  | jsle32K dst imm off => exact did_jump32 h rfl rfl (by simp)
  | jsle32X dst src off => exact did_jump32 h rfl rfl (by simp)
  | ldxw dst src off => exact did_load h rfl rfl (by simp)
  | ldxh dst src off => exact did_load h rfl rfl (by simp)
  | ldxb dst src off => exact did_load h rfl rfl (by simp)
  | ldxdw dst src off => exact did_load h rfl rfl (by simp)
  | stw dst off imm => exact did_storeImm h rfl rfl (by simp)
  | sth dst off imm => exact did_storeImm h rfl rfl (by simp)
  | stb dst off imm => exact did_storeImm h rfl rfl (by simp)
  | stdw dst off imm => exact did_storeImm h rfl rfl (by simp)
  | stxw dst src off => exact did_storeReg h rfl rfl (by simp)
  | stxh dst src off => exact did_storeReg h rfl rfl (by simp)
  | stxb dst src off => exact did_storeReg h rfl rfl (by simp)
  | stxdw dst src off => exact did_storeReg h rfl rfl (by simp)
  | aadd32 dst src off =>
    simp only [exec, execAadd32] at h
    exact did_atomic32 (d := .nothing) h rfl rfl (by simp)
  | afadd32 dst src off =>
    simp only [exec, execAfadd32] at h
    exact did_atomic32 (d := .register src) h rfl rfl (by simp)
  | aor32 dst src off =>
    simp only [exec, execAor32] at h
    exact did_atomic32 (d := .nothing) h rfl rfl (by simp)
  | afor32 dst src off =>
    simp only [exec, execAfor32] at h
    exact did_atomic32 (d := .register src) h rfl rfl (by simp)
  | aand32 dst src off =>
    simp only [exec, execAand32] at h
    exact did_atomic32 (d := .nothing) h rfl rfl (by simp)
  | afand32 dst src off =>
    simp only [exec, execAfand32] at h
    exact did_atomic32 (d := .register src) h rfl rfl (by simp)
  | axor32 dst src off =>
    simp only [exec, execAxor32] at h
    exact did_atomic32 (d := .nothing) h rfl rfl (by simp)
  | afxor32 dst src off =>
    simp only [exec, execAfxor32] at h
    exact did_atomic32 (d := .register src) h rfl rfl (by simp)
  | aadd64 dst src off =>
    simp only [exec, execAadd64] at h
    exact did_atomic64 (d := .nothing) h rfl rfl (by simp)
  | afadd64 dst src off =>
    simp only [exec, execAfadd64] at h
    exact did_atomic64 (d := .register src) h rfl rfl (by simp)
  | aor64 dst src off =>
    simp only [exec, execAor64] at h
    exact did_atomic64 (d := .nothing) h rfl rfl (by simp)
  | afor64 dst src off =>
    simp only [exec, execAfor64] at h
    exact did_atomic64 (d := .register src) h rfl rfl (by simp)
  | aand64 dst src off =>
    simp only [exec, execAand64] at h
    exact did_atomic64 (d := .nothing) h rfl rfl (by simp)
  | afand64 dst src off =>
    simp only [exec, execAfand64] at h
    exact did_atomic64 (d := .register src) h rfl rfl (by simp)
  | axor64 dst src off =>
    simp only [exec, execAxor64] at h
    exact did_atomic64 (d := .nothing) h rfl rfl (by simp)
  | afxor64 dst src off =>
    simp only [exec, execAfxor64] at h
    exact did_atomic64 (d := .register src) h rfl rfl (by simp)
  | axchg32 dst src off =>
    simp only [exec, execAxchg32] at h
    exact did_atomic32 (d := .register src) h rfl rfl (by simp)
  | axchg64 dst src off =>
    simp only [exec, execAxchg64] at h
    exact did_atomic64 (d := .register src) h rfl rfl (by simp)
  | acmpxchg32 dst src off =>
    simp only [exec, execAcmpxchg32] at h
    exact did_compareExchange32 h rfl rfl (by simp)
  | acmpxchg64 dst src off =>
    simp only [exec, execAcmpxchg64] at h
    exact did_compareExchange64 h rfl rfl (by simp)
  | lddw dst imm64 =>
    cases h
    exact .wide dst imm64 rfl
  | ldabs size dst src off imm => cases h
  | ldind size dst src off imm => cases h

/-- An instruction that is finished answers a next state, whatever it computed (R272). -/
theorem State.finish_answers (s : State) (m : Except RaisedFault State) : ∃ t, s.finish m = .next t := by
  cases m <;> exact ⟨_, rfl⟩

/-- What an instruction does to the state outside data memory, the registers it writes and `pc`. -/
theorem Did.fixed {s t : State} {i : Instr} (h : Did s i t) :
    t.fp = s.fp ∧ t.program = s.program ∧ t.params = s.params := by
  cases h with
  | raised f => exact ⟨rfl, rfl, rfl⟩
  | computed dst v d => exact ⟨rfl, rfl, rfl⟩
  | wide dst v => exact ⟨rfl, rfl, rfl⟩
  | jumped taken off => simp
  | loaded n dst ea v u _ _ _ hr =>
    obtain ⟨-, -, bs, -, -, rfl⟩ := State.memRead_cases hr
    simp only [State.atByte]
    split <;> simp
  | stored n ea v u _ _ _ hw =>
    obtain ⟨-, -, rfl⟩ := State.memWrite_cases hw
    split <;> simp
  | exchanged n ea old v d => simp
  | compared n ea old => exact ⟨rfl, rfl, rfl⟩
  | called imm g args ret after u _ _ _ hc =>
    rw [(State.chooseAnswer_eq_some hc).2]
    exact ⟨rfl, rfl, rfl⟩
  | exited v => exact ⟨rfl, rfl, rfl⟩

/-- What an instruction does to the run status: nothing, or it raised a fault, or it is `exit` (R262, R272, R280). -/
theorem Did.status {s t : State} {i : Instr} (h : Did s i t) :
    t.status = s.status ∨ (∃ f, t = s.raise f) ∨ (i = .exit ∧ ∃ v, s.regs.get .r0 = some v ∧ t = s.exit v) := by
  cases h with
  | raised f => exact .inr (.inl ⟨f, rfl⟩)
  | computed dst v d => exact .inl rfl
  | wide dst v => exact .inl rfl
  | jumped taken off => left; simp
  | loaded n dst ea v u _ _ _ hr =>
    obtain ⟨-, -, bs, -, -, rfl⟩ := State.memRead_cases hr
    left
    simp only [State.atByte]
    split <;> simp
  | stored n ea v u _ _ _ hw =>
    obtain ⟨-, -, rfl⟩ := State.memWrite_cases hw
    left; split <;> simp
  | exchanged n ea old v d => left; simp
  | compared n ea old => exact .inl rfl
  | called imm g args ret after u _ _ _ hc =>
    rw [(State.chooseAnswer_eq_some hc).2]
    exact .inl rfl
  | exited v hi hv => exact .inr (.inr ⟨hi, v, hv, rfl⟩)

end Sys2Proof.Machine
end

