-- ==== Sys2Proof/Laws/Fetch.lean ====
section
/-! SUPPORT. Fetching: the scan of PROGRAM decides which slots are first slots, and what the fetch answers there. -/

namespace Sys2Proof.Machine

/-- A slot is the first of a wide instruction exactly when its opcode byte is 0x18 (R80). -/
theorem isWide_iff (w : Slot) : isWide w = true ↔ w.toNat % 256 = 0x18 := by
  simp only [isWide, beq_iff_eq, wideOpcode, Fields.ofSlot, ← BitVec.toNat_inj, BitVec.extractLsb'_toNat]
  simp

/-- The scan past an instruction of one slot. -/
theorem firstSlotAt_cons {w : Slot} {rest : List Slot} {p : Nat} (hw : isWide w = false) :
    FirstSlotAt (w :: rest) (p + 1) ↔ FirstSlotAt rest p := by
  have hne : w.toNat % 256 ≠ 0x18 := by intro e; rw [(isWide_iff w).mpr e] at hw; cases hw
  constructor
  · have key : ∀ q, FirstSlotAt (w :: rest) q → ∀ p, q = p + 1 → FirstSlotAt rest p := by
      intro q h
      induction h with
      | zero _ => intro p hp; omega
      | basic i v hi hv hb hl ih =>
        intro p hp
        obtain rfl : i = p := by omega
        cases i with
        | zero => exact .zero (by simpa using hl)
        | succ i => exact .basic i v (ih i rfl) (by simpa using hv) hb (by simpa using hl)
      | wide i v hi hv hb hl ih =>
        intro p hp
        cases i with
        | zero => simp only [List.getElem?_cons_zero, Option.some.injEq] at hv; subst hv; exact absurd hb hne
        | succ i => 
          obtain rfl : p = i + 2 := by omega
          exact .wide i v (ih i rfl) (by simpa using hv) hb (by simp only [List.length_cons] at hl; omega)
    intro h; exact key _ h p rfl
  · intro h
    induction h with
    | zero h => exact .basic 0 w (.zero (by simp)) rfl hne (by simp; exact h)
    | basic i v hi hv hb hl ih => exact .basic (i+1) v ih (by simpa using hv) hb (by simp only [List.length_cons]; omega)
    | wide i v hi hv hb hl ih => exact .wide (i+1) v ih (by simpa using hv) hb (by simp only [List.length_cons]; omega)

/-- The scan past a wide instruction. -/
theorem firstSlotAt_wide {w x : Slot} {rest : List Slot} {p : Nat} (hw : isWide w = true) : FirstSlotAt (w :: x :: rest)
    (p+2) ↔ FirstSlotAt rest p := by
  have hne := (isWide_iff w).mp hw
  constructor
  · have key : ∀ q, FirstSlotAt (w :: x :: rest) q → (∀ p, q = p + 2 → FirstSlotAt rest p) ∧ q ≠ 1 := by
      intro q h
      induction h with
      | zero _ => exact ⟨fun p hp => by omega, by omega⟩
      | basic i v hi hv hb hl ih =>
        match i with
        | 0 => simp only [List.getElem?_cons_zero, Option.some.injEq] at hv; subst hv; exact absurd hne hb
        | 1 => exact absurd rfl ih.2
        | i+2 => refine ⟨fun p hp => ?_, by omega⟩
                 obtain rfl : p = i + 1 := by omega
                 exact .basic i v (ih.1 i rfl) (by simpa using hv) hb (by simp only [List.length_cons] at hl; omega)
      | wide i v hi hv hb hl ih =>
        match i with
        | 0 => refine ⟨fun p hp => ?_, by omega⟩
               obtain rfl : p = 0 := by omega
               exact .zero (by simp only [List.length_cons] at hl; omega)
        | 1 => exact absurd rfl ih.2
        | i+2 => refine ⟨fun p hp => ?_, by omega⟩
                 obtain rfl : p = i + 2 := by omega
                 exact .wide i v (ih.1 i rfl) (by simpa using hv) hb (by simp only [List.length_cons] at hl; omega)
    intro h; exact (key _ h).1 p rfl
  · intro h
    induction h with
    | zero h => exact .wide 0 w (.zero (by simp)) rfl hne (by simp; exact h)
    | basic i v hi hv hb hl ih => exact .basic (i+2) v ih (by simpa using hv) hb (by simp only [List.length_cons]; omega)
    | wide i v hi hv hb hl ih => exact .wide (i+2) v ih (by simpa using hv) hb (by simp only [List.length_cons]; omega)

/-- A first slot is a slot of PROGRAM. -/
theorem FirstSlotAt.lt_length {program : List Slot} {i : Nat} (h : FirstSlotAt program i) : i < program.length := by
  cases h <;> assumption

/-- The second slot of a wide instruction at index 0 is no first slot. -/
theorem not_firstSlotAt_one {w : Slot} {rest : List Slot} (hw : isWide w = true) : ¬ FirstSlotAt (w :: rest) 1 := by
  intro h
  generalize hq : 1 = q at h
  cases h with
  | zero _ => cases hq
  | basic i v hi hv hb hl => 
    obtain rfl : i = 0 := by omega
    simp only [List.getElem?_cons_zero, Option.some.injEq] at hv; subst hv; exact hb ((isWide_iff w).mp hw)
  | wide i v hi hv hb hl => omega

/-- The scan decides which indexes are first slots (R91 step 1). -/
theorem isFirstSlot_iff (program : List Slot) (i : Nat) : isFirstSlot program i = true ↔ FirstSlotAt program i := by
  induction h : program.length using Nat.strong_induction_on generalizing program i with
  | _ n ih =>
    subst h
    match program, i with
    | [], i => simp [isFirstSlot]; intro h; exact absurd (FirstSlotAt.lt_length h) (by simp)
    | w :: rest, 0 => simp [isFirstSlot]; exact .zero (by simp)
    | w :: rest, p+1 =>
      cases hw : isWide w with
      | false =>
        rw [firstSlotAt_cons hw, ← ih rest.length (by simp) rest p rfl]
        cases rest <;> cases p <;> simp [isFirstSlot, hw]
      | true =>
        match rest, p with
        | [], p => simp [isFirstSlot, hw]; intro h; exact absurd (FirstSlotAt.lt_length h) (by simp)
        | x :: rest', 0 => simp [isFirstSlot, hw]; exact not_firstSlotAt_one hw
        | x :: rest', p'+1 =>
          rw [firstSlotAt_wide hw, ← ih rest'.length (by simp) rest' p' rfl]
          cases rest <;> cases p <;> simp [isFirstSlot, hw]

/-- What the fetch gives at a first slot (R91). -/
theorem State.fetchSlots_of_first {s : State} {i : Nat} (hp : s.pc = (i : Int)) (h : FirstSlotAt s.program i) :
   ∃ w, s.program[i]? = some w ∧ s.fetchSlots = .ok (w, s.program[i+1]?) := by
  have hl := h.lt_length
  refine ⟨s.program[i], List.getElem?_eq_getElem hl, ?_⟩
  have e : s.pc.toNat = i := by omega
  simp only [State.fetchSlots, e]
  rw [if_neg (by omega), if_pos ((isFirstSlot_iff _ _).mpr h), List.getElem?_eq_getElem hl]

/-- Elsewhere the fetch raises PcFault (R266). -/
theorem State.fetchSlots_of_not_first {s : State} (h : ∀ i : Nat, s.pc = (i : Int) → ¬ FirstSlotAt s.program i) :
    s.fetchSlots = .error .pcFault := by
  simp only [State.fetchSlots]
  split
  · rfl
  · rw [if_neg]
    intro e
    exact h s.pc.toNat (by omega) ((isFirstSlot_iff _ _).mp e)

/-- Whether an index is a first slot does not depend on what follows it. -/
theorem isFirstSlot_append (pre : List Slot) (w : Slot) (rest : List Slot) :
    ∀ n, pre.length = n → isFirstSlot (pre ++ [w]) n = true → isFirstSlot (pre ++ w :: rest) n = true := by
  intro n
  induction n using Nat.strong_induction_on generalizing pre with
  | _ n ih =>
    intro hl h
    match pre, n with
    | [], 0 => rfl
    | [a], 1 => 
      by_cases ha : isWide a = true
      · simp [isFirstSlot, ha] at h
      · simp [isFirstSlot, ha]
    | a :: b :: pre, n+2 =>
      by_cases ha : isWide a = true
      · simp only [List.cons_append, isFirstSlot, ha, if_true] at h ⊢
        exact ih n (by omega) pre (by simpa using hl) h
      · simp only [List.cons_append, isFirstSlot, ha] at h ⊢
        exact ih (n+1) (by omega) (b :: pre) (by simpa using hl) h

/-- Behind zero slots, which are not wide, there is a first slot. -/
theorem isFirstSlot_zeros (n : Nat) (w : Slot) (rest : List Slot) : isFirstSlot (List.replicate n 0#64 ++ w :: rest) n
    = true := by
  induction n with
  | zero => rfl
  | succ n ih =>
    have : isWide 0#64 = false := by decide
    simp only [List.replicate_succ, List.cons_append, isFirstSlot.eq_def (0#64 :: _)]; simp only [this]; exact ih

end Sys2Proof.Machine
end

