-- ==== Sys2Proof/Laws/PerInstr.lean ====
section
/-! SUPPORT. The opcode table row of every instruction, and that the encoder writes each instruction as its row says. -/

namespace Sys2Proof.Laws.EncodedRow

/-- A row of the opcode table (`spec/opcode_table.json`): which bits of the opcode byte are fixed and to what, which other
fields must be zero, and the value of `imm` where it selects the instruction. -/
structure TableRow where
  mask : BitVec 8
  bits : BitVec 8
  dstZero : Bool
  srcZero : Bool
  offZero : Bool
  immZero : Bool
  selector : Option (BitVec 32)
  deriving DecidableEq, Repr

/-- The fields are those of an instruction of the row. -/
def TableRow.Fits (r : TableRow) (f : Fields) : Prop :=
  f.opcode &&& r.mask = r.bits ∧ (r.dstZero = true → f.dst = 0) ∧ (r.srcZero = true → f.src = 0) ∧
    (r.offZero = true → f.off = 0) ∧ (r.immZero = true → f.imm = 0) ∧ ∀ v, r.selector = some v → f.imm = v

/-- An immediate form of arithmetic. -/
def rowAluK (opcode : BitVec 8) : TableRow := ⟨0xff, opcode, false, true, true, false, none⟩

/-- A register form of arithmetic. -/
def rowAluX (opcode : BitVec 8) : TableRow := ⟨0xff, opcode, false, false, true, true, none⟩

/-- A byte swap. -/
def rowSwap (opcode : BitVec 8) (sel : BitVec 32) : TableRow := ⟨0xff, opcode, false, true, true, false, some sel⟩

/-- An immediate form of a conditional jump, or a store of an immediate. -/
def rowOffK (opcode : BitVec 8) : TableRow := ⟨0xff, opcode, false, true, false, false, none⟩

/-- A register form of a conditional jump, a load, or a store of a register. -/
def rowOffX (opcode : BitVec 8) : TableRow := ⟨0xff, opcode, false, false, false, true, none⟩

/-- An atomic operation. -/
def rowAtomic (opcode : BitVec 8) (sel : BitVec 32) : TableRow := ⟨0xff, opcode, false, false, false, false, some sel⟩

/-- The row of an instruction. -/
def row (i : Instr) : TableRow :=
  match i with
  | .add32K _ _ => rowAluK 0x04
  | .add32X _ _ => rowAluX 0x0c
  | .sub32K _ _ => rowAluK 0x14
  | .sub32X _ _ => rowAluX 0x1c
  | .mul32K _ _ => rowAluK 0x24
  | .mul32X _ _ => rowAluX 0x2c
  | .div32K _ _ => rowAluK 0x34
  | .div32X _ _ => rowAluX 0x3c
  | .or32K _ _ => rowAluK 0x44
  | .or32X _ _ => rowAluX 0x4c
  | .and32K _ _ => rowAluK 0x54
  | .and32X _ _ => rowAluX 0x5c
  | .lsh32K _ _ => rowAluK 0x64
  | .lsh32X _ _ => rowAluX 0x6c
  | .rsh32K _ _ => rowAluK 0x74
  | .rsh32X _ _ => rowAluX 0x7c
  | .neg32K _ _ => rowAluK 0x84
  | .neg32X _ _ => rowAluX 0x8c
  | .mod32K _ _ => rowAluK 0x94
  | .mod32X _ _ => rowAluX 0x9c
  | .xor32K _ _ => rowAluK 0xa4
  | .xor32X _ _ => rowAluX 0xac
  | .mov32K _ _ => rowAluK 0xb4
  | .mov32X _ _ => rowAluX 0xbc
  | .arsh32K _ _ => rowAluK 0xc4
  | .arsh32X _ _ => rowAluX 0xcc
  | .le16 _ => rowSwap 0xd4 0x10
  | .le32 _ => rowSwap 0xd4 0x20
  | .le64 _ => rowSwap 0xd4 0x40
  | .be16 _ => rowSwap 0xdc 0x10
  | .be32 _ => rowSwap 0xdc 0x20
  | .be64 _ => rowSwap 0xdc 0x40
  | .add64K _ _ => rowAluK 0x07
  | .add64X _ _ => rowAluX 0x0f
  | .sub64K _ _ => rowAluK 0x17
  | .sub64X _ _ => rowAluX 0x1f
  | .mul64K _ _ => rowAluK 0x27
  | .mul64X _ _ => rowAluX 0x2f
  | .div64K _ _ => rowAluK 0x37
  | .div64X _ _ => rowAluX 0x3f
  | .or64K _ _ => rowAluK 0x47
  | .or64X _ _ => rowAluX 0x4f
  | .and64K _ _ => rowAluK 0x57
  | .and64X _ _ => rowAluX 0x5f
  | .lsh64K _ _ => rowAluK 0x67
  | .lsh64X _ _ => rowAluX 0x6f
  | .rsh64K _ _ => rowAluK 0x77
  | .rsh64X _ _ => rowAluX 0x7f
  | .neg64K _ _ => rowAluK 0x87
  | .neg64X _ _ => rowAluX 0x8f
  | .mod64K _ _ => rowAluK 0x97
  | .mod64X _ _ => rowAluX 0x9f
  | .xor64K _ _ => rowAluK 0xa7
  | .xor64X _ _ => rowAluX 0xaf
  | .mov64K _ _ => rowAluK 0xb7
  | .mov64X _ _ => rowAluX 0xbf
  | .arsh64K _ _ => rowAluK 0xc7
  | .arsh64X _ _ => rowAluX 0xcf
  | .ja _ => ⟨0xff, 0x05, true, true, false, true, none⟩
  | .jeqK _ _ _ => rowOffK 0x15
  | .jeqX _ _ _ => rowOffX 0x1d
  | .jgtK _ _ _ => rowOffK 0x25
  | .jgtX _ _ _ => rowOffX 0x2d
  | .jgeK _ _ _ => rowOffK 0x35
  | .jgeX _ _ _ => rowOffX 0x3d
  | .jsetK _ _ _ => rowOffK 0x45
  | .jsetX _ _ _ => rowOffX 0x4d
  | .jneK _ _ _ => rowOffK 0x55
  | .jneX _ _ _ => rowOffX 0x5d
  | .jsgtK _ _ _ => rowOffK 0x65
  | .jsgtX _ _ _ => rowOffX 0x6d
  | .jsgeK _ _ _ => rowOffK 0x75
  | .jsgeX _ _ _ => rowOffX 0x7d
  | .jltK _ _ _ => rowOffK 0xa5
  | .jltX _ _ _ => rowOffX 0xad
  | .jleK _ _ _ => rowOffK 0xb5
  | .jleX _ _ _ => rowOffX 0xbd
  | .jsltK _ _ _ => rowOffK 0xc5
  | .jsltX _ _ _ => rowOffX 0xcd
  | .jsleK _ _ _ => rowOffK 0xd5
  | .jsleX _ _ _ => rowOffX 0xdd
  | .call _ => ⟨0xff, 0x85, true, true, true, false, none⟩
  | .exit => ⟨0xff, 0x95, true, true, true, true, none⟩
  | .jeq32K _ _ _ => rowOffK 0x16
  | .jeq32X _ _ _ => rowOffX 0x1e
  | .jgt32K _ _ _ => rowOffK 0x26
  | .jgt32X _ _ _ => rowOffX 0x2e
  | .jge32K _ _ _ => rowOffK 0x36
  | .jge32X _ _ _ => rowOffX 0x3e
  | .jset32K _ _ _ => rowOffK 0x46
  | .jset32X _ _ _ => rowOffX 0x4e
  | .jne32K _ _ _ => rowOffK 0x56
  | .jne32X _ _ _ => rowOffX 0x5e
  | .jsgt32K _ _ _ => rowOffK 0x66
  | .jsgt32X _ _ _ => rowOffX 0x6e
  | .jsge32K _ _ _ => rowOffK 0x76
  | .jsge32X _ _ _ => rowOffX 0x7e
  | .jlt32K _ _ _ => rowOffK 0xa6
  | .jlt32X _ _ _ => rowOffX 0xae
  | .jle32K _ _ _ => rowOffK 0xb6
  | .jle32X _ _ _ => rowOffX 0xbe
  | .jslt32K _ _ _ => rowOffK 0xc6
  | .jslt32X _ _ _ => rowOffX 0xce
  | .jsle32K _ _ _ => rowOffK 0xd6
  | .jsle32X _ _ _ => rowOffX 0xde
  | .ldxw _ _ _ => rowOffX 0x61
  | .ldxh _ _ _ => rowOffX 0x69
  | .ldxb _ _ _ => rowOffX 0x71
  | .ldxdw _ _ _ => rowOffX 0x79
  | .stw _ _ _ => rowOffK 0x62
  | .sth _ _ _ => rowOffK 0x6a
  | .stb _ _ _ => rowOffK 0x72
  | .stdw _ _ _ => rowOffK 0x7a
  | .stxw _ _ _ => rowOffX 0x63
  | .stxh _ _ _ => rowOffX 0x6b
  | .stxb _ _ _ => rowOffX 0x73
  | .stxdw _ _ _ => rowOffX 0x7b
  | .aadd32 _ _ _ => rowAtomic 0xc3 0x00
  | .afadd32 _ _ _ => rowAtomic 0xc3 0x01
  | .aor32 _ _ _ => rowAtomic 0xc3 0x40
  | .afor32 _ _ _ => rowAtomic 0xc3 0x41
  | .aand32 _ _ _ => rowAtomic 0xc3 0x50
  | .afand32 _ _ _ => rowAtomic 0xc3 0x51
  | .axor32 _ _ _ => rowAtomic 0xc3 0xa0
  | .afxor32 _ _ _ => rowAtomic 0xc3 0xa1
  | .aadd64 _ _ _ => rowAtomic 0xdb 0x00
  | .afadd64 _ _ _ => rowAtomic 0xdb 0x01
  | .aor64 _ _ _ => rowAtomic 0xdb 0x40
  | .afor64 _ _ _ => rowAtomic 0xdb 0x41
  | .aand64 _ _ _ => rowAtomic 0xdb 0x50
  | .afand64 _ _ _ => rowAtomic 0xdb 0x51
  | .axor64 _ _ _ => rowAtomic 0xdb 0xa0
  | .afxor64 _ _ _ => rowAtomic 0xdb 0xa1
  | .axchg32 _ _ _ => rowAtomic 0xc3 0xe1
  | .axchg64 _ _ _ => rowAtomic 0xdb 0xe1
  | .acmpxchg32 _ _ _ => rowAtomic 0xc3 0xf1
  | .acmpxchg64 _ _ _ => rowAtomic 0xdb 0xf1
  | .lddw _ _ => ⟨0xff, 0x18, false, true, true, true, none⟩
  | .ldabs _ _ _ _ _ => ⟨0xe7, 0x20, false, false, false, false, none⟩
  | .ldind _ _ _ _ _ => ⟨0xe7, 0x40, false, false, false, false, none⟩

/-- Whatever the parameters, the first slot that the encoder writes for the instruction is one of its row; the fields of the
wide instruction are those of WIDE_IMM_LAYOUT = source, as the table has them. -/
def Statement (i : Instr) : Prop :=
  ∀ p, i.wellFormed p = true → p.wideImm = .source → (row i).Fits (Fields.ofSlot (firstSlot p i))

/-- An instruction whose first slot is made of fields that fit. -/
theorem fits {i : Instr} (f : Fields) (h : ∀ p, firstSlot p i = f.toSlot) (hf : (row i).Fits f) : Statement i := by
  intro p _ _
  rw [h, Fields.ofSlot_toSlot]
  exact hf

theorem and_all (op : BitVec 8) : op &&& 255#8 = op :=
  BitVec.and_allOnes

theorem aluK_fits (op : BitVec 8) (d : BitVec 4) (imm : BitVec 32) : (rowAluK op).Fits ⟨op, d, 0, 0, imm⟩ := by
  simp [rowAluK, TableRow.Fits, and_all]

theorem aluX_fits (op : BitVec 8) (d r : BitVec 4) : (rowAluX op).Fits ⟨op, d, r, 0, 0⟩ := by
  simp [rowAluX, TableRow.Fits, and_all]

theorem offK_fits (op : BitVec 8) (d : BitVec 4) (off : BitVec 16) (imm : BitVec 32) : (rowOffK op).Fits ⟨op, d, 0, off, imm⟩ := by
  simp [rowOffK, TableRow.Fits, and_all]

theorem offX_fits (op : BitVec 8) (d r : BitVec 4) (off : BitVec 16) : (rowOffX op).Fits ⟨op, d, r, off, 0⟩ := by
  simp [rowOffX, TableRow.Fits, and_all]

theorem swap_fits (op : BitVec 8) (d : BitVec 4) (sel : BitVec 32) : (rowSwap op sel).Fits ⟨op, d, 0, 0, sel⟩ := by
  simp [rowSwap, TableRow.Fits, and_all]

theorem atomic_fits (op : BitVec 8) (d r : BitVec 4) (off : BitVec 16) (sel : BitVec 32) :
    (rowAtomic op sel).Fits ⟨op, d, r, off, sel⟩ := by
  simp [rowAtomic, TableRow.Fits, and_all]

theorem add32K (dst : Gpr) (imm : BitVec 32) : Statement (.add32K dst imm) :=
  fits _ (fun _ => rfl) (aluK_fits _ _ _)

theorem add32X (dst : Gpr) (src : Reg) : Statement (.add32X dst src) :=
  fits _ (fun _ => rfl) (aluX_fits _ _ _)

theorem sub32K (dst : Gpr) (imm : BitVec 32) : Statement (.sub32K dst imm) :=
  fits _ (fun _ => rfl) (aluK_fits _ _ _)

theorem sub32X (dst : Gpr) (src : Reg) : Statement (.sub32X dst src) :=
  fits _ (fun _ => rfl) (aluX_fits _ _ _)

theorem mul32K (dst : Gpr) (imm : BitVec 32) : Statement (.mul32K dst imm) :=
  fits _ (fun _ => rfl) (aluK_fits _ _ _)

theorem mul32X (dst : Gpr) (src : Reg) : Statement (.mul32X dst src) :=
  fits _ (fun _ => rfl) (aluX_fits _ _ _)

theorem div32K (dst : Gpr) (imm : BitVec 32) : Statement (.div32K dst imm) :=
  fits _ (fun _ => rfl) (aluK_fits _ _ _)

theorem div32X (dst : Gpr) (src : Reg) : Statement (.div32X dst src) :=
  fits _ (fun _ => rfl) (aluX_fits _ _ _)

theorem or32K (dst : Gpr) (imm : BitVec 32) : Statement (.or32K dst imm) :=
  fits _ (fun _ => rfl) (aluK_fits _ _ _)

theorem or32X (dst : Gpr) (src : Reg) : Statement (.or32X dst src) :=
  fits _ (fun _ => rfl) (aluX_fits _ _ _)

theorem and32K (dst : Gpr) (imm : BitVec 32) : Statement (.and32K dst imm) :=
  fits _ (fun _ => rfl) (aluK_fits _ _ _)

theorem and32X (dst : Gpr) (src : Reg) : Statement (.and32X dst src) :=
  fits _ (fun _ => rfl) (aluX_fits _ _ _)

theorem lsh32K (dst : Gpr) (imm : BitVec 32) : Statement (.lsh32K dst imm) :=
  fits _ (fun _ => rfl) (aluK_fits _ _ _)

theorem lsh32X (dst : Gpr) (src : Reg) : Statement (.lsh32X dst src) :=
  fits _ (fun _ => rfl) (aluX_fits _ _ _)

theorem rsh32K (dst : Gpr) (imm : BitVec 32) : Statement (.rsh32K dst imm) :=
  fits _ (fun _ => rfl) (aluK_fits _ _ _)

theorem rsh32X (dst : Gpr) (src : Reg) : Statement (.rsh32X dst src) :=
  fits _ (fun _ => rfl) (aluX_fits _ _ _)

theorem neg32K (dst : Gpr) (imm : BitVec 32) : Statement (.neg32K dst imm) :=
  fits _ (fun _ => rfl) (aluK_fits _ _ _)

theorem neg32X (dst : Gpr) (src : Reg) : Statement (.neg32X dst src) :=
  fits _ (fun _ => rfl) (aluX_fits _ _ _)

theorem mod32K (dst : Gpr) (imm : BitVec 32) : Statement (.mod32K dst imm) :=
  fits _ (fun _ => rfl) (aluK_fits _ _ _)

theorem mod32X (dst : Gpr) (src : Reg) : Statement (.mod32X dst src) :=
  fits _ (fun _ => rfl) (aluX_fits _ _ _)

theorem xor32K (dst : Gpr) (imm : BitVec 32) : Statement (.xor32K dst imm) :=
  fits _ (fun _ => rfl) (aluK_fits _ _ _)

theorem xor32X (dst : Gpr) (src : Reg) : Statement (.xor32X dst src) :=
  fits _ (fun _ => rfl) (aluX_fits _ _ _)

theorem mov32K (dst : Gpr) (imm : BitVec 32) : Statement (.mov32K dst imm) :=
  fits _ (fun _ => rfl) (aluK_fits _ _ _)

theorem mov32X (dst : Gpr) (src : Reg) : Statement (.mov32X dst src) :=
  fits _ (fun _ => rfl) (aluX_fits _ _ _)

theorem arsh32K (dst : Gpr) (imm : BitVec 32) : Statement (.arsh32K dst imm) :=
  fits _ (fun _ => rfl) (aluK_fits _ _ _)

theorem arsh32X (dst : Gpr) (src : Reg) : Statement (.arsh32X dst src) :=
  fits _ (fun _ => rfl) (aluX_fits _ _ _)

theorem le16 (dst : Gpr) : Statement (.le16 dst) :=
  fits _ (fun _ => rfl) (swap_fits _ _ _)

theorem le32 (dst : Gpr) : Statement (.le32 dst) :=
  fits _ (fun _ => rfl) (swap_fits _ _ _)

theorem le64 (dst : Gpr) : Statement (.le64 dst) :=
  fits _ (fun _ => rfl) (swap_fits _ _ _)

theorem be16 (dst : Gpr) : Statement (.be16 dst) :=
  fits _ (fun _ => rfl) (swap_fits _ _ _)

theorem be32 (dst : Gpr) : Statement (.be32 dst) :=
  fits _ (fun _ => rfl) (swap_fits _ _ _)

theorem be64 (dst : Gpr) : Statement (.be64 dst) :=
  fits _ (fun _ => rfl) (swap_fits _ _ _)

theorem add64K (dst : Gpr) (imm : BitVec 32) : Statement (.add64K dst imm) :=
  fits _ (fun _ => rfl) (aluK_fits _ _ _)

theorem add64X (dst : Gpr) (src : Reg) : Statement (.add64X dst src) :=
  fits _ (fun _ => rfl) (aluX_fits _ _ _)

theorem sub64K (dst : Gpr) (imm : BitVec 32) : Statement (.sub64K dst imm) :=
  fits _ (fun _ => rfl) (aluK_fits _ _ _)

theorem sub64X (dst : Gpr) (src : Reg) : Statement (.sub64X dst src) :=
  fits _ (fun _ => rfl) (aluX_fits _ _ _)

theorem mul64K (dst : Gpr) (imm : BitVec 32) : Statement (.mul64K dst imm) :=
  fits _ (fun _ => rfl) (aluK_fits _ _ _)

theorem mul64X (dst : Gpr) (src : Reg) : Statement (.mul64X dst src) :=
  fits _ (fun _ => rfl) (aluX_fits _ _ _)

theorem div64K (dst : Gpr) (imm : BitVec 32) : Statement (.div64K dst imm) :=
  fits _ (fun _ => rfl) (aluK_fits _ _ _)

theorem div64X (dst : Gpr) (src : Reg) : Statement (.div64X dst src) :=
  fits _ (fun _ => rfl) (aluX_fits _ _ _)

theorem or64K (dst : Gpr) (imm : BitVec 32) : Statement (.or64K dst imm) :=
  fits _ (fun _ => rfl) (aluK_fits _ _ _)

theorem or64X (dst : Gpr) (src : Reg) : Statement (.or64X dst src) :=
  fits _ (fun _ => rfl) (aluX_fits _ _ _)

theorem and64K (dst : Gpr) (imm : BitVec 32) : Statement (.and64K dst imm) :=
  fits _ (fun _ => rfl) (aluK_fits _ _ _)

theorem and64X (dst : Gpr) (src : Reg) : Statement (.and64X dst src) :=
  fits _ (fun _ => rfl) (aluX_fits _ _ _)

theorem lsh64K (dst : Gpr) (imm : BitVec 32) : Statement (.lsh64K dst imm) :=
  fits _ (fun _ => rfl) (aluK_fits _ _ _)

theorem lsh64X (dst : Gpr) (src : Reg) : Statement (.lsh64X dst src) :=
  fits _ (fun _ => rfl) (aluX_fits _ _ _)

theorem rsh64K (dst : Gpr) (imm : BitVec 32) : Statement (.rsh64K dst imm) :=
  fits _ (fun _ => rfl) (aluK_fits _ _ _)

theorem rsh64X (dst : Gpr) (src : Reg) : Statement (.rsh64X dst src) :=
  fits _ (fun _ => rfl) (aluX_fits _ _ _)

theorem neg64K (dst : Gpr) (imm : BitVec 32) : Statement (.neg64K dst imm) :=
  fits _ (fun _ => rfl) (aluK_fits _ _ _)

theorem neg64X (dst : Gpr) (src : Reg) : Statement (.neg64X dst src) :=
  fits _ (fun _ => rfl) (aluX_fits _ _ _)

theorem mod64K (dst : Gpr) (imm : BitVec 32) : Statement (.mod64K dst imm) :=
  fits _ (fun _ => rfl) (aluK_fits _ _ _)

theorem mod64X (dst : Gpr) (src : Reg) : Statement (.mod64X dst src) :=
  fits _ (fun _ => rfl) (aluX_fits _ _ _)

theorem xor64K (dst : Gpr) (imm : BitVec 32) : Statement (.xor64K dst imm) :=
  fits _ (fun _ => rfl) (aluK_fits _ _ _)

theorem xor64X (dst : Gpr) (src : Reg) : Statement (.xor64X dst src) :=
  fits _ (fun _ => rfl) (aluX_fits _ _ _)

theorem mov64K (dst : Gpr) (imm : BitVec 32) : Statement (.mov64K dst imm) :=
  fits _ (fun _ => rfl) (aluK_fits _ _ _)

theorem mov64X (dst : Gpr) (src : Reg) : Statement (.mov64X dst src) :=
  fits _ (fun _ => rfl) (aluX_fits _ _ _)

theorem arsh64K (dst : Gpr) (imm : BitVec 32) : Statement (.arsh64K dst imm) :=
  fits _ (fun _ => rfl) (aluK_fits _ _ _)

theorem arsh64X (dst : Gpr) (src : Reg) : Statement (.arsh64X dst src) :=
  fits _ (fun _ => rfl) (aluX_fits _ _ _)

theorem ja (off : BitVec 16) : Statement (.ja off) :=
  fits _ (fun _ => rfl) (by simp [row, TableRow.Fits])

theorem jeqK (dst : Reg) (imm : BitVec 32) (off : BitVec 16) : Statement (.jeqK dst imm off) :=
  fits _ (fun _ => rfl) (offK_fits _ _ _ _)

theorem jeqX (dst : Reg) (src : Reg) (off : BitVec 16) : Statement (.jeqX dst src off) :=
  fits _ (fun _ => rfl) (offX_fits _ _ _ _)

theorem jgtK (dst : Reg) (imm : BitVec 32) (off : BitVec 16) : Statement (.jgtK dst imm off) :=
  fits _ (fun _ => rfl) (offK_fits _ _ _ _)

theorem jgtX (dst : Reg) (src : Reg) (off : BitVec 16) : Statement (.jgtX dst src off) :=
  fits _ (fun _ => rfl) (offX_fits _ _ _ _)

theorem jgeK (dst : Reg) (imm : BitVec 32) (off : BitVec 16) : Statement (.jgeK dst imm off) :=
  fits _ (fun _ => rfl) (offK_fits _ _ _ _)

theorem jgeX (dst : Reg) (src : Reg) (off : BitVec 16) : Statement (.jgeX dst src off) :=
  fits _ (fun _ => rfl) (offX_fits _ _ _ _)

theorem jsetK (dst : Reg) (imm : BitVec 32) (off : BitVec 16) : Statement (.jsetK dst imm off) :=
  fits _ (fun _ => rfl) (offK_fits _ _ _ _)

theorem jsetX (dst : Reg) (src : Reg) (off : BitVec 16) : Statement (.jsetX dst src off) :=
  fits _ (fun _ => rfl) (offX_fits _ _ _ _)

theorem jneK (dst : Reg) (imm : BitVec 32) (off : BitVec 16) : Statement (.jneK dst imm off) :=
  fits _ (fun _ => rfl) (offK_fits _ _ _ _)

theorem jneX (dst : Reg) (src : Reg) (off : BitVec 16) : Statement (.jneX dst src off) :=
  fits _ (fun _ => rfl) (offX_fits _ _ _ _)

theorem jsgtK (dst : Reg) (imm : BitVec 32) (off : BitVec 16) : Statement (.jsgtK dst imm off) :=
  fits _ (fun _ => rfl) (offK_fits _ _ _ _)

theorem jsgtX (dst : Reg) (src : Reg) (off : BitVec 16) : Statement (.jsgtX dst src off) :=
  fits _ (fun _ => rfl) (offX_fits _ _ _ _)

theorem jsgeK (dst : Reg) (imm : BitVec 32) (off : BitVec 16) : Statement (.jsgeK dst imm off) :=
  fits _ (fun _ => rfl) (offK_fits _ _ _ _)

theorem jsgeX (dst : Reg) (src : Reg) (off : BitVec 16) : Statement (.jsgeX dst src off) :=
  fits _ (fun _ => rfl) (offX_fits _ _ _ _)

theorem jltK (dst : Reg) (imm : BitVec 32) (off : BitVec 16) : Statement (.jltK dst imm off) :=
  fits _ (fun _ => rfl) (offK_fits _ _ _ _)

theorem jltX (dst : Reg) (src : Reg) (off : BitVec 16) : Statement (.jltX dst src off) :=
  fits _ (fun _ => rfl) (offX_fits _ _ _ _)

theorem jleK (dst : Reg) (imm : BitVec 32) (off : BitVec 16) : Statement (.jleK dst imm off) :=
  fits _ (fun _ => rfl) (offK_fits _ _ _ _)

theorem jleX (dst : Reg) (src : Reg) (off : BitVec 16) : Statement (.jleX dst src off) :=
  fits _ (fun _ => rfl) (offX_fits _ _ _ _)

theorem jsltK (dst : Reg) (imm : BitVec 32) (off : BitVec 16) : Statement (.jsltK dst imm off) :=
  fits _ (fun _ => rfl) (offK_fits _ _ _ _)

theorem jsltX (dst : Reg) (src : Reg) (off : BitVec 16) : Statement (.jsltX dst src off) :=
  fits _ (fun _ => rfl) (offX_fits _ _ _ _)

theorem jsleK (dst : Reg) (imm : BitVec 32) (off : BitVec 16) : Statement (.jsleK dst imm off) :=
  fits _ (fun _ => rfl) (offK_fits _ _ _ _)

theorem jsleX (dst : Reg) (src : Reg) (off : BitVec 16) : Statement (.jsleX dst src off) :=
  fits _ (fun _ => rfl) (offX_fits _ _ _ _)

theorem call (imm : BitVec 32) : Statement (.call imm) :=
  fits _ (fun _ => rfl) (by simp [row, TableRow.Fits])

theorem exit : Statement .exit :=
  fits _ (fun _ => rfl) (by simp [row, TableRow.Fits])

theorem jeq32K (dst : Reg) (imm : BitVec 32) (off : BitVec 16) : Statement (.jeq32K dst imm off) :=
  fits _ (fun _ => rfl) (offK_fits _ _ _ _)

theorem jeq32X (dst : Reg) (src : Reg) (off : BitVec 16) : Statement (.jeq32X dst src off) :=
  fits _ (fun _ => rfl) (offX_fits _ _ _ _)

theorem jgt32K (dst : Reg) (imm : BitVec 32) (off : BitVec 16) : Statement (.jgt32K dst imm off) :=
  fits _ (fun _ => rfl) (offK_fits _ _ _ _)

theorem jgt32X (dst : Reg) (src : Reg) (off : BitVec 16) : Statement (.jgt32X dst src off) :=
  fits _ (fun _ => rfl) (offX_fits _ _ _ _)

theorem jge32K (dst : Reg) (imm : BitVec 32) (off : BitVec 16) : Statement (.jge32K dst imm off) :=
  fits _ (fun _ => rfl) (offK_fits _ _ _ _)

theorem jge32X (dst : Reg) (src : Reg) (off : BitVec 16) : Statement (.jge32X dst src off) :=
  fits _ (fun _ => rfl) (offX_fits _ _ _ _)

theorem jset32K (dst : Reg) (imm : BitVec 32) (off : BitVec 16) : Statement (.jset32K dst imm off) :=
  fits _ (fun _ => rfl) (offK_fits _ _ _ _)

theorem jset32X (dst : Reg) (src : Reg) (off : BitVec 16) : Statement (.jset32X dst src off) :=
  fits _ (fun _ => rfl) (offX_fits _ _ _ _)

theorem jne32K (dst : Reg) (imm : BitVec 32) (off : BitVec 16) : Statement (.jne32K dst imm off) :=
  fits _ (fun _ => rfl) (offK_fits _ _ _ _)

theorem jne32X (dst : Reg) (src : Reg) (off : BitVec 16) : Statement (.jne32X dst src off) :=
  fits _ (fun _ => rfl) (offX_fits _ _ _ _)

theorem jsgt32K (dst : Reg) (imm : BitVec 32) (off : BitVec 16) : Statement (.jsgt32K dst imm off) :=
  fits _ (fun _ => rfl) (offK_fits _ _ _ _)

theorem jsgt32X (dst : Reg) (src : Reg) (off : BitVec 16) : Statement (.jsgt32X dst src off) :=
  fits _ (fun _ => rfl) (offX_fits _ _ _ _)

theorem jsge32K (dst : Reg) (imm : BitVec 32) (off : BitVec 16) : Statement (.jsge32K dst imm off) :=
  fits _ (fun _ => rfl) (offK_fits _ _ _ _)

theorem jsge32X (dst : Reg) (src : Reg) (off : BitVec 16) : Statement (.jsge32X dst src off) :=
  fits _ (fun _ => rfl) (offX_fits _ _ _ _)

theorem jlt32K (dst : Reg) (imm : BitVec 32) (off : BitVec 16) : Statement (.jlt32K dst imm off) :=
  fits _ (fun _ => rfl) (offK_fits _ _ _ _)

theorem jlt32X (dst : Reg) (src : Reg) (off : BitVec 16) : Statement (.jlt32X dst src off) :=
  fits _ (fun _ => rfl) (offX_fits _ _ _ _)

theorem jle32K (dst : Reg) (imm : BitVec 32) (off : BitVec 16) : Statement (.jle32K dst imm off) :=
  fits _ (fun _ => rfl) (offK_fits _ _ _ _)

theorem jle32X (dst : Reg) (src : Reg) (off : BitVec 16) : Statement (.jle32X dst src off) :=
  fits _ (fun _ => rfl) (offX_fits _ _ _ _)

theorem jslt32K (dst : Reg) (imm : BitVec 32) (off : BitVec 16) : Statement (.jslt32K dst imm off) :=
  fits _ (fun _ => rfl) (offK_fits _ _ _ _)

theorem jslt32X (dst : Reg) (src : Reg) (off : BitVec 16) : Statement (.jslt32X dst src off) :=
  fits _ (fun _ => rfl) (offX_fits _ _ _ _)

theorem jsle32K (dst : Reg) (imm : BitVec 32) (off : BitVec 16) : Statement (.jsle32K dst imm off) :=
  fits _ (fun _ => rfl) (offK_fits _ _ _ _)

theorem jsle32X (dst : Reg) (src : Reg) (off : BitVec 16) : Statement (.jsle32X dst src off) :=
  fits _ (fun _ => rfl) (offX_fits _ _ _ _)

theorem ldxw (dst : Gpr) (src : Reg) (off : BitVec 16) : Statement (.ldxw dst src off) :=
  fits _ (fun _ => rfl) (offX_fits _ _ _ _)

theorem ldxh (dst : Gpr) (src : Reg) (off : BitVec 16) : Statement (.ldxh dst src off) :=
  fits _ (fun _ => rfl) (offX_fits _ _ _ _)

theorem ldxb (dst : Gpr) (src : Reg) (off : BitVec 16) : Statement (.ldxb dst src off) :=
  fits _ (fun _ => rfl) (offX_fits _ _ _ _)

theorem ldxdw (dst : Gpr) (src : Reg) (off : BitVec 16) : Statement (.ldxdw dst src off) :=
  fits _ (fun _ => rfl) (offX_fits _ _ _ _)

theorem stw (dst : Reg) (off : BitVec 16) (imm : BitVec 32) : Statement (.stw dst off imm) :=
  fits _ (fun _ => rfl) (offK_fits _ _ _ _)

theorem sth (dst : Reg) (off : BitVec 16) (imm : BitVec 32) : Statement (.sth dst off imm) :=
  fits _ (fun _ => rfl) (offK_fits _ _ _ _)

theorem stb (dst : Reg) (off : BitVec 16) (imm : BitVec 32) : Statement (.stb dst off imm) :=
  fits _ (fun _ => rfl) (offK_fits _ _ _ _)

theorem stdw (dst : Reg) (off : BitVec 16) (imm : BitVec 32) : Statement (.stdw dst off imm) :=
  fits _ (fun _ => rfl) (offK_fits _ _ _ _)

theorem stxw (dst : Reg) (src : Reg) (off : BitVec 16) : Statement (.stxw dst src off) :=
  fits _ (fun _ => rfl) (offX_fits _ _ _ _)

theorem stxh (dst : Reg) (src : Reg) (off : BitVec 16) : Statement (.stxh dst src off) :=
  fits _ (fun _ => rfl) (offX_fits _ _ _ _)

theorem stxb (dst : Reg) (src : Reg) (off : BitVec 16) : Statement (.stxb dst src off) :=
  fits _ (fun _ => rfl) (offX_fits _ _ _ _)

theorem stxdw (dst : Reg) (src : Reg) (off : BitVec 16) : Statement (.stxdw dst src off) :=
  fits _ (fun _ => rfl) (offX_fits _ _ _ _)

theorem aadd32 (dst : Reg) (src : Reg) (off : BitVec 16) : Statement (.aadd32 dst src off) :=
  fits _ (fun _ => rfl) (atomic_fits _ _ _ _ _)

theorem afadd32 (dst : Reg) (src : Gpr) (off : BitVec 16) : Statement (.afadd32 dst src off) :=
  fits _ (fun _ => rfl) (atomic_fits _ _ _ _ _)

theorem aor32 (dst : Reg) (src : Reg) (off : BitVec 16) : Statement (.aor32 dst src off) :=
  fits _ (fun _ => rfl) (atomic_fits _ _ _ _ _)

theorem afor32 (dst : Reg) (src : Gpr) (off : BitVec 16) : Statement (.afor32 dst src off) :=
  fits _ (fun _ => rfl) (atomic_fits _ _ _ _ _)

theorem aand32 (dst : Reg) (src : Reg) (off : BitVec 16) : Statement (.aand32 dst src off) :=
  fits _ (fun _ => rfl) (atomic_fits _ _ _ _ _)

theorem afand32 (dst : Reg) (src : Gpr) (off : BitVec 16) : Statement (.afand32 dst src off) :=
  fits _ (fun _ => rfl) (atomic_fits _ _ _ _ _)

theorem axor32 (dst : Reg) (src : Reg) (off : BitVec 16) : Statement (.axor32 dst src off) :=
  fits _ (fun _ => rfl) (atomic_fits _ _ _ _ _)

theorem afxor32 (dst : Reg) (src : Gpr) (off : BitVec 16) : Statement (.afxor32 dst src off) :=
  fits _ (fun _ => rfl) (atomic_fits _ _ _ _ _)

theorem aadd64 (dst : Reg) (src : Reg) (off : BitVec 16) : Statement (.aadd64 dst src off) :=
  fits _ (fun _ => rfl) (atomic_fits _ _ _ _ _)

theorem afadd64 (dst : Reg) (src : Gpr) (off : BitVec 16) : Statement (.afadd64 dst src off) :=
  fits _ (fun _ => rfl) (atomic_fits _ _ _ _ _)

theorem aor64 (dst : Reg) (src : Reg) (off : BitVec 16) : Statement (.aor64 dst src off) :=
  fits _ (fun _ => rfl) (atomic_fits _ _ _ _ _)

theorem afor64 (dst : Reg) (src : Gpr) (off : BitVec 16) : Statement (.afor64 dst src off) :=
  fits _ (fun _ => rfl) (atomic_fits _ _ _ _ _)

theorem aand64 (dst : Reg) (src : Reg) (off : BitVec 16) : Statement (.aand64 dst src off) :=
  fits _ (fun _ => rfl) (atomic_fits _ _ _ _ _)

theorem afand64 (dst : Reg) (src : Gpr) (off : BitVec 16) : Statement (.afand64 dst src off) :=
  fits _ (fun _ => rfl) (atomic_fits _ _ _ _ _)

theorem axor64 (dst : Reg) (src : Reg) (off : BitVec 16) : Statement (.axor64 dst src off) :=
  fits _ (fun _ => rfl) (atomic_fits _ _ _ _ _)

theorem afxor64 (dst : Reg) (src : Gpr) (off : BitVec 16) : Statement (.afxor64 dst src off) :=
  fits _ (fun _ => rfl) (atomic_fits _ _ _ _ _)

theorem axchg32 (dst : Reg) (src : Gpr) (off : BitVec 16) : Statement (.axchg32 dst src off) :=
  fits _ (fun _ => rfl) (atomic_fits _ _ _ _ _)

theorem axchg64 (dst : Reg) (src : Gpr) (off : BitVec 16) : Statement (.axchg64 dst src off) :=
  fits _ (fun _ => rfl) (atomic_fits _ _ _ _ _)

theorem acmpxchg32 (dst : Reg) (src : Reg) (off : BitVec 16) : Statement (.acmpxchg32 dst src off) :=
  fits _ (fun _ => rfl) (atomic_fits _ _ _ _ _)

theorem acmpxchg64 (dst : Reg) (src : Reg) (off : BitVec 16) : Statement (.acmpxchg64 dst src off) :=
  fits _ (fun _ => rfl) (atomic_fits _ _ _ _ _)

theorem lddw (dst : Gpr) (imm64 : Word) : Statement (.lddw dst imm64) := by
  intro p _ hs
  simp [row, firstSlot, encode, slotsWide, hs, slotK, wideOpcode, TableRow.Fits]

theorem ldabs (size : Size) (dst : BitVec 4) (src : BitVec 4) (off : BitVec 16) (imm : BitVec 32) : Statement (.ldabs size dst src off imm) :=
  fits _ (fun _ => rfl) (by cases size <;> simp [row, TableRow.Fits] <;> decide)

theorem ldind (size : Size) (dst : BitVec 4) (src : BitVec 4) (off : BitVec 16) (imm : BitVec 32) : Statement (.ldind size dst src off imm) :=
  fits _ (fun _ => rfl) (by cases size <;> simp [row, TableRow.Fits] <;> decide)

end Sys2Proof.Laws.EncodedRow
end

