-- ==== Sys2Proof/Tests/Slice0.lean ====
section
/-! SUPPORT. Tests: the check of well-formed instructions, decoding of words written out from `30_encoding.md` and
`spec/opcode_table.json`, one-step results from `95_test_vectors.md`, and for every statement with hypotheses a witness that
meets them. -/

namespace Sys2Proof.Tests

open Sys2Proof Sys2Proof.Machine

/-! Well-formed instructions: each check refuses an ill-formed term. -/

/-- The defaults with NEG_READING = negate_dst. -/
def negateDst : Params := { Params.default with negReading := .negateDst }

theorem test_wellFormed_neg_imm_refused :
    (Instr.neg32K .r1 1).wellFormed negateDst = false ∧ (Instr.neg64K .r1 1).wellFormed negateDst = false := by decide

theorem test_wellFormed_neg_reg_refused :
    (Instr.neg32X .r1 .r10).wellFormed negateDst = false ∧ (Instr.neg64X .r1 .r10).wellFormed negateDst = false := by decide

theorem test_wellFormed_neg_accepted :
    (Instr.neg32K .r1 0).wellFormed negateDst = true ∧ (Instr.neg64K .r1 1).wellFormed Params.default = true ∧
      (Instr.neg32X .r1 .r10).wellFormed Params.default = true := by decide

/-! Decoding: one word of every row of the opcode table, its fields at the places that R71 gives them. -/

/-- Every word decodes to its instruction. -/
def decodes (rows : List (Nat × Instr)) : Bool :=
  rows.all fun c => decide (decodeTableWord 64 c.1 = some c.2)

theorem test_decode_alu32_imm : decodes [
    (0x89abcdef00000304, .add32K .r3 0x89abcdef), (0x89abcdef00000314, .sub32K .r3 0x89abcdef),
    (0x89abcdef00000324, .mul32K .r3 0x89abcdef), (0x89abcdef00000334, .div32K .r3 0x89abcdef),
    (0x89abcdef00000344, .or32K .r3 0x89abcdef), (0x89abcdef00000354, .and32K .r3 0x89abcdef),
    (0x89abcdef00000364, .lsh32K .r3 0x89abcdef), (0x89abcdef00000374, .rsh32K .r3 0x89abcdef),
    (0x89abcdef00000384, .neg32K .r3 0x89abcdef), (0x89abcdef00000394, .mod32K .r3 0x89abcdef),
    (0x89abcdef000003a4, .xor32K .r3 0x89abcdef), (0x89abcdef000003b4, .mov32K .r3 0x89abcdef),
    (0x89abcdef000003c4, .arsh32K .r3 0x89abcdef)] = true := by decide

theorem test_decode_alu32_reg : decodes [
    (0x000000000000a30c, .add32X .r3 .r10), (0x000000000000a31c, .sub32X .r3 .r10),
    (0x000000000000a32c, .mul32X .r3 .r10), (0x000000000000a33c, .div32X .r3 .r10),
    (0x000000000000a34c, .or32X .r3 .r10), (0x000000000000a35c, .and32X .r3 .r10),
    (0x000000000000a36c, .lsh32X .r3 .r10), (0x000000000000a37c, .rsh32X .r3 .r10),
    (0x000000000000a38c, .neg32X .r3 .r10), (0x000000000000a39c, .mod32X .r3 .r10),
    (0x000000000000a3ac, .xor32X .r3 .r10), (0x000000000000a3bc, .mov32X .r3 .r10),
    (0x000000000000a3cc, .arsh32X .r3 .r10)] = true := by decide

theorem test_decode_end : decodes [
    (0x00000010000003d4, .le16 .r3), (0x00000020000003d4, .le32 .r3), (0x00000040000003d4, .le64 .r3),
    (0x00000010000003dc, .be16 .r3), (0x00000020000003dc, .be32 .r3), (0x00000040000003dc, .be64 .r3)] = true := by decide

theorem test_decode_alu64_imm : decodes [
    (0x89abcdef00000307, .add64K .r3 0x89abcdef), (0x89abcdef00000317, .sub64K .r3 0x89abcdef),
    (0x89abcdef00000327, .mul64K .r3 0x89abcdef), (0x89abcdef00000337, .div64K .r3 0x89abcdef),
    (0x89abcdef00000347, .or64K .r3 0x89abcdef), (0x89abcdef00000357, .and64K .r3 0x89abcdef),
    (0x89abcdef00000367, .lsh64K .r3 0x89abcdef), (0x89abcdef00000377, .rsh64K .r3 0x89abcdef),
    (0x89abcdef00000387, .neg64K .r3 0x89abcdef), (0x89abcdef00000397, .mod64K .r3 0x89abcdef),
    (0x89abcdef000003a7, .xor64K .r3 0x89abcdef), (0x89abcdef000003b7, .mov64K .r3 0x89abcdef),
    (0x89abcdef000003c7, .arsh64K .r3 0x89abcdef)] = true := by decide

theorem test_decode_alu64_reg : decodes [
    (0x000000000000a30f, .add64X .r3 .r10), (0x000000000000a31f, .sub64X .r3 .r10),
    (0x000000000000a32f, .mul64X .r3 .r10), (0x000000000000a33f, .div64X .r3 .r10),
    (0x000000000000a34f, .or64X .r3 .r10), (0x000000000000a35f, .and64X .r3 .r10),
    (0x000000000000a36f, .lsh64X .r3 .r10), (0x000000000000a37f, .rsh64X .r3 .r10),
    (0x000000000000a38f, .neg64X .r3 .r10), (0x000000000000a39f, .mod64X .r3 .r10),
    (0x000000000000a3af, .xor64X .r3 .r10), (0x000000000000a3bf, .mov64X .r3 .r10),
    (0x000000000000a3cf, .arsh64X .r3 .r10)] = true := by decide

theorem test_decode_jump_imm : decodes [
    (0x00000000fff80005, .ja 0xfff8), (0x89abcdeffff80a15, .jeqK .r10 0x89abcdef 0xfff8),
    (0x89abcdeffff80a25, .jgtK .r10 0x89abcdef 0xfff8), (0x89abcdeffff80a35, .jgeK .r10 0x89abcdef 0xfff8),
    (0x89abcdeffff80a45, .jsetK .r10 0x89abcdef 0xfff8), (0x89abcdeffff80a55, .jneK .r10 0x89abcdef 0xfff8),
    (0x89abcdeffff80a65, .jsgtK .r10 0x89abcdef 0xfff8), (0x89abcdeffff80a75, .jsgeK .r10 0x89abcdef 0xfff8),
    (0x89abcdeffff80aa5, .jltK .r10 0x89abcdef 0xfff8), (0x89abcdeffff80ab5, .jleK .r10 0x89abcdef 0xfff8),
    (0x89abcdeffff80ac5, .jsltK .r10 0x89abcdef 0xfff8), (0x89abcdeffff80ad5, .jsleK .r10 0x89abcdef 0xfff8)] = true := by decide

theorem test_decode_jump_reg : decodes [
    (0x00000000fff8aa1d, .jeqX .r10 .r10 0xfff8), (0x00000000fff8aa2d, .jgtX .r10 .r10 0xfff8),
    (0x00000000fff8aa3d, .jgeX .r10 .r10 0xfff8), (0x00000000fff8aa4d, .jsetX .r10 .r10 0xfff8),
    (0x00000000fff8aa5d, .jneX .r10 .r10 0xfff8), (0x00000000fff8aa6d, .jsgtX .r10 .r10 0xfff8),
    (0x00000000fff8aa7d, .jsgeX .r10 .r10 0xfff8), (0x00000000fff8aaad, .jltX .r10 .r10 0xfff8),
    (0x00000000fff8aabd, .jleX .r10 .r10 0xfff8), (0x00000000fff8aacd, .jsltX .r10 .r10 0xfff8),
    (0x00000000fff8aadd, .jsleX .r10 .r10 0xfff8)] = true := by decide

theorem test_decode_call_exit : decodes [
    (0x89abcdef00000085, .call 0x89abcdef), (0x0000000000000095, .exit)] = true := by decide

theorem test_decode_jump32_imm : decodes [
    (0x89abcdeffff80a16, .jeq32K .r10 0x89abcdef 0xfff8), (0x89abcdeffff80a26, .jgt32K .r10 0x89abcdef 0xfff8),
    (0x89abcdeffff80a36, .jge32K .r10 0x89abcdef 0xfff8), (0x89abcdeffff80a46, .jset32K .r10 0x89abcdef 0xfff8),
    (0x89abcdeffff80a56, .jne32K .r10 0x89abcdef 0xfff8), (0x89abcdeffff80a66, .jsgt32K .r10 0x89abcdef 0xfff8),
    (0x89abcdeffff80a76, .jsge32K .r10 0x89abcdef 0xfff8), (0x89abcdeffff80aa6, .jlt32K .r10 0x89abcdef 0xfff8),
    (0x89abcdeffff80ab6, .jle32K .r10 0x89abcdef 0xfff8), (0x89abcdeffff80ac6, .jslt32K .r10 0x89abcdef 0xfff8),
    (0x89abcdeffff80ad6, .jsle32K .r10 0x89abcdef 0xfff8)] = true := by decide

theorem test_decode_jump32_reg : decodes [
    (0x00000000fff8aa1e, .jeq32X .r10 .r10 0xfff8), (0x00000000fff8aa2e, .jgt32X .r10 .r10 0xfff8),
    (0x00000000fff8aa3e, .jge32X .r10 .r10 0xfff8), (0x00000000fff8aa4e, .jset32X .r10 .r10 0xfff8),
    (0x00000000fff8aa5e, .jne32X .r10 .r10 0xfff8), (0x00000000fff8aa6e, .jsgt32X .r10 .r10 0xfff8),
    (0x00000000fff8aa7e, .jsge32X .r10 .r10 0xfff8), (0x00000000fff8aaae, .jlt32X .r10 .r10 0xfff8),
    (0x00000000fff8aabe, .jle32X .r10 .r10 0xfff8), (0x00000000fff8aace, .jslt32X .r10 .r10 0xfff8),
    (0x00000000fff8aade, .jsle32X .r10 .r10 0xfff8)] = true := by decide

theorem test_decode_load_store : decodes [
    (0x00000000fff8a361, .ldxw .r3 .r10 0xfff8), (0x00000000fff8a369, .ldxh .r3 .r10 0xfff8),
    (0x00000000fff8a371, .ldxb .r3 .r10 0xfff8), (0x00000000fff8a379, .ldxdw .r3 .r10 0xfff8),
    (0x89abcdeffff80a62, .stw .r10 0xfff8 0x89abcdef), (0x89abcdeffff80a6a, .sth .r10 0xfff8 0x89abcdef),
    (0x89abcdeffff80a72, .stb .r10 0xfff8 0x89abcdef), (0x89abcdeffff80a7a, .stdw .r10 0xfff8 0x89abcdef),
    (0x00000000fff8aa63, .stxw .r10 .r10 0xfff8), (0x00000000fff8aa6b, .stxh .r10 .r10 0xfff8),
    (0x00000000fff8aa73, .stxb .r10 .r10 0xfff8), (0x00000000fff8aa7b, .stxdw .r10 .r10 0xfff8)] = true := by decide

theorem test_decode_atomic32 : decodes [
    (0x00000000fff8aac3, .aadd32 .r10 .r10 0xfff8), (0x00000001fff87ac3, .afadd32 .r10 .r7 0xfff8),
    (0x00000040fff8aac3, .aor32 .r10 .r10 0xfff8), (0x00000041fff87ac3, .afor32 .r10 .r7 0xfff8),
    (0x00000050fff8aac3, .aand32 .r10 .r10 0xfff8), (0x00000051fff87ac3, .afand32 .r10 .r7 0xfff8),
    (0x000000a0fff8aac3, .axor32 .r10 .r10 0xfff8), (0x000000a1fff87ac3, .afxor32 .r10 .r7 0xfff8),
    (0x000000e1fff87ac3, .axchg32 .r10 .r7 0xfff8), (0x000000f1fff8aac3, .acmpxchg32 .r10 .r10 0xfff8)] = true := by decide

theorem test_decode_atomic64 : decodes [
    (0x00000000fff8aadb, .aadd64 .r10 .r10 0xfff8), (0x00000001fff87adb, .afadd64 .r10 .r7 0xfff8),
    (0x00000040fff8aadb, .aor64 .r10 .r10 0xfff8), (0x00000041fff87adb, .afor64 .r10 .r7 0xfff8),
    (0x00000050fff8aadb, .aand64 .r10 .r10 0xfff8), (0x00000051fff87adb, .afand64 .r10 .r7 0xfff8),
    (0x000000a0fff8aadb, .axor64 .r10 .r10 0xfff8), (0x000000a1fff87adb, .afxor64 .r10 .r7 0xfff8),
    (0x000000e1fff87adb, .axchg64 .r10 .r7 0xfff8), (0x000000f1fff8aadb, .acmpxchg64 .r10 .r10 0xfff8)] = true := by decide

/-- The wide instruction (R79, R250): the second slot is the operand. -/
theorem test_decode_wide :
    decodeTableWord 128 0x11223344556677880000000000000318 = some (.lddw .r3 0x1122334455667788) := by decide

/-- The legacy bytes (R255, R256), whatever their other fields hold: packet access of each size. -/
theorem test_decode_legacy : decodes [
    (0x89abcdeffff8fe20, .ldabs .w 0xe 0xf 0xfff8 0x89abcdef), (0x28, .ldabs .h 0 0 0 0), (0x30, .ldabs .b 0 0 0 0),
    (0x38, .ldabs .dw 0 0 0 0), (0x89abcdeffff8fe40, .ldind .w 0xe 0xf 0xfff8 0x89abcdef), (0x48, .ldind .h 0 0 0 0),
    (0x50, .ldind .b 0 0 0 0), (0x58, .ldind .dw 0 0 0 0)] = true := by decide

/-- Slots that are no instruction, each refused by its name (R72, R83, R85, R150, R243, R250, R253). -/
theorem test_decode_refuses :
    decode Params.default 0x0000000100002107 none = .error .unusedFieldNotZero ∧
    decode Params.default 0x0000000100000bb7 none = .error .registerAbove10 ∧
    decode Params.default 0x0000000000000ab7 none = .error .writesR10 ∧
    decode Params.default 0x00000001000001e7 none = .error .reservedOpcode ∧
    decode Params.default 0x00000008000001d4 none = .error .badSelector ∧
    decode Params.default 0x0000000000000118 none = .error .missingSecondSlot ∧
    decode { Params.default with wideImm := .split32 } 0x0000000000000118 (some 1) = .error .secondSlotNotZero := by decide

/-! One step on a small state, from `95_test_vectors.md` section 2 (and S16 of section 1). -/

def bigEndian : Params := { Params.default with hostEndian := .big }

def anyAlignment : Params := { Params.default with alignStrict := false }

def split32 : Params := { Params.default with wideImm := .split32 }

/-- A state at slot `pc` in which only the listed registers and bytes hold a value. -/
def stateOf (p : Params) (pc : Int) (regs : List (Gpr × Word)) (mem : List (Nat × List Byte)) : State :=
  { State.entry p [] [] [] [] with
    regs := regs.foldl (fun g c => g.set c.1 c.2) State.reset.regs
    pc := pc
    mem := mem.foldl (fun m c => m.writeBytes c.1 c.2) [] }

/-- The step that runs the word `w` leaves the run going at slot `pc`, with the listed registers and bytes changed and no
others. -/
def computes (s : State) (w : Nat) (pc : Int) (regs : List (Gpr × Word)) (mem : List (Nat × List Byte)) : Bool :=
  match step (s.withFetchWord 128 w) with
  | .next t =>
    decide (t.status = .running) && decide (t.pc = pc) && decide (t.regs = regs.foldl (fun g c => g.set c.1 c.2) s.regs) &&
      decide (t.mem = mem.foldl (fun m c => m.writeBytes c.1 c.2) s.mem)
  | _ => false

/-- The step that runs the word `w` raises the fault and changes no register and no byte. -/
def faults (s : State) (w : Nat) (f : RaisedFault) : Bool :=
  match step (s.withFetchWord 128 w) with
  | .next t => decide (t.status = .faulted f s.pc) && decide (t.regs = s.regs) && decide (t.mem = s.mem)
  | _ => false

/-- The step that runs the word `w` refuses it. -/
def refuses (s : State) (w : Nat) : Bool :=
  match step (s.withFetchWord 128 w) with
  | .refused (.legacyPacketAccess p) => decide (p = s.pc)
  | _ => false

theorem test_add_sub : [
    computes (stateOf Params.default 0 [(.r1, 0xffffffffffffffff), (.r2, 0x2)] []) 0x210f 1 [(.r1, 0x1)] [],
    computes (stateOf Params.default 0 [(.r1, 0x5)] []) 0xffffffff00000107 1 [(.r1, 0x4)] [],
    computes (stateOf Params.default 0 [(.r1, 0x500000000)] []) 0xffffffff00000104 1 [(.r1, 0xffffffff)] [],
    computes (stateOf Params.default 0 [(.r1, 0xffffffff), (.r2, 0x1)] []) 0x210c 1 [(.r1, 0x0)] [],
    computes (stateOf Params.default 0 [(.r1, 0x1234)] []) 0x111f 1 [(.r1, 0x0)] [],
    computes (stateOf Params.default 0 [(.r1, 0x0)] []) 0x100000114 1 [(.r1, 0xffffffff)] []].all id = true := by decide

theorem test_mul : [
    computes (stateOf Params.default 0 [(.r1, 0x3)] []) 0xffffffff00000127 1 [(.r1, 0xfffffffffffffffd)] [],
    computes (stateOf Params.default 0 [(.r1, 0x80000000), (.r2, 0x2)] []) 0x212c 1 [(.r1, 0x0)] []].all id = true := by decide

theorem test_div_mod : [
    computes (stateOf Params.default 0 [(.r1, 0xaaaaaaaa00000007), (.r2, 0x0)] []) 0x213f 1 [(.r1, 0x0)] [],
    computes (stateOf Params.default 0 [(.r1, 0xaaaaaaaa00000007)] []) 0x137 1 [(.r1, 0x0)] [],
    computes (stateOf Params.default 0 [(.r1, 0xfffffffffffffffe)] []) 0xffffffff00000137 1 [(.r1, 0x0)] [],
    computes (stateOf Params.default 0 [(.r1, 0xffffffff)] []) 0xffffffff00000134 1 [(.r1, 0x1)] [],
    computes (stateOf Params.default 0 [(.r1, 0xaaaaaaaa00000007), (.r2, 0x100000000)] []) 0x213c 1 [(.r1, 0x0)] [],
    computes (stateOf Params.default 0 [(.r1, 0x64), (.r2, 0x7)] []) 0x213f 1 [(.r1, 0xe)] [],
    computes (stateOf Params.default 0 [(.r1, 0xaaaaaaaa00000007), (.r2, 0x0)] []) 0x219f 1 [] [],
    computes (stateOf Params.default 0 [(.r1, 0xaaaaaaaa00000007), (.r2, 0x100000000)] []) 0x219c 1 [(.r1, 0x7)] [],
    computes (stateOf Params.default 0 [(.r1, 0x5)] []) 0xffffffff00000197 1 [] [],
    computes (stateOf Params.default 0 [(.r1, 0xffffffff)] []) 0x300000194 1 [(.r1, 0x0)] [],
    computes (stateOf Params.default 0 [(.r1, 0x64), (.r2, 0x7)] []) 0x219f 1 [(.r1, 0x2)] []].all id = true := by decide

theorem test_bitwise : [
    computes (stateOf Params.default 0 [(.r1, 0x1)] []) 0xffffff0000000147 1 [(.r1, 0xffffffffffffff01)] [],
    computes (stateOf Params.default 0 [(.r1, 0xdead000000000001)] []) 0xffffff0000000144 1 [(.r1, 0xffffff01)] [],
    computes (stateOf Params.default 0 [(.r1, 0x123456789abcdef7)] []) 0xfffffff000000157 1 [(.r1, 0x123456789abcdef0)] [],
    computes (stateOf Params.default 0 [(.r1, 0x123456789abcdef7)] []) 0xfffffff000000154 1 [(.r1, 0x9abcdef0)] [],
    computes (stateOf Params.default 0 [(.r1, 0x1234)] []) 0x11af 1 [(.r1, 0x0)] [],
    computes (stateOf Params.default 0 [(.r1, 0x1234567800ff00ff)] []) 0xffffffff000001a4 1 [(.r1, 0xff00ff00)] []].all id = true := by decide

theorem test_shifts_left : [
    computes (stateOf Params.default 0 [(.r1, 0x1)] []) 0x3f00000167 1 [(.r1, 0x8000000000000000)] [],
    computes (stateOf Params.default 0 [(.r1, 0x8000000000000001), (.r2, 0x40)] []) 0x216f 1 [] [],
    computes (stateOf Params.default 0 [(.r1, 0x8000000000000001), (.r2, 0x41)] []) 0x216f 1 [(.r1, 0x2)] [],
    computes (stateOf Params.default 0 [(.r1, 0xffffffff80000001), (.r2, 0x20)] []) 0x216c 1 [(.r1, 0x80000001)] [],
    computes (stateOf Params.default 0 [(.r1, 0xf0000001)] []) 0x400000164 1 [(.r1, 0x10)] []].all id = true := by decide

theorem test_shifts_right : [
    computes (stateOf Params.default 0 [(.r1, 0x8000000000000000)] []) 0x100000177 1 [(.r1, 0x4000000000000000)] [],
    computes (stateOf Params.default 0 [(.r1, 0xffffffff80000000)] []) 0x1f00000174 1 [(.r1, 0x1)] [],
    computes (stateOf Params.default 0 [(.r1, 0x8000000000000000)] []) 0x1000001c7 1 [(.r1, 0xc000000000000000)] [],
    computes (stateOf Params.default 0 [(.r1, 0x80000000)] []) 0x1000001c4 1 [(.r1, 0xc0000000)] [],
    computes (stateOf Params.default 0 [(.r1, 0xffffffff7fffffff)] []) 0x1000001c4 1 [(.r1, 0x3fffffff)] [],
    computes (stateOf Params.default 0 [(.r1, 0x8000000000000000), (.r2, 0x3f)] []) 0x21cf 1 [(.r1, 0xffffffffffffffff)] []].all id = true := by decide

theorem test_neg : [
    computes (stateOf Params.default 0 [] []) 0x187 1 [(.r1, 0xffffffffffffffff)] [],
    computes (stateOf Params.default 0 [(.r2, 0xffffffff)] []) 0x218f 1 [(.r1, 0xffffffff00000000)] [],
    computes (stateOf Params.default 0 [(.r2, 0x123456780000ffff)] []) 0x218c 1 [(.r1, 0xffff0000)] [],
    computes (stateOf negateDst 0 [(.r1, 0x5)] []) 0x187 1 [(.r1, 0xfffffffffffffffb)] [],
    computes (stateOf negateDst 0 [(.r1, 0xffffffff00000001)] []) 0x184 1 [(.r1, 0xffffffff)] []].all id = true := by decide

theorem test_mov : [
    computes (stateOf Params.default 0 [] []) 0xffffffff000001b7 1 [(.r1, 0xffffffffffffffff)] [],
    computes (stateOf Params.default 0 [] []) 0xffffffff000001b4 1 [(.r1, 0xffffffff)] [],
    computes (stateOf Params.default 0 [(.r2, 0x1122334455667788)] []) 0x21bc 1 [(.r1, 0x55667788)] [],
    computes (stateOf Params.default 0 [] []) 0xa1bf 1 [(.r1, 0x10200)] []].all id = true := by decide

theorem test_swap_little_endian_host : [
    computes (stateOf Params.default 0 [(.r1, 0x1122334455667788)] []) 0x10000001d4 1 [(.r1, 0x7788)] [],
    computes (stateOf Params.default 0 [(.r1, 0x1122334455667788)] []) 0x20000001d4 1 [(.r1, 0x55667788)] [],
    computes (stateOf Params.default 0 [(.r1, 0x1122334455667788)] []) 0x40000001d4 1 [] [],
    computes (stateOf Params.default 0 [(.r1, 0x1122334455667788)] []) 0x10000001dc 1 [(.r1, 0x8877)] [],
    computes (stateOf Params.default 0 [(.r1, 0x1122334455667788)] []) 0x20000001dc 1 [(.r1, 0x88776655)] [],
    computes (stateOf Params.default 0 [(.r1, 0x1122334455667788)] []) 0x40000001dc 1 [(.r1, 0x8877665544332211)] [],
    computes (stateOf Params.default 0 [(.r1, 0xffffffffffff1234)] []) 0x10000001d4 1 [(.r1, 0x1234)] [],
    computes (stateOf Params.default 0 [(.r1, 0xffffffffffff1234)] []) 0x10000001dc 1 [(.r1, 0x3412)] []].all id = true := by decide

theorem test_swap_big_endian_host : [
    computes (stateOf bigEndian 0 [(.r1, 0x1122334455667788)] []) 0x10000001d4 1 [(.r1, 0x8877)] [],
    computes (stateOf bigEndian 0 [(.r1, 0x1122334455667788)] []) 0x20000001d4 1 [(.r1, 0x88776655)] [],
    computes (stateOf bigEndian 0 [(.r1, 0x1122334455667788)] []) 0x40000001d4 1 [(.r1, 0x8877665544332211)] [],
    computes (stateOf bigEndian 0 [(.r1, 0x1122334455667788)] []) 0x10000001dc 1 [(.r1, 0x7788)] [],
    computes (stateOf bigEndian 0 [(.r1, 0x1122334455667788)] []) 0x20000001dc 1 [(.r1, 0x55667788)] [],
    computes (stateOf bigEndian 0 [(.r1, 0x1122334455667788)] []) 0x40000001dc 1 [] []].all id = true := by decide

theorem test_jumps_64 : [
    computes (stateOf Params.default 10 [(.r1, 0xffffffffffffffff), (.r2, 0x1)] []) 0x5211d 11 [] [],
    computes (stateOf Params.default 10 [(.r1, 0xffffffffffffffff), (.r2, 0x1)] []) 0x5215d 16 [] [],
    computes (stateOf Params.default 10 [(.r1, 0xffffffffffffffff), (.r2, 0x1)] []) 0x5212d 16 [] [],
    computes (stateOf Params.default 10 [(.r1, 0xffffffffffffffff), (.r2, 0x1)] []) 0x5213d 16 [] [],
    computes (stateOf Params.default 10 [(.r1, 0xffffffffffffffff), (.r2, 0x1)] []) 0x521ad 11 [] [],
    computes (stateOf Params.default 10 [(.r1, 0xffffffffffffffff), (.r2, 0x1)] []) 0x521bd 11 [] [],
    computes (stateOf Params.default 10 [(.r1, 0xffffffffffffffff), (.r2, 0x1)] []) 0x5216d 11 [] [],
    computes (stateOf Params.default 10 [(.r1, 0xffffffffffffffff), (.r2, 0x1)] []) 0x5217d 11 [] [],
    computes (stateOf Params.default 10 [(.r1, 0xffffffffffffffff), (.r2, 0x1)] []) 0x521cd 16 [] [],
    computes (stateOf Params.default 10 [(.r1, 0xffffffffffffffff), (.r2, 0x1)] []) 0x521dd 16 [] [],
    computes (stateOf Params.default 10 [(.r1, 0xffffffffffffffff), (.r2, 0x1)] []) 0x5214d 16 [] []].all id = true := by decide

theorem test_jumps_32 : [
    computes (stateOf Params.default 10 [(.r1, 0x180000000), (.r2, 0xffffffff80000000)] []) 0x5211e 16 [] [],
    computes (stateOf Params.default 10 [(.r1, 0x180000000), (.r2, 0xffffffff80000000)] []) 0x5215e 11 [] [],
    computes (stateOf Params.default 10 [(.r1, 0x180000000), (.r2, 0xffffffff80000000)] []) 0x5212e 11 [] [],
    computes (stateOf Params.default 10 [(.r1, 0x180000000), (.r2, 0xffffffff80000000)] []) 0x5213e 16 [] [],
    computes (stateOf Params.default 10 [(.r1, 0x180000000), (.r2, 0xffffffff80000000)] []) 0x521ae 11 [] [],
    computes (stateOf Params.default 10 [(.r1, 0x180000000), (.r2, 0xffffffff80000000)] []) 0x521be 16 [] [],
    computes (stateOf Params.default 10 [(.r1, 0x180000000), (.r2, 0xffffffff80000000)] []) 0x5216e 11 [] [],
    computes (stateOf Params.default 10 [(.r1, 0x180000000), (.r2, 0xffffffff80000000)] []) 0x5217e 16 [] [],
    computes (stateOf Params.default 10 [(.r1, 0x180000000), (.r2, 0xffffffff80000000)] []) 0x521ce 11 [] [],
    computes (stateOf Params.default 10 [(.r1, 0x180000000), (.r2, 0xffffffff80000000)] []) 0x521de 16 [] [],
    computes (stateOf Params.default 10 [(.r1, 0x180000000), (.r2, 0xffffffff80000000)] []) 0x5214e 16 [] []].all id = true := by decide

theorem test_jumps_immediate : [
    computes (stateOf Params.default 10 [(.r1, 0xffffffffffffffff)] []) 0xffffffff00050115 16 [] [],
    computes (stateOf Params.default 10 [(.r1, 0xffffffff)] []) 0xffffffff00050115 11 [] [],
    computes (stateOf Params.default 10 [(.r1, 0x12345678ffffffff)] []) 0xffffffff00050116 16 [] [],
    computes (stateOf Params.default 10 [(.r1, 0x80000000)] []) 0x50166 11 [] [],
    computes (stateOf Params.default 10 [(.r1, 0x80000000)] []) 0x50165 16 [] [],
    computes (stateOf Params.default 10 [(.r1, 0x8000000000000000)] []) 0x8000000000050145 16 [] [],
    computes (stateOf Params.default 10 [(.r1, 0xffffffff00000000)] []) 0x100050146 11 [] [],
    computes (stateOf Params.default 10 [(.r1, 0x7)] []) 0x113d 11 [] [],
    computes (stateOf Params.default 10 [(.r1, 0x7)] []) 0xffff111d 10 [] []].all id = true := by decide

theorem test_jumps_always : [
    computes (stateOf Params.default 10 [] []) 0xfff50005 0 [] [],
    computes (stateOf Params.default 10 [] []) 0x5 11 [] []].all id = true := by decide

theorem test_loads : [
    computes (stateOf Params.default 0 [] [(0x101f8, [0x88, 0x77, 0x66, 0x55, 0x44, 0x33, 0x22, 0x11])]) 0xffffa071 1 [(.r0, 0x11)] [],
    computes (stateOf Params.default 0 [] [(0x101f8, [0x88, 0x77, 0x66, 0x55, 0x44, 0x33, 0x22, 0x11])]) 0xfffea069 1 [(.r0, 0x1122)] [],
    computes (stateOf Params.default 0 [] [(0x101f8, [0x88, 0x77, 0x66, 0x55, 0x44, 0x33, 0x22, 0x11])]) 0xfffca061 1 [(.r0, 0x11223344)] [],
    computes (stateOf Params.default 0 [] [(0x101f8, [0x88, 0x77, 0x66, 0x55, 0x44, 0x33, 0x22, 0x11])]) 0xfff8a079 1 [(.r0, 0x1122334455667788)] [],
    computes (stateOf Params.default 0 [] [(0x101fc, [0xff, 0xff, 0xff, 0xff])]) 0xfffca061 1 [(.r0, 0xffffffff)] [],
    computes (stateOf Params.default 0 [] [(0x101ff, [0x80])]) 0xffffa071 1 [(.r0, 0x80)] [],
    computes (stateOf bigEndian 0 [] [(0x101f8, [0x88, 0x77, 0x66, 0x55, 0x44, 0x33, 0x22, 0x11])]) 0xfff8a079 1 [(.r0, 0x8877665544332211)] [],
    computes (stateOf Params.default 0 [(.r1, 0x101f8)] [(0x101f8, [0x88, 0x77, 0x66, 0x55, 0x44, 0x33, 0x22, 0x11])]) 0x21169 1 [(.r1, 0x5566)] [],
    computes (stateOf Params.default 0 [] [(0x101fc, [0x78, 0x56, 0x34, 0x12])]) 0xfffca061 1 [(.r0, 0x12345678)] []].all id = true := by decide

theorem test_stores_imm : [
    computes (stateOf Params.default 0 [] []) 0x1ffffff0a72 1 [] [(0x101ff, [0xff])],
    computes (stateOf Params.default 0 [] []) 0xfffffffefffe0a6a 1 [] [(0x101fe, [0xfe, 0xff])],
    computes (stateOf Params.default 0 [] []) 0xfffffffefffc0a62 1 [] [(0x101fc, [0xfe, 0xff, 0xff, 0xff])],
    computes (stateOf Params.default 0 [] []) 0xfffffffefff80a7a 1 [] [(0x101f8, [0xfe, 0xff, 0xff, 0xff, 0xff, 0xff, 0xff, 0xff])],
    computes (stateOf Params.default 0 [] []) 0x7ffffffffff80a7a 1 [] [(0x101f8, [0xff, 0xff, 0xff, 0x7f, 0x00, 0x00, 0x00, 0x00])],
    computes (stateOf Params.default 0 [] []) 0x1fe000a7a 1 [] [(0x10000, [0x01, 0x00, 0x00, 0x00, 0x00, 0x00, 0x00, 0x00])]].all id = true := by decide

theorem test_stores_reg : [
    computes (stateOf Params.default 0 [(.r1, 0x1122334455667788)] []) 0xffff1a73 1 [] [(0x101ff, [0x88])],
    computes (stateOf Params.default 0 [(.r1, 0x1122334455667788)] []) 0xfffc1a63 1 [] [(0x101fc, [0x88, 0x77, 0x66, 0x55])],
    computes (stateOf Params.default 0 [(.r1, 0x1122334455667788)] []) 0xfff81a7b 1 [] [(0x101f8, [0x88, 0x77, 0x66, 0x55, 0x44, 0x33, 0x22, 0x11])],
    computes (stateOf bigEndian 0 [(.r1, 0x1122334455667788)] []) 0xfff81a7b 1 [] [(0x101f8, [0x11, 0x22, 0x33, 0x44, 0x55, 0x66, 0x77, 0x88])],
    computes (stateOf Params.default 0 [] []) 0xfff8aa7b 1 [] [(0x101f8, [0x00, 0x02, 0x01, 0x00, 0x00, 0x00, 0x00, 0x00])],
    computes (stateOf anyAlignment 0 [(.r1, 0x1122334455667788)] []) 0xfffa1a63 1 [] [(0x101fa, [0x88, 0x77, 0x66, 0x55])]].all id = true := by decide

theorem test_access_faults : [
    faults (stateOf Params.default 0 [] []) 0xa071 (.memFault 0x10200 1 .read),
    faults (stateOf Params.default 0 [] []) 0x1fdf80a7a (.memFault 0xfff8 8 .write),
    faults (stateOf Params.default 0 [] []) 0x1fdfc0a7a (.memFault 0xfffc 8 .write),
    faults (stateOf Params.default 0 [(.r1, 0x1122334455667788)] []) 0xfffa1a63 (.memFault 0x101fa 4 .misaligned),
    faults (stateOf Params.default 0 [] [(0x101f8, [0x88, 0x77, 0x66, 0x55])]) 0xfff8a079 (.uninitByte 0x101fc),
    faults (stateOf Params.default 0 [(.r1, 0xfffffffffffffffc)] []) 0x1061 (.memFault 0xfffffffffffffffc 4 .read)].all id = true := by decide

theorem test_atomic_32 : [
    computes (stateOf Params.default 0 [(.r1, 0x100000020)] [(0x101fc, [0xf0, 0xff, 0xff, 0xff])]) 0xfffc1ac3 1 [] [(0x101fc, [0x10, 0x00, 0x00, 0x00])],
    computes (stateOf Params.default 0 [(.r1, 0x100000020)] [(0x101fc, [0xf0, 0xff, 0xff, 0xff])]) 0x1fffc1ac3 1 [(.r1, 0xfffffff0)] [(0x101fc, [0x10, 0x00, 0x00, 0x00])],
    computes (stateOf Params.default 0 [(.r1, 0xff0ff0)] [(0x101fc, [0xff, 0x00, 0x0f, 0x0f])]) 0x41fffc1ac3 1 [(.r1, 0xf0f00ff)] [(0x101fc, [0xff, 0x0f, 0xff, 0x0f])],
    computes (stateOf Params.default 0 [(.r1, 0xff0ff0)] [(0x101fc, [0xff, 0x00, 0x0f, 0x0f])]) 0x51fffc1ac3 1 [(.r1, 0xf0f00ff)] [(0x101fc, [0xf0, 0x00, 0x0f, 0x00])],
    computes (stateOf Params.default 0 [(.r1, 0xff0ff0)] [(0x101fc, [0xff, 0x00, 0x0f, 0x0f])]) 0xa1fffc1ac3 1 [(.r1, 0xf0f00ff)] [(0x101fc, [0x0f, 0x0f, 0xf0, 0x0f])]].all id = true := by decide

theorem test_atomic_64 : [
    computes (stateOf Params.default 0 [(.r1, 0x20)] [(0x101f8, [0xf0, 0xff, 0xff, 0xff, 0xff, 0xff, 0xff, 0xff])]) 0xfff81adb 1 [] [(0x101f8, [0x10, 0x00, 0x00, 0x00, 0x00, 0x00, 0x00, 0x00])],
    computes (stateOf Params.default 0 [(.r1, 0x20)] [(0x101f8, [0xf0, 0xff, 0xff, 0xff, 0xff, 0xff, 0xff, 0xff])]) 0x1fff81adb 1 [(.r1, 0xfffffffffffffff0)] [(0x101f8, [0x10, 0x00, 0x00, 0x00, 0x00, 0x00, 0x00, 0x00])],
    computes (stateOf Params.default 0 [(.r1, 0xffffffffffffffff)] [(0x101f8, [0xf0, 0xff, 0xff, 0xff, 0xff, 0xff, 0xff, 0xff])]) 0xa0fff81adb 1 [] [(0x101f8, [0x0f, 0x00, 0x00, 0x00, 0x00, 0x00, 0x00, 0x00])],
    computes (stateOf Params.default 0 [(.r1, 0x101f8)] [(0x101f8, [0xf0, 0xff, 0xff, 0xff, 0xff, 0xff, 0xff, 0xff])]) 0x1000011db 1 [(.r1, 0xfffffffffffffff0)] [(0x101f8, [0xe8, 0x01, 0x01, 0x00, 0x00, 0x00, 0x00, 0x00])]].all id = true := by decide

theorem test_atomic_exchange : [
    computes (stateOf Params.default 0 [(.r1, 0x1122334455667788)] [(0x101fc, [0xff, 0x00, 0x0f, 0x0f])]) 0xe1fffc1ac3 1 [(.r1, 0xf0f00ff)] [(0x101fc, [0x88, 0x77, 0x66, 0x55])],
    computes (stateOf Params.default 0 [(.r1, 0x1122334455667788)] [(0x101f8, [0xf0, 0xff, 0xff, 0xff, 0xff, 0xff, 0xff, 0xff])]) 0xe1fff81adb 1 [(.r1, 0xfffffffffffffff0)] [(0x101f8, [0x88, 0x77, 0x66, 0x55, 0x44, 0x33, 0x22, 0x11])]].all id = true := by decide

theorem test_compare_exchange : [
    computes (stateOf Params.default 0 [(.r0, 0xffffffff00000005), (.r1, 0x1122334455667788)] [(0x101fc, [0x05, 0x00, 0x00, 0x00])]) 0xf1fffc1ac3 1 [(.r0, 0x5)] [(0x101fc, [0x88, 0x77, 0x66, 0x55])],
    computes (stateOf Params.default 0 [(.r0, 0x6), (.r1, 0x1122334455667788)] [(0x101fc, [0x05, 0x00, 0x00, 0x00])]) 0xf1fffc1ac3 1 [(.r0, 0x5)] [],
    computes (stateOf Params.default 0 [(.r0, 0x500000005), (.r1, 0x1122334455667788)] [(0x101f8, [0x05, 0x00, 0x00, 0x00, 0x05, 0x00, 0x00, 0x00])]) 0xf1fff81adb 1 [] [(0x101f8, [0x88, 0x77, 0x66, 0x55, 0x44, 0x33, 0x22, 0x11])],
    computes (stateOf Params.default 0 [(.r0, 0x5), (.r1, 0x1122334455667788)] [(0x101f8, [0x05, 0x00, 0x00, 0x00, 0x05, 0x00, 0x00, 0x00])]) 0xf1fff81adb 1 [(.r0, 0x500000005)] [],
    computes (stateOf Params.default 0 [(.r0, 0x500000005)] [(0x101f8, [0x05, 0x00, 0x00, 0x00, 0x05, 0x00, 0x00, 0x00])]) 0xf1fff80adb 1 [] [(0x101f8, [0x05, 0x00, 0x00, 0x00, 0x05, 0x00, 0x00, 0x00])]].all id = true := by decide

theorem test_atomic_faults : [
    faults (stateOf anyAlignment 0 [(.r1, 0x1)] [(0x101fa, [0x00, 0x00, 0x00, 0x00])]) 0xfffa1ac3 (.memFault 0x101fa 4 .misaligned),
    faults (stateOf Params.default 0 [(.r1, 0x1)] []) 0xfffc1ac3 (.uninitByte 0x101fc),
    faults (stateOf Params.default 0 [] [(0x101fc, [0xf0, 0xff, 0xff, 0xff])]) 0x1fffcaac3 (.illegalInstruction 0x00000001fffcaac3),
    faults (stateOf Params.default 0 [(.r1, 0x1)] [(0x101fc, [0xf0, 0xff, 0xff, 0xff])]) 0xe0fffc1ac3 (.illegalInstruction 0x000000e0fffc1ac3),
    faults (stateOf Params.default 0 [(.r1, 0x1)] [(0x101fc, [0xf0, 0xff, 0xff, 0xff])]) 0x10fffc1ac3 (.illegalInstruction 0x00000010fffc1ac3),
    faults (stateOf Params.default 0 [(.r1, 0x1)] [(0x101fc, [0xf0, 0xff, 0xff, 0xff])]) 0xfffc1ad3 (.illegalInstruction 0x00000000fffc1ad3)].all id = true := by decide

theorem test_wide : [
    computes (stateOf Params.default 0 [] []) 0x11223344556677880000000000000118 2 [(.r1, 0x1122334455667788)] [],
    computes (stateOf Params.default 0 [] []) 0x950000000000000118 2 [(.r1, 0x95)] [],
    computes (stateOf split32 0 [] []) 0x11223344000000005566778800000118 2 [(.r1, 0x1122334455667788)] [],
    faults (stateOf Params.default 0 [] []) 0x11223344000000005566778800000118 (.illegalInstruction 0x5566778800000118),
    faults (stateOf Params.default 0 [] []) 0x10000000000000a18 (.illegalInstruction 0x0000000000000a18)].all id = true := by decide

theorem test_illegal : [
    faults (stateOf Params.default 0 [(.r1, 0x0), (.r2, 0x0)] []) 0x100002107 (.illegalInstruction 0x0000000100002107),
    faults (stateOf Params.default 0 [(.r1, 0x0), (.r2, 0x0)] []) 0x10000210f (.illegalInstruction 0x000000010000210f),
    faults (stateOf Params.default 0 [(.r1, 0x0), (.r2, 0x0)] []) 0x1210f (.illegalInstruction 0x000000000001210f),
    faults (stateOf Params.default 0 [] []) 0x100000bb7 (.illegalInstruction 0x0000000100000bb7),
    faults (stateOf Params.default 0 [] []) 0xab7 (.illegalInstruction 0x0000000000000ab7),
    faults (stateOf Params.default 0 [] []) 0xfffffff800000a07 (.illegalInstruction 0xfffffff800000a07),
    faults (stateOf Params.default 0 [(.r1, 0x1)] []) 0x10000001d7 (.illegalInstruction 0x00000010000001d7),
    faults (stateOf Params.default 0 [(.r1, 0x1)] []) 0x8000001d4 (.illegalInstruction 0x00000008000001d4),
    faults (stateOf Params.default 0 [] []) 0x10006 (.illegalInstruction 0x0000000000010006),
    faults (stateOf Params.default 0 [] []) 0x10000008d (.illegalInstruction 0x000000010000008d),
    faults (stateOf Params.default 0 [(.r0, 0x0)] []) 0x100000095 (.illegalInstruction 0x0000000100000095),
    faults (stateOf Params.default 0 [] []) 0x0 (.illegalInstruction 0x0000000000000000),
    faults (stateOf Params.default 0 [(.r1, 0x1)] []) 0x1000001e7 (.illegalInstruction 0x00000001000001e7),
    faults (stateOf Params.default 0 [(.r2, 0x101f8)] []) 0x2160 (.illegalInstruction 0x0000000000002160)].all id = true := by decide

theorem test_refusals : [
    refuses (stateOf Params.default 0 [] []) 0x20, refuses (stateOf Params.default 0 [] []) 0x1048].all id = true := by decide

theorem test_uninitialised_and_call : [
    faults (stateOf Params.default 0 [(.r1, 0x1)] []) 0x210f (.uninitRegister .r2),
    faults (stateOf Params.default 0 [] []) 0x100000104 (.uninitRegister .r1),
    faults (stateOf Params.default 0 [] []) 0x95 (.uninitRegister .r0),
    faults (stateOf Params.default 0 [(.r1, 0x1)] []) 0x900000085 (.callFault 9)].all id = true := by decide

/-- `div32` and `div64` by an immediate -2 (S16). -/
theorem test_div_imm_sign :
    computes (stateOf Params.default 0 [(.r1, 0xffffffff)] []) 0xfffffffe00000134 1 [(.r1, 1)] [] = true ∧
      computes (stateOf Params.default 0 [(.r1, 0xffffffff)] []) 0xfffffffe00000137 1 [(.r1, 0)] [] = true := by decide

/-- A state at slot 3 about to call function 7, the second entry of HELPERS, which takes two arguments. -/
def calling (f : HelperFunction) (regs : List (Gpr × Word)) (mem : List (Nat × List Byte)) (choices : List Nat) : State :=
  { stateOf { Params.default with helpers := [⟨3, 0, .listed []⟩, ⟨7, 2, f⟩] } 3 regs mem with
    callChoices := { given := choices, drawn := 0 } }

/-- The sum of the arguments 40 and 2, with memory left as it is. -/
def sum : HelperFunction := .listed [(([40, 2], []), (42, []))]

/-- For 40 and 2, with a byte of the stack that holds 9, either 42 with no byte left, or 43 with one byte elsewhere. -/
def either : HelperFunction :=
  .listed [(([40, 2], [(0x101f8, 9)]), (42, [])), (([40, 2], [(0x101f8, 9)]), (43, [(0x20000, 1)])),
    (([40, 0x101ff], [(0x101f8, 9)]), (44, []))]

/-- `call 7` of a function of two arguments that returns their sum (P4): R1 to R5 lose their values, R6 keeps its own. -/
theorem test_call :
    ((match exec (.call 7) (calling sum [(.r1, 40), (.r2, 2), (.r6, 100)] [] []) with
    | .next t => some (t.regs.get .r0, t.regs.get .r1, t.regs.get .r2, t.regs.get .r6, t.pc)
    | _ => none) = some (some 42, none, none, some 100, 4)) := by decide

/-- A call of `either` with 40 and `arg` leaves this in R0 and in memory, and this run status. -/
def eitherLeaves (arg : Word) (choices : List Nat) (r0 : Option Word) (mem : Memory) (status : RunStatus) : Bool :=
  match exec (.call 7) (calling either [(.r1, 40), (.r2, arg)] [(0x101f8, [9])] choices) with
  | .next t => decide (t.regs.get .r0 = r0) && decide (t.mem = mem) && decide (t.status = status)
  | _ => false

/-- The function's relation says what a call gives (R185), and whether it fails (R268); the stack is preserved but where the
function was given a pointer into it, and then may lose a byte's value (R187). -/
theorem test_call_relation :
    eitherLeaves 2 [0] (some 42) [(0x101f8, 9)] .running = true ∧
      eitherLeaves 2 [1] (some 43) [(0x101f8, 9), (0x20000, 1)] .running = true ∧
      eitherLeaves 0x101ff [] (some 44) [] .running = true ∧
      eitherLeaves 0x10200 [] none [(0x101f8, 9)] (.faulted (.callFault 7) 3) = true := by decide

/-- `exit` with R0 = 0x37 (P1): the run ends and `pc` stays. -/
theorem test_exit :
    ((match exec .exit (stateOf Params.default 5 [(.r0, 0x37)] []) with
    | .next t => some (t.status, t.pc)
    | _ => none) = some (.exited 0x37, 5)) := by decide

/-- The state that an outcome answers. -/
def nextOf (r : Result) : Option State :=
  match r with
  | .next t => some t
  | _ => none

/-- A wide instruction in the last slot, and a jump onto a second slot (section 2.6). -/
theorem test_fetch_edges :
    (nextOf (step { State.reset with program := [0x118] })).map State.status =
      some (.faulted (.illegalInstruction 0x118) 0) ∧
    (nextOf (step { State.reset with program := [0x10005, 0x118, 0, 0x95], pc := 2 })).map State.status =
      some (.faulted .pcFault 2) := by decide

/-! Witnesses: for every statement with hypotheses, states and operands that meet them, clause by clause. -/

/-- A running state whose PROGRAM is one slot. -/
def fetching (p : Params) (w : Slot) : State :=
  { State.reset with params := p, program := [w] }

/-- The hypotheses of a statement about slots, met by each of the slots: a running state whose fetch gives the slot. -/
def fetched (p : Params) (ws : List Slot) : Bool :=
  ws.all fun w =>
    decide ((fetching p w).status = .running) && decide ((fetching p w).fetchSlots = .ok (w, none))

/-- The slots that the clauses on the two forms of an arithmetic instruction speak of: both forms, and each field at the
boundary where it makes the slot illegal. -/
def aluSlots (opK opX : BitVec 8) : List Slot :=
  [slotOf opK 9 0 0 5, slotOf opX 9 10 0 0, slotOf opK 1 1 0 5, slotOf opK 1 0 1 5, slotOf opK 10 0 0 5, slotOf opX 1 2 1 0,
    slotOf opX 1 2 0 1, slotOf opX 10 2 0 0, slotOf opX 1 11 0 0]

/-- R1 and R2 hold values, R3 holds none. -/
def sample (p : Params) : State :=
  stateOf p 10 [(.r1, 0x8000000000000007), (.r2, 0)] []

/-- What the clauses on operands ask: a destination and a source that hold a value, R10, and a register without one. -/
def operandsMet (p : Params) : Bool :=
  decide ((sample p).regs.get .r1 = some 0x8000000000000007) && decide ((sample p).reg (.gpr .r2) = some 0) &&
    decide ((sample p).reg .r10 = some 0x10200) && decide ((sample p).regs.get .r3 = none)

theorem witness_AddAndSubtract : fetched Params.default
    (aluSlots 0x07 0x0f ++ aluSlots 0x04 0x0c ++ aluSlots 0x17 0x1f ++ aluSlots 0x14 0x1c) = true ∧
      operandsMet Params.default = true := by decide

theorem witness_Multiply : fetched Params.default (aluSlots 0x27 0x2f ++ aluSlots 0x24 0x2c) = true ∧
    operandsMet Params.default = true := by decide

theorem witness_DivideAndModulo : fetched Params.default
    (aluSlots 0x37 0x3f ++ aluSlots 0x34 0x3c ++ aluSlots 0x97 0x9f ++ aluSlots 0x94 0x9c) = true ∧
      operandsMet Params.default = true := by decide

theorem witness_BitwiseOperations : fetched Params.default (aluSlots 0x47 0x4f ++ aluSlots 0x44 0x4c ++
    aluSlots 0x57 0x5f ++ aluSlots 0x54 0x5c ++ aluSlots 0xa7 0xaf ++ aluSlots 0xa4 0xac) = true ∧
      operandsMet Params.default = true := by decide

/-- Counts below the width, at it and above it, under either SHIFT_MODE. -/
theorem witness_Shifts : fetched Params.default (aluSlots 0x67 0x6f ++ aluSlots 0x64 0x6c ++ aluSlots 0x77 0x7f ++
    aluSlots 0x74 0x7c ++ aluSlots 0xc7 0xcf ++ aluSlots 0xc4 0xcc) = true ∧ operandsMet Params.default = true ∧
      operandsMet { Params.default with shiftMode := .draw } = true ∧
      (immediate64 63).toNat < 64 ∧ ¬ (immediate64 64).toNat < 64 ∧ (31#32).toNat < 32 ∧ ¬ (32#32).toNat < 32 := by decide

theorem witness_NegateUnderBothReadings :
    fetched Params.default (aluSlots 0x87 0x8f ++ aluSlots 0x84 0x8c) = true ∧
      fetched negateDst (aluSlots 0x87 0x8f ++ aluSlots 0x84 0x8c ++ [slotOf 0x87 9 0 0 0, slotOf 0x84 9 0 0 0]) = true ∧
      operandsMet Params.default = true ∧ operandsMet negateDst = true ∧ (sample negateDst).params.negReading = .negateDst ∧
      (sample Params.default).params.negReading = .source := by decide

theorem witness_Move : fetched Params.default (aluSlots 0xb7 0xbf ++ aluSlots 0xb4 0xbc) = true ∧
    operandsMet Params.default = true := by decide

/-- The slots that the clauses on a byte swap speak of, illegal widths (0, 8, 65) among them. -/
def swapSlots (op : BitVec 8) : List Slot :=
  [slotOf op 9 0 0 16, slotOf op 9 0 0 32, slotOf op 9 0 0 64, slotOf op 1 1 0 16, slotOf op 1 0 1 32, slotOf op 10 0 0 64,
    slotOf op 1 0 0 0, slotOf op 1 0 0 8, slotOf op 1 0 0 65]

theorem witness_ByteSwaps : fetched Params.default (swapSlots 0xd4 ++ swapSlots 0xdc) = true ∧
    operandsMet Params.default = true ∧ operandsMet bigEndian = true ∧ 8#32 ∉ [16#32, 32#32, 64#32] := by decide

theorem witness_SwapReservedForms : fetched Params.default (swapSlots 0xd4 ++ swapSlots 0xdc ++ swapSlots 0xd7 ++
    swapSlots 0xdf) = true ∧ 0#32 ∉ [16#32, 32#32, 64#32] := by decide

theorem witness_SwapTwice : (sample bigEndian).regs.get .r1 = some 0x8000000000000007 ∧ ((Instr.be64, 8) : (Gpr → Instr) × Nat) ∈
    [(Instr.le16, 2), (Instr.le32, 4), (Instr.le64, 8), (Instr.be16, 2), (Instr.be32, 4), (Instr.be64, 8)] :=
  ⟨by decide, by simp⟩

theorem witness_JumpAlways : fetched Params.default [slotOf 0x05 0 0 0xfff5 0, slotOf 0x05 1 0 0 0, slotOf 0x05 0 1 0 0,
    slotOf 0x05 0 0 0 1, slotOf 0x0d 0 0 0 0, slotOf 0x06 0 0 0 0, slotOf 0x0e 0 0 0 0] = true := by decide

/-- The slots that the clauses on the two forms of a conditional jump speak of. -/
def jumpSlots (opK opX : BitVec 8) : List Slot :=
  [slotOf opK 10 0 0xfff5 5, slotOf opX 10 10 5 0, slotOf opK 1 1 5 5, slotOf opK 11 0 5 5, slotOf opX 1 2 5 1,
    slotOf opX 11 2 5 0, slotOf opX 1 11 5 0]

theorem witness_JumpsOnEqualityAndBits : fetched Params.default (jumpSlots 0x15 0x1d ++ jumpSlots 0x16 0x1e ++
    jumpSlots 0x55 0x5d ++ jumpSlots 0x56 0x5e ++ jumpSlots 0x45 0x4d ++ jumpSlots 0x46 0x4e) = true ∧
      operandsMet Params.default = true := by decide

theorem witness_UnsignedJumps : fetched Params.default (jumpSlots 0x25 0x2d ++ jumpSlots 0x26 0x2e ++ jumpSlots 0x35 0x3d ++
    jumpSlots 0x36 0x3e ++ jumpSlots 0xa5 0xad ++ jumpSlots 0xa6 0xae ++ jumpSlots 0xb5 0xbd ++ jumpSlots 0xb6 0xbe) = true ∧
      operandsMet Params.default = true := by decide

theorem witness_SignedJumps : fetched Params.default (jumpSlots 0x65 0x6d ++ jumpSlots 0x66 0x6e ++ jumpSlots 0x75 0x7d ++
    jumpSlots 0x76 0x7e ++ jumpSlots 0xc5 0xcd ++ jumpSlots 0xc6 0xce ++ jumpSlots 0xd5 0xdd ++ jumpSlots 0xd6 0xde) = true ∧
      operandsMet Params.default = true := by decide

theorem witness_ReservedOpcodeBytes : fetched Params.default [slotOf 0x06 0 0 1 0, slotOf 0xfe 15 15 0xffff 0xffffffff,
    slotOf 0x00 0 0 0 1, slotOf 0x1b 0 0 0 0, 0] = true := by decide

theorem witness_OnlyListedOpcodes : 0xe7#8 ∉ instructionBytes ∧ 0xe7#8 ∉ legacyBytes ∧ 0xff#8 ∉ instructionBytes ∧
    0xff#8 ∉ legacyBytes ∧ fetched Params.default [slotOf 0xe7 1 0 0 1, slotOf 0xff 0 0 0 0] = true := by decide

theorem witness_CallRunsAFunction_slots : fetched Params.default [slotOf 0x85 0 0 0 7, slotOf 0x85 1 0 0 7, slotOf 0x85 0 1 0 7,
    slotOf 0x85 0 0 1 7, slotOf 0x8d 0 0 0 7, slotOf 0x86 0 0 0 7, slotOf 0x8e 0 0 0 7] = true := by decide

/-- Function 9 has no entry, function 7 is the second one; without R1, and with R1 but not R2, an argument is missing. -/
theorem witness_CallRunsAFunction_missing :
    (∀ h ∈ (calling sum [] [] []).params.helpers, h.number ≠ 9) ∧
      (calling sum [] [] []).params.helpers = [⟨3, 0, .listed []⟩] ++ ⟨7, 2, sum⟩ :: [] ∧
      (∀ g ∈ [(⟨3, 0, .listed []⟩ : Helper)], g.number ≠ 7) ∧
      FirstMissingArgument (calling sum [] [] []) 2 .r1 ∧ FirstMissingArgument (calling sum [(.r1, 40)] [] []) 2 .r2 :=
  ⟨by decide, by decide, by decide, ⟨0, by decide, by decide, by decide, fun i g hi => absurd hi (Nat.not_lt_zero i)⟩,
    ⟨1, by decide, by decide, by decide, fun i g hi hg => by
      have : i = 0 := by omega
      subst this
      cases hg
      decide⟩⟩

/-- Both arguments hold a value; the function allows an answer for 40 and 2, and none for 40 and 3. -/
theorem witness_CallRunsAFunction_answers :
    ArgumentsOf (calling sum [(.r1, 40), (.r2, 2)] [] []) 2 [40, 2] ∧
      CallAllows ⟨7, 2, sum⟩ [40, 2] (calling sum [(.r1, 40), (.r2, 2)] [] []).mem 42 [] ∧
      ∀ ret after, ¬ CallAllows ⟨7, 2, sum⟩ [40, 3] (calling sum [(.r1, 40), (.r2, 3)] [] []).mem ret after := by
  refine ⟨⟨rfl, fun j r hj hr => ?_⟩, .head _, fun ret after h => ?_⟩
  · have : j = 0 ∨ j = 1 := by
      have : j < 2 := hj
      omega
    rcases this with rfl | rfl <;> cases hr <;> rfl
  · cases h with
    | tail _ h => cases h

/-- A call that returns, given no pointer into the stack; R1 and R2 are its arguments. -/
theorem witness_CallingConvention : (calling sum [(.r1, 40), (.r2, 2)] [] []).status = .running ∧
    ((nextOf (exec (.call 7) (calling sum [(.r1, 40), (.r2, 2)] [] []))).map State.status) = some .running ∧
    InStack (calling sum [] [] []).params 0x10000 ∧ InStack (calling sum [] [] []).params 0x101ff ∧
    ∀ v ∈ [(40 : Word), 2], ¬ InStack (calling sum [] [] []).params v.toNat := by
  have hb : (calling sum [] [] []).params.stackBase.toNat = 0x10000 := by decide
  have hs : (calling sum [] [] []).params.stackSize = 512 := rfl
  refine ⟨by decide, by decide, ?_, ?_, fun v hv => ?_⟩
  · unfold InStack; omega
  · unfold InStack; omega
  · have : v.toNat = 40 ∨ v.toNat = 2 := by
      fin_cases hv
      · exact .inl rfl
      · exact .inr rfl
    unfold InStack; omega

theorem witness_ExitEndsTheRun : fetched Params.default [0x95, slotOf 0x95 1 0 0 0, slotOf 0x95 0 1 0 0, slotOf 0x95 0 0 1 0,
    slotOf 0x95 0 0 0 1, slotOf 0x9d 0 0 0 0, slotOf 0x96 0 0 0 0, slotOf 0x9e 0 0 0 0] = true ∧
      (stateOf Params.default 5 [(.r0, 0x37)] []).regs.get .r0 = some 0x37 ∧
      (stateOf Params.default 5 [] []).regs.get .r0 = none := by decide

/-- A stack whose upper 16 bytes hold values, its lower ones none. -/
def stacked (p : Params) : State :=
  stateOf p 0 [(.r0, 5), (.r1, 0x101f4), (.r4, 0x1fe)]
    [(0x101f0, [1, 2, 3, 4, 5, 6, 7, 8, 9, 10, 11, 12, 13, 14, 15, 16])]

/-- The last bytes of the stack are permitted for an access of any size and kind, and one byte further is not. -/
theorem permitted_at_stack_end (p : Params) (hp : p = Params.default ∨ p = anyAlignment) (n : Nat) (hn : n ∈ [1, 2, 4, 8])
    (k : AccessKind) : Permitted p (0x10200 - n) n k ∧ ¬ Permitted p (0x10201 - n) n k := by
  rw [← Params.permits_eq_true, ← Params.permits_eq_true]
  rcases hp with rfl | rfl <;> fin_cases hn <;> cases k <;> decide

/-- The bytes of the last access of the stack are found, and those of the first one are missing. -/
theorem found_at_stack_end (n : Nat) (hn : n ∈ [1, 2, 4, 8]) :
    (∃ bs, (stacked Params.default).Finds (0x10200 - n) n bs) ∧ (stacked Params.default).Misses 0x10000 n 0x10000 := by
  refine ⟨⟨(stacked Params.default).mem.drop (16 - n) |>.map Prod.snd, ?_⟩, 0, ?_⟩
  · unfold State.Finds
    fin_cases hn <;> decide
  · fin_cases hn <;> decide

/-- The slots that the clauses on a load speak of. -/
def loadSlots (op : BitVec 8) : List Slot :=
  [slotOf op 9 10 0xfff8 0, slotOf op 1 2 0 1, slotOf op 10 1 0 0, slotOf op 1 11 0 0]

/-- Aligned, misaligned and refused accesses through R10 and R1, a missing base (R3), bytes found and missing. -/
theorem witness_Loads :
    fetched Params.default (loadSlots 0x71 ++ loadSlots 0x69 ++ loadSlots 0x61 ++ loadSlots 0x79) = true ∧
      (stacked Params.default).regs.get .r3 = none ∧ (stacked Params.default).reg .r10 = some 0x10200 ∧
      (∀ n ∈ [1, 2, 4, 8], Permitted Params.default (0x10200 - n) n .read ∧ ¬ Permitted Params.default (0x10201 - n) n .read ∧
        (stacked Params.default).Allowed (0x10200 - n) n .read ∧
        (∃ bs, (stacked Params.default).Finds (0x10200 - n) n bs) ∧ (stacked Params.default).Misses 0x10000 n 0x10000) := by
  refine ⟨by decide, by decide, by decide, fun n hn => ?_⟩
  have hp := permitted_at_stack_end Params.default (.inl rfl) n hn .read
  have hf := found_at_stack_end n hn
  exact ⟨hp.1, hp.2, ⟨hp.1, .inl (by fin_cases hn <;> decide)⟩, hf.1, hf.2⟩

/-- A misaligned load that is performed, and one that faults (R49): 4 bytes at 0x101f6. -/
theorem witness_Loads_misaligned :
    (stacked anyAlignment).Allowed 0x101f6 4 .read ∧ (stacked anyAlignment).Finds 0x101f6 4 [7, 8, 9, 10] ∧
      (stacked anyAlignment).Misses 0x101ee 4 0x101ee ∧ Permitted Params.default 0x101f6 4 .read ∧ 0x101f6 % 4 ≠ 0 := by
  refine ⟨⟨?_, .inr ⟨by decide, rfl⟩⟩, ?_, ⟨0, ?_⟩, ?_, by decide⟩
  · rw [← Params.permits_eq_true]; decide
  · unfold State.Finds; decide
  · decide
  · rw [← Params.permits_eq_true]; decide

/-- The slots that the clauses on a store speak of. -/
def storeSlots (opK opX : BitVec 8) : List Slot :=
  [slotOf opK 10 0 0xfff8 5, slotOf opK 10 1 0xfff8 5, slotOf opK 11 0 0xfff8 5, slotOf opX 10 10 0xfff8 0,
    slotOf opX 1 2 0 1, slotOf opX 11 1 0 0, slotOf opX 1 11 0 0]

/-- What the clauses on stores ask of the state: a base, a base that is missing, allowed, refused and misaligned accesses. -/
theorem storing : (stacked Params.default).regs.get .r3 = none ∧ (stacked Params.default).reg .r10 = some 0x10200 ∧
    (stacked Params.default).reg (.gpr .r0) = some 5 ∧
    (∀ n ∈ [1, 2, 4, 8], ¬ Permitted Params.default (0x10201 - n) n .write ∧
      (stacked Params.default).Allowed (0x10200 - n) n .write) ∧
    (stacked anyAlignment).Allowed 0x101f6 4 .write ∧ (stacked anyAlignment).params.envStep = none ∧
    Permitted Params.default 0x101f6 4 .write ∧ 0x101f6 % 4 ≠ 0 := by
  refine ⟨by decide, by decide, by decide, fun n hn => ?_, ⟨?_, .inr ⟨by decide, rfl⟩⟩, rfl, ?_, by decide⟩
  · have hp := permitted_at_stack_end Params.default (.inl rfl) n hn .write
    exact ⟨hp.2, hp.1, .inl (by fin_cases hn <;> decide)⟩
  · rw [← Params.permits_eq_true]; decide
  · rw [← Params.permits_eq_true]; decide

theorem witness_StoresOfImmediates : fetched Params.default
    (storeSlots 0x72 0x73 ++ storeSlots 0x6a 0x6b ++ storeSlots 0x62 0x63 ++ storeSlots 0x7a 0x7b) = true ∧
      (stacked Params.default).regs.get .r3 = none ∧ (stacked Params.default).Allowed (0x10200 - 8) 8 .write :=
  ⟨by decide, storing.1, (storing.2.2.2.1 8 (by decide)).2⟩

theorem witness_StoresOfRegisters : fetched Params.default
    (storeSlots 0x72 0x73 ++ storeSlots 0x6a 0x6b ++ storeSlots 0x62 0x63 ++ storeSlots 0x7a 0x7b) = true ∧
      (stacked Params.default).regs.get .r3 = none ∧ (stacked Params.default).reg (.gpr .r0) = some 5 ∧
      (stacked Params.default).Allowed (0x10200 - 1) 1 .write :=
  ⟨by decide, storing.1, storing.2.2.1, (storing.2.2.2.1 1 (by decide)).2⟩

/-- The slots that the clauses on an atomic operation speak of; with `BPF_FETCH` also R10 as `src` is illegal. -/
def atomicSlots (op : BitVec 8) (sel : BitVec 32) : List Slot :=
  [slotOf op 10 9 0xfff8 sel, slotOf op 11 1 0 sel, slotOf op 1 11 0 sel, slotOf op 1 10 0 sel]

/-- What the clauses on atomic operations of 4 and of 8 bytes ask of the state: registers, allowed, refused and misaligned
accesses, bytes that hold a value and bytes that hold none. -/
theorem atomicMet : (stacked Params.default).regs.get .r3 = none ∧ (stacked Params.default).reg .r10 = some 0x10200 ∧
    (stacked Params.default).regs.get .r0 = some 5 ∧
    (∀ n ∈ [4, 8], ¬ Permitted Params.default (0x10201 - n) n .atomic ∧
      (stacked Params.default).Allowed (0x10200 - n) n .atomic ∧
      (∃ bs, (stacked Params.default).Holds (0x10200 - n) n bs) ∧
      (stacked Params.default).Allowed 0x10000 n .atomic ∧ (stacked Params.default).LowestEmpty 0x10000 n 0x10000) ∧
    Permitted anyAlignment 0x101f6 4 .atomic ∧ 0x101f6 % 4 ≠ 0 := by
  refine ⟨by decide, by decide, by decide, fun n hn => ?_, ?_, by decide⟩
  · have hn' : n ∈ [1, 2, 4, 8] := by fin_cases hn <;> decide
    have hp := permitted_at_stack_end Params.default (.inl rfl) n hn' .atomic
    refine ⟨hp.2, ⟨hp.1, .inl ?_⟩, ⟨(stacked Params.default).mem.drop (16 - n) |>.map Prod.snd, ?_⟩, ⟨?_, .inl ?_⟩,
      by omega, ?_, ?_, fun y h1 h2 => absurd h2 (by omega)⟩
    · fin_cases hn <;> decide
    · unfold State.Holds
      fin_cases hn <;> decide
    · rw [← Params.permits_eq_true]
      fin_cases hn <;> decide
    · fin_cases hn <;> decide
    · fin_cases hn <;> decide
    · decide
  · rw [← Params.permits_eq_true]; decide

theorem witness_AtomicAdd : fetched Params.default
    (atomicSlots 0xc3 0x00 ++ atomicSlots 0xc3 0x01 ++ atomicSlots 0xdb 0x00 ++ atomicSlots 0xdb 0x01) = true ∧
      (stacked Params.default).Allowed (0x10200 - 4) 4 .atomic ∧ (stacked Params.default).Allowed (0x10200 - 8) 8 .atomic :=
  ⟨by decide, (atomicMet.2.2.2.1 4 (by decide)).2.1, (atomicMet.2.2.2.1 8 (by decide)).2.1⟩

theorem witness_AtomicBitwise32 : fetched Params.default (atomicSlots 0xc3 0x40 ++ atomicSlots 0xc3 0x41 ++
    atomicSlots 0xc3 0x50 ++ atomicSlots 0xc3 0x51 ++ atomicSlots 0xc3 0xa0 ++ atomicSlots 0xc3 0xa1) = true ∧
      ∃ bs, (stacked Params.default).Holds (0x10200 - 4) 4 bs :=
  ⟨by decide, (atomicMet.2.2.2.1 4 (by decide)).2.2.1⟩

theorem witness_AtomicBitwise64 : fetched Params.default (atomicSlots 0xdb 0x40 ++ atomicSlots 0xdb 0x41 ++
    atomicSlots 0xdb 0x50 ++ atomicSlots 0xdb 0x51 ++ atomicSlots 0xdb 0xa0 ++ atomicSlots 0xdb 0xa1) = true ∧
      ∃ bs, (stacked Params.default).Holds (0x10200 - 8) 8 bs :=
  ⟨by decide, (atomicMet.2.2.2.1 8 (by decide)).2.2.1⟩

theorem witness_AtomicExchange : fetched Params.default (atomicSlots 0xc3 0xe1 ++ atomicSlots 0xdb 0xe1) = true ∧
    (stacked Params.default).LowestEmpty 0x10000 8 0x10000 :=
  ⟨by decide, (atomicMet.2.2.2.1 8 (by decide)).2.2.2.2⟩

/-- The word 5 in memory: R0 = 0x900000005 matches it in the low half, R0 = 4 does not; a base and an R0 without a value. -/
theorem witness_AtomicCompareExchange : fetched Params.default (atomicSlots 0xc3 0xf1 ++ atomicSlots 0xdb 0xf1) = true ∧
    (stateOf Params.default 0 [(.r0, 0x900000005), (.r1, 1)] [(0x101fc, [5, 0, 0, 0])]).Holds 0x101fc 4 [5, 0, 0, 0] ∧
      numberOf .little [5, 0, 0, 0] = (0x900000005#64).toNat % 256 ^ 4 ∧
      numberOf .little [5, 0, 0, 0] ≠ (4#64).toNat % 256 ^ 4 ∧ (stacked Params.default).regs.get .r0 = some 5 ∧
      (stacked Params.default).regs.get .r3 = none ∧
      (stateOf Params.default 0 [(.r1, 1)] []).regs.get .r0 = none := by
  refine ⟨by decide, ?_, by decide, by decide, by decide, by decide, by decide⟩
  unfold State.Holds
  decide

theorem witness_AtomicReservedForms : 0x02#32 ∉
    [0x00#32, 0x01#32, 0x40#32, 0x41#32, 0x50#32, 0x51#32, 0xa0#32, 0xa1#32, 0xe1#32, 0xf1#32] ∧
      fetched Params.default [slotOf 0xc3 10 1 0 0x02, slotOf 0xdb 10 1 0 0xe0, slotOf 0xd3 10 1 0 0, slotOf 0xcb 10 1 0 0,
        slotOf 0xda 10 1 0 0] = true := by decide

/-- A wide instruction with its second slot under either layout, without one, and with its unused fields not zero. -/
theorem witness_WideLoad :
    ({ fetching Params.default 0x118 with program := [0x118, 7] }).fetchSlots =
      .ok (slotOf 0x18 (Gpr.num .r1) 0 0 0, some 7) ∧
      ({ fetching split32 0 with program := [0x5566778800000118, 0x1122334400000000] }).fetchSlots =
        .ok (slotOf 0x18 (Gpr.num .r1) 0 0 0x55667788, some (0x11223344#32 ++ 0#32)) ∧
      fetched Params.default [0x118, slotOf 0x18 1 1 0 0, slotOf 0x18 1 0 1 0, slotOf 0x18 10 0 0 0, slotOf 0x18 1 0 0 1] =
        true ∧
      ({ fetching split32 0 with program := [0x118, 1] }).fetchSlots = .ok (0x118, some 1) ∧
      (1#64).toNat % 2 ^ 32 ≠ 0 := by decide

theorem witness_SecondSlotIsNoInstruction :
    ({ State.reset with program := [0x118, 0x95, 0x95], pc := 1 } : State).status = .running ∧
      FirstSlotAt [0x118, 0x95, 0x95] 0 ∧ ([0x118, 0x95, 0x95] : List Slot)[0]? = some 0x118 ∧
      (0x118#64).toNat % 256 = 0x18 :=
  ⟨rfl, .zero (by decide), rfl, by decide⟩

theorem witness_LegacyIsRefused :
    fetched Params.default [0x20, 0x1048, 0x58] = true ∧ (0x20#64).extractLsb' 0 8 ∈ legacyBytes ∧
      (0x1048#64).extractLsb' 0 8 ∈ legacyBytes ∧ (0x58#64).extractLsb' 0 8 ∈ legacyBytes ∧
      fetched Params.default [slotOf 0x21 0 0 0 0, slotOf 0x5b 0 0 0 0] = true := by decide

/-- First slots behind a basic and behind a wide instruction; `pc` on a second slot, below 0, and at the end. -/
theorem witness_FetchAtFirstSlots :
    FirstSlotAt [0xb7, 0x118, 0, 0x95] 1 ∧ FirstSlotAt [0xb7, 0x118, 0, 0x95] 3 ∧ ¬ FirstSlotAt [0xb7, 0x118, 0, 0x95] 2 ∧
      (-1 : Int) < 0 ∧ (([0xb7] : List Slot).length : Int) ≤ 1 :=
  ⟨(isFirstSlot_iff _ _).mp (by decide), (isFirstSlot_iff _ _).mp (by decide),
    fun h => absurd ((isFirstSlot_iff _ _).mpr h) (by decide), by decide, by decide⟩

theorem witness_StepRunsDecoded : fetched Params.default [0x00000005000001b7, 0] = true ∧
    decode Params.default 0x00000005000001b7 none = .ok (.mov64K .r1 5) ∧
      decode Params.default 0 none = .error .reservedOpcode := by decide

theorem witness_EndedRunTakesNoStep : (State.reset.exit 0).status ≠ .running ∧ (State.reset.raise .pcFault).status ≠ .running := by
  decide

/-- Reset itself faults at the fetch: PROGRAM is empty. -/
theorem witness_FaultsArePrecise : State.reset.status = .running ∧
    (nextOf (step State.reset)).map State.status = some (.faulted .pcFault 0) := by decide

theorem witness_RunningStepsAnswer : State.reset.status = .running ∧ (fetching Params.default 0x20).status = .running := by decide

theorem witness_OnlyExitEndsNormally :
    (nextOf (step { fetching Params.default 0x95 with regs := { State.reset.regs with r0 := some 7 } })).map State.status =
      some (.exited 7) := by decide

/-- The three outcomes of the checks, at the upper end of the stack. -/
theorem witness_AccessChecks :
    (stacked Params.default).checkAccess 0x101fc 4 .read true = .ok () ∧
      (stacked Params.default).checkAccess 0x101fd 4 .read true = .error (.memFault 0x101fd 4 .read) ∧
      (stacked Params.default).checkAccess 0x101fa 4 .write true = .error (.memFault 0x101fa 4 .misaligned) := by decide

theorem witness_MixedWidthAccesses : (0x101f8#64).toNat % 8 = 0 ∧ Permitted Params.default (0x101f8#64).toNat 8 .read ∧
    Permitted bigEndian (0x101f8#64).toNat 8 .read ∧
    ((stacked Params.default).memWrite 0x101f8 8 0x1122334455667788).toOption.isSome = true ∧
      ((stacked bigEndian).memWrite 0x101f8 8 0x1122334455667788).toOption.isSome = true := by
  refine ⟨by decide, ?_, ?_, by decide, by decide⟩ <;>
  · rw [← Params.permits_eq_true]; decide

/-- A region of four shared bytes beside the stack, and other agents that may move a value from the first of them to the last,
or change nothing. -/
def shared (moves : List (List Nat)) : State :=
  { stateOf { Params.default with
      regions := [⟨0x20000, 4, true, true, true⟩]
      envStep := some (.listed [([(0x20000, 1)], [(0x20003, 2), (0x101ff, 3)]), ([(0x20000, 1)], [(0x20000, 1)])]) } 0 []
      [(0x20000, [1]), (0x101ff, [9])] with
    envMoves := { given := moves, drawn := 0 } }

/-- A move is any number of steps that ENV_STEP allows; a shared byte may lose its value, a byte of the stack is not changed
(R55, R57, R293). -/
theorem test_other_agents :
    (shared [[0]]).envMove.mem = [(0x101ff, 9), (0x20003, 2)] ∧ (shared [[1, 0]]).envMove.mem = [(0x101ff, 9), (0x20003, 2)] ∧
      (shared [[1]]).envMove.mem = (shared []).mem ∧ (shared [[], [0]]).envMove = shared [[0]] := by decide

theorem witness_OtherAgentsMoveSharedBytes :
    OnlyShared (shared []).params 0x20000 ∧ OnlyShared (shared []).params 0x20003 ∧ ¬ OnlyShared (shared []).params 0x20004 ∧
      ¬ OnlyShared (shared []).params 0x101ff ∧ (shared [[], [0]]).envMoves.given = [] :: [[0]] ∧
      (∃ e, (shared []).params.envStep = some e ∧
        EnvAllows e ((shared []).mem.sharedPart (shared []).params) [(0x20003, 2), (0x101ff, 3)]) ∧
      State.reset.params.envStep = none := by
  refine ⟨?_, ?_, ?_, ?_, rfl, ⟨_, rfl, ?_⟩, rfl⟩
  · rw [← sharedByte_eq_true]; decide
  · rw [← sharedByte_eq_true]; decide
  · rw [← sharedByte_eq_true]; decide
  · rw [← sharedByte_eq_true]; decide
  · exact .head _

theorem witness_ResetHasInvariant : Memory.wf [(0x10000, 1), (0x20000, 2), (2 ^ 64 - 1, 3)] = true := by decide

theorem witness_StepKeepsInvariant : (fetching Params.default 0x00000005000001b7).Inv ∧
    (nextOf (step (fetching Params.default 0x00000005000001b7))).isSome = true :=
  ⟨⟨by decide, by decide⟩, by decide⟩

theorem witness_FixedForTheWholeRun :
    (State.after 2 { fetching Params.default 0 with program := [0x00000005000001b7, 0x00000005000001b7] }).isSome = true := by
  decide

/-- Under NEG_READING = negate_dst the forms of neg at the boundary of the check, and the others everywhere. -/
theorem witness_DecodeOfEncode : (Instr.neg64K .r9 0).wellFormed negateDst = true ∧
    (Instr.neg64X .r9 .r10).wellFormed Params.default = true ∧ (Instr.lddw .r0 7).wellFormed split32 = true := by decide

theorem witness_EncodeOfDecode : decode Params.default 0x118 (some 7) = .ok (.lddw .r1 7) ∧
    decode Params.default 0x95 (some 7) = .ok .exit := by decide

theorem witness_DecodedIsWellFormed : decode negateDst 0x187 none = .ok (.neg64K .r1 0) := by decide

theorem witness_PlacedWordRuns : decode Params.default (BitVec.ofNat 64 (0x00000005000001b7 % 2 ^ 64))
    (some (BitVec.ofNat 64 (0x00000005000001b7 % 2 ^ 64 / 2 ^ 64))) = .ok (.mov64K .r1 5) := by decide

/-- A computation, a fault, a call and an exit that answer a next state. -/
theorem witness_RegisterFrame : (nextOf (exec (.add64X .r1 (.gpr .r2)) (sample Params.default))).isSome = true ∧
    (nextOf (exec (.add64X .r1 (.gpr .r3)) (sample Params.default))).isSome = true ∧
    (nextOf (exec (.call 7) (calling sum [(.r1, 40), (.r2, 2)] [] []))).isSome = true ∧
    (nextOf (exec .exit (stateOf Params.default 5 [(.r0, 0x37)] []))).isSome = true ∧
    Gpr.r2 ∉ writes (.add64X .r1 (.gpr .r2)) ∧ isShift (.add64X .r1 (.gpr .r2)) = false := by decide

/-- A store of eight bytes at 0x101f8: the bytes beside it are outside. -/
theorem witness_MemoryFrame : (nextOf (exec (.stxdw .r10 (.gpr .r0) 0xfff8) (stacked Params.default))).isSome = true ∧
    storesTo (.stxdw .r10 (.gpr .r0) 0xfff8) (stacked Params.default) = some (0x101f8, 8) ∧
    OutsideStores (.stxdw .r10 (.gpr .r0) 0xfff8) (stacked Params.default) 0x101f7 ∧
    OutsideStores (.stxdw .r10 (.gpr .r0) 0xfff8) (stacked Params.default) 0x10200 ∧
    (stacked Params.default).params.alignStrict = true ∧ (stacked Params.default).params.envStep = none := by
  refine ⟨by decide, by decide, ?_, ?_, by decide, by decide⟩ <;>
  · intro ea n h
    have : (some (0x101f8#64, 8) : Option (Word × Nat)) = some (ea, n) := by
      rw [← h]; decide
    cases this
    decide

/-- A byte below the stack and one in a read-only region. -/
theorem witness_WritesOnlyWhereAllowed :
    ∃ p : Params, p.helpers = [] ∧ (∀ r ∈ p.allRegions, r.writable = true → regionHolds r 0x20000 = false) ∧
      ¬ OnlyShared p 0x20000 ∧ (∀ r ∈ p.allRegions, r.writable = true → regionHolds r 0xffff = false) ∧
      ¬ OnlyShared p 0xffff ∧
      (State.after 1 { fetching p 0x00000005000001b7 with mem := [(0x20000, 1)] }).isSome = true := by
  refine ⟨{ Params.default with regions := [⟨0x20000, 4, true, false, false⟩] }, rfl, by decide, ?_, by decide, ?_, by decide⟩ <;>
  · rw [← sharedByte_eq_true]; decide

/-- Two states that differ in a byte outside every region. -/
theorem witness_ReadsOnlyWhereAllowed :
    SameToProgram (fetching Params.default 0x00000005000001b7) { fetching Params.default 0x00000005000001b7 with mem := [(0, 1)] } ∧
      (State.after 1 (fetching Params.default 0x00000005000001b7)).isSome = true := by
  have out : ∀ x r, r ∈ Params.default.allRegions → regionHolds r x = true → none = Memory.read [(0, 1)] x := by
    intro x r hr hx
    have hr' : r = Params.default.stackRegion := by simpa [Params.allRegions, Params.default] using hr
    subst hr'
    simp only [regionHolds, Bool.and_eq_true, decide_eq_true_eq] at hx
    have : (Params.default.stackRegion).base.toNat = 0x10000 := rfl
    simp only [Memory.read]
    rw [if_neg (by omega)]
  exact ⟨⟨rfl, by decide, by decide, fun x ⟨r, hr, _, hx⟩ => out x r hr hx, fun x ⟨⟨r, hr, _, hx⟩, _⟩ => out x r hr hx⟩,
    by decide⟩

/-- Bytes at both ends of the stack and beside it, and each kind of register at entry. -/
theorem witness_EntryState : Params.default.stackBase.toNat ≤ 0x10000 ∧
    0x101ff < Params.default.stackBase.toNat + Params.default.stackSize ∧ 0xffff < Params.default.stackBase.toNat ∧
    Params.default.stackBase.toNat + Params.default.stackSize ≤ 0x10200 ∧
    (State.entry { Params.default with entryArgs := [7] } [] [(0x10000, 1), (0x20000, 2)] [] []).reg (.gpr .r1) = some 7 ∧
    (State.entry Params.default [] [(0x10000, 1), (0x20000, 2)] [] []).mem = [(0x20000, 2)] := by decide

/-- A register that holds a value, one that holds none, and R10. -/
theorem witness_RegisterFile : (sample Params.default).readReg (.gpr .r1) = .ok 0x8000000000000007 ∧
    (sample Params.default).readReg (.gpr .r3) = .error (.uninitRegister .r3) ∧
    (sample Params.default).readReg .r10 = .ok 0x10200 := by decide

end Sys2Proof.Tests
end

section
/-! PROOFS. The moves of other agents (R2, R55, R57, R293). -/

namespace Sys2Proof.Machine

/-- Every outcome that ENV_STEP allows has a number that makes it the step (R57). -/
theorem Memory.exists_envStep_eq_replace {m : Memory} {p : Params} {e : EnvStep} {after : List Host.Cell}
    (h : EnvAllows e (m.sharedPart p) after) : ∃ n, m.envStep p e n = m.replace (sharedByte p) after := by
  rcases Relation.allowed_cases e Config.envOutcomes (m.sharedPart p) with ⟨-, hnone⟩ | ⟨g, hg, hrel⟩
  · exact absurd h (hnone after)
  · obtain ⟨n, rfl⟩ := (hrel after).mp h
    exact ⟨n, by simp only [Memory.envStep, EnvStep.outcomes, hg]⟩

/-- A move whose choices are given makes the steps that they number (log 10). -/
theorem State.envMove_mem_of_given {s : State} {e : EnvStep} {ns : List Nat} {rest : List (List Nat)}
    (he : s.params.envStep = some e) (hgiven : s.envMoves.given = ns :: rest) :
    s.envMove.mem = s.mem.envSteps s.params e ns := by
  rw [State.envMove_mem s e he, Choices.next, hgiven]

/-- Settles O40: the frame is that of `envMove`, the steps of a move are those that `EnvReaches` collects, and an allowed step
is the move whose one choice is the step's number. -/
theorem otherAgentsMoveSharedBytes : Obligations.OtherAgentsMoveSharedBytes := by
  intro s
  refine ⟨s.envMove_eq, State.envMove_of_identity, fun x => State.envMove_read_of_not_shared, fun e he => ⟨?_, ?_, ?_⟩⟩
  · rw [State.envMove_mem s e he]
    exact Memory.envSteps_reaches _ _ _ _
  · intro rest hgiven
    exact State.envMove_mem_of_given he hgiven
  · intro after hallows
    obtain ⟨n, hn⟩ := Memory.exists_envStep_eq_replace hallows
    refine ⟨n, fun rest => ?_⟩
    intro u
    have hmove : u.envMove.mem = s.mem.replace (sharedByte s.params) after := by
      rw [State.envMove_mem_of_given (s := u) he rfl]
      exact hn
    rw [hmove]
    exact sharedBecame_replace s.params s.mem after

end Sys2Proof.Machine
end

section
/-! PROOFS. The state: what every step keeps (R22, R29, R40, R48, R58), the state at entry (R31), the register file (R20,
R30). -/

namespace Sys2Proof.Machine

/-! Data memory stays in canonical form. -/

/-- The state in which byte `i` of an access is met differs by moves of other agents (R51, R55). -/
theorem State.atByte_wf {s : State} (a n i : Nat) (h : s.mem.wf = true) : (s.atByte a n i).mem.wf = true := by
  simp only [State.atByte]
  split
  · exact h
  · exact State.moved_wf h i

/-- A permitted regular store, torn or not, keeps the canonical form: its bytes lie in the address space (R46, R47, R51). -/
theorem State.memWrite_wf {s t : State} {ea v : Word} {n : Nat} (h : s.mem.wf = true) (hw : s.memWrite ea n v = .ok t) :
    t.mem.wf = true := by
  obtain ⟨⟨hbound, -⟩, -, rfl⟩ := State.memWrite_cases hw
  have hlen : ea.toNat + (bytesOfValue s.params.hostEndian n v).length ≤ 2 ^ 64 := by rwa [bytesOfValue_length]
  split
  · exact Memory.wf_writeBytes _ h hlen
  · exact State.writeTorn_wf _ h hlen

/-- The store of an atomic operation keeps the canonical form: its read was permitted at the same bytes (R220, R244). -/
theorem State.atomicWrite_wf {s : State} {ea old : Word} {n : Nat} (v : Word) (h : s.mem.wf = true)
    (hr : s.atomicRead ea n = .ok old) : (s.atomicWrite ea n v).mem.wf = true := by
  obtain ⟨⟨hbound, -⟩, -⟩ := State.atomicRead_cases hr
  exact Memory.wf_writeBytes _ h (by rwa [bytesOfValue_length])

/-- Whatever an instruction does, it keeps data memory in canonical form (R40). -/
theorem Did.mem_wf {s t : State} {i : Instr} (hd : Did s i t) (h : s.mem.wf = true) : t.mem.wf = true := by
  cases hd with
  | raised f => exact h
  | computed dst v d => exact h
  | wide dst v => exact h
  | jumped taken off => rwa [State.jump_mem]
  | loaded n dst ea v u _ _ _ hr =>
    obtain ⟨-, -, bs, -, -, rfl⟩ := State.memRead_cases hr
    exact State.atByte_wf _ _ _ h
  | stored n ea v u _ _ _ hw =>
    rw [State.nextSlot_mem]
    exact State.memWrite_wf h hw
  | exchanged n ea old v d _ _ _ hr =>
    rw [State.nextSlot_mem, State.fetchTo_mem]
    exact State.atomicWrite_wf v h hr
  | compared n ea old => exact h
  | called imm g args ret after u _ _ _ hc =>
    rw [(State.chooseAnswer_eq_some hc).2]
    exact Memory.wf_replace _ _ h
  | exited v => exact h

/-! What a step keeps. -/

/-- A relation between states that a raised fault and every instruction establish, and that a move of other agents keeps,
holds across every step. -/
theorem step_induction {P : State → State → Prop} (raised : ∀ s f, P s (s.raise f))
    (did : ∀ {s t i}, Did s i t → P s t) (moved : ∀ {s t}, P s t → P s t.envMove) {s t : State}
    (h : step s = .next t) : P s t := by
  obtain ⟨-, ⟨f, -, rfl⟩ | ⟨i, u, -, he, rfl⟩⟩ := step_cases h
  · exact raised s f
  · have hu : P s u := did (exec_did he)
    split
    · exact moved hu
    · exact hu

/-- Every step keeps data memory in canonical form (R40). -/
theorem step_mem_wf {s t : State} (h : step s = .next t) : s.mem.wf = true → t.mem.wf = true :=
  step_induction (P := fun s t => s.mem.wf = true → t.mem.wf = true) (fun _ _ hs => hs) Did.mem_wf
    (fun ht hs => State.envMove_wf (ht hs)) h

/-- `t` agrees with `s` in what no program changes: R10 (R22), PROGRAM (R29, R58) and the parameters (R2). -/
def State.SameFixed (s t : State) : Prop :=
  t.fp = s.fp ∧ t.program = s.program ∧ t.params = s.params

theorem State.SameFixed.refl (s : State) : s.SameFixed s := ⟨rfl, rfl, rfl⟩

theorem State.SameFixed.trans {s t u : State} (hst : s.SameFixed t) (htu : t.SameFixed u) : s.SameFixed u := by
  obtain ⟨fp, program, params⟩ := hst
  obtain ⟨fp', program', params'⟩ := htu
  exact ⟨fp'.trans fp, program'.trans program, params'.trans params⟩

theorem State.sameFixed_raise (s : State) (f : RaisedFault) : s.SameFixed (s.raise f) := ⟨rfl, rfl, rfl⟩

theorem State.sameFixed_envMove (s : State) : s.SameFixed s.envMove :=
  ⟨s.envMove_fp, s.envMove_program, s.envMove_params⟩

theorem step_sameFixed {s t : State} (h : step s = .next t) : s.SameFixed t :=
  step_induction State.sameFixed_raise Did.fixed (fun {_ t} ht => ht.trans t.sameFixed_envMove) h

/-- Settles O46: memory stays canonical by the case analysis of what an instruction may have done, and R10 keeps its value
because neither it nor a parameter changes. -/
theorem stepKeepsInvariant : Obligations.StepKeepsInvariant := by
  intro s t ⟨hwf, hfp⟩ h
  obtain ⟨fp, -, params⟩ := step_sameFixed h
  exact ⟨step_mem_wf h hwf, by rw [fp, params, hfp]⟩

/-- Settles O47, by induction on the number of steps: agreement in the fixed parts holds across each step and composes. -/
theorem fixedForTheWholeRun : Obligations.FixedForTheWholeRun := fun _ _ _ h =>
  State.after_induction State.SameFixed.refl State.SameFixed.trans step_sameFixed h

/-! The state at program entry (R31). -/

/-- At entry the stack's bytes hold no value, and every other byte is as the environment put it (R31, R48). -/
theorem State.entry_mem_read (p : Params) (program : List Slot) (mem : Memory) (calls : List Nat)
    (moves : List (List Nat)) (x : Nat) : (State.entry p program mem calls moves).mem.read x =
      if p.stackBase.toNat ≤ x ∧ x < p.stackBase.toNat + p.stackSize then none else mem.read x := by
  have hread := mem.read_filter (fun a => !regionHolds p.stackRegion a) x
  have hstack : regionHolds p.stackRegion x = true ↔ p.stackBase.toNat ≤ x ∧ x < p.stackBase.toNat + p.stackSize :=
    regionHolds_stack
  simp only [Bool.not_eq_true', ← Bool.not_eq_true, hstack, ite_not] at hread
  exact hread

/-- R10 at entry as a number modulo 2^64 (R31). -/
theorem State.entry_fp (p : Params) (program : List Slot) (mem : Memory) (calls : List Nat) (moves : List (List Nat)) :
    (State.entry p program mem calls moves).fp = BitVec.ofNat 64 (p.stackBase.toNat + p.stackSize) := by
  rw [BitVec.ofNat_add, BitVec.ofNat_toNat, BitVec.setWidth_eq]
  rfl

/-- Settles O43: the registers one by one, R10 by `entry_fp`, memory by `entry_mem_read`. -/
theorem entryState : Obligations.EntryState := by
  intro p program mem answers moves s
  refine ⟨rfl, ?empty, ?arguments, ?frame, ?stack, ?rest, rfl, rfl, rfl⟩
  case empty =>
    intro r hr
    simp only [List.mem_cons, List.not_mem_nil, or_false] at hr
    obtain rfl | rfl | rfl | rfl | rfl := hr <;> rfl
  case arguments =>
    intro k r hkr
    simp only [List.mem_cons, List.not_mem_nil, or_false, Prod.mk.injEq] at hkr
    obtain ⟨rfl, rfl⟩ | ⟨rfl, rfl⟩ | ⟨rfl, rfl⟩ | ⟨rfl, rfl⟩ | ⟨rfl, rfl⟩ := hkr <;> rfl
  case frame => rw [State.reg_r10, State.entry_fp]
  case stack =>
    intro x hlow hhigh
    rw [State.entry_mem_read, if_pos ⟨hlow, hhigh⟩]
  case rest =>
    intro x hx
    rw [State.entry_mem_read, if_neg (by omega)]

/-- Program entry from canonical memory has the invariant: a part of canonical memory is canonical (R31, R48). -/
theorem State.entry_inv (p : Params) (program : List Slot) {mem : Memory} (calls : List Nat) (moves : List (List Nat))
    (h : mem.wf = true) : (State.entry p program mem calls moves).Inv :=
  ⟨Memory.wfFrom_filter _ h, rfl⟩

/-- Settles O45: reset is an entry, from empty memory. -/
theorem resetHasInvariant : Obligations.ResetHasInvariant :=
  ⟨State.entry_inv Params.default [] [] [] rfl, fun p program _ answers moves => State.entry_inv p program answers moves⟩

/-! The register file (R20, R22, R30). -/

/-- What every register of R0 to R10 holds after a write: R10 is never the one written (R22). -/
theorem State.reg_setReg (s : State) (r : Gpr) (v : Word) (q : Reg) :
    (s.setReg r v).reg q = if q = .gpr r then some v else s.reg q := by
  cases q with
  | gpr q => simp only [State.reg_gpr, State.setReg_regs, Regs.get_set, Reg.gpr.injEq]
  | r10 => rw [if_neg (by simp)]; rfl

/-- A read raises UninitRead of `g` exactly where it reads `g` and `g` holds no value (R30, R265). -/
theorem State.readReg_eq_uninit {s : State} {q : Reg} {g : Gpr} :
    s.readReg q = .error (.uninitRegister g) ↔ q = .gpr g ∧ s.regs.get g = none := by
  constructor
  · intro h
    rcases s.readReg_cases q with ⟨v, -, hr⟩ | ⟨g', hq, hnone, hr⟩
    · rw [hr] at h; cases h
    · rw [hr] at h; cases h
      subst hq
      exact ⟨rfl, hnone⟩
  · rintro ⟨rfl, hnone⟩
    exact State.readReg_of_none hnone

/-- Settles O41: the register laws, R10 among the registers that a write leaves. -/
theorem registerFile : Obligations.RegisterFile := fun s r v q =>
  ⟨s.reg_setReg r v q, fun _ => State.readReg_eq_ok, fun _ => State.readReg_eq_uninit⟩

end Sys2Proof.Machine
end

section
/-! PROOFS. Memory accesses: the effective address (R41), the checks (R47, R49, R244), the bytes of a wide write (R60). -/

namespace Sys2Proof.Machine

/-- Settles O42: sign extension keeps the two's complement number, and the sum of words is the sum modulo 2^64. -/
theorem effectiveAddress_eq_ofInt : Obligations.EffectiveAddress := by
  intro base off
  rw [effectiveAddress, BitVec.signExtend, BitVec.ofInt_add, BitVec.ofInt_natCast, BitVec.ofNat_toNat, BitVec.setWidth_eq]

/-! The checks before an access. -/

/-- The region check records its own kind, never `misaligned` (R267). -/
theorem AccessKind.fault_ne_misaligned (k : AccessKind) : k.fault ≠ .misaligned := by
  cases k <;> simp [AccessKind.fault]

/-- Settles O38: the three cases of the checks exclude each other, and so do their answers. -/
theorem accessChecks : Obligations.AccessChecks := by
  intro s ea n k strict
  have hk := k.fault_ne_misaligned
  by_cases hp : Permitted s.params ea.toNat n k
  · by_cases ha : strict = true → ea.toNat % n = 0
    · rw [State.checkAccess_of_allowed hp ha]
      simpa [hp] using ha
    · obtain ⟨hstrict, hmis⟩ := Classical.not_imp.mp ha
      rw [State.checkAccess_of_misaligned hp hstrict hmis]
      simp [hp, hstrict, hmis, hk.symm]
  · rw [State.checkAccess_of_not_permitted hp]
    simp [hp, hk]

/-! Narrow reads of a wide write (R60). -/

/-- A regular read that passes its checks, is aligned and finds the bytes `bs` gives their value (R45). -/
theorem State.memRead_of_holds {s : State} {ea : Word} {n : Nat} {bs : List Byte}
    (hp : Permitted s.params ea.toNat n .read) (ha : ea.toNat % n = 0) (hb : s.Holds ea.toNat n bs) :
    s.memRead ea n = .ok (valueOfBytes s.params.hostEndian bs, s) := by
  rw [State.memRead, State.checkAccess_of_allowed hp fun _ => ha, except_ok_bind, if_pos (aligned_eq_true.mpr ha),
    State.readBytes_eq_ok.mpr hb]
  rfl

/-- What the region check permits, it permits for a part of the bytes (R47). -/
theorem Permitted.part {p : Params} {a n b m : Nat} {k : AccessKind} (h : Permitted p a n k) (hlow : a ≤ b)
    (hhigh : b + m ≤ a + n) : Permitted p b m k := by
  obtain ⟨hbound, r, hr, hbase, hend, rights⟩ := h
  exact ⟨by omega, r, hr, by omega, by omega, rights⟩

/-- The low bytes of a value shifted right are a field of its bits. -/
theorem lowBytes_shiftRight (v : Word) (j m : Nat) :
    lowBytes m (v >>> (8 * j)) = zeroExtended (v.extractLsb' (8 * j) (8 * m)) := by
  simp only [lowBytes, zeroExtended, BitVec.toNat_ushiftRight, BitVec.extractLsb'_toNat]
  rw [show (256 : Nat) ^ m = 2 ^ (8 * m) by rw [Nat.pow_mul]]

/-- Where the field of `m` bytes that stand at offset `k` of eight lies in the value, in bytes from the low end (R45). -/
def fieldOffset (e : Endian) (k m : Nat) : Nat :=
  match e with
  | .little => k
  | .big => 8 - k - m

/-- The `m` bytes at offset `k` of the eight of a value are those of the value's field there. -/
theorem bytesOfValue_field (e : Endian) (v : Word) {k m i : Nat} (hk : k + m ≤ 8) (hi : i < m) :
    (bytesOfValue e 8 v)[k + i]? = (bytesOfValue e m (v >>> (8 * fieldOffset e k m)))[i]? := by
  rw [bytesOfValue_getElem? e 8 v _ (by omega), bytesOfValue_getElem? e m _ i hi]
  simp only [← ofNat_div_eq_extract, BitVec.toNat_ushiftRight, Nat.shiftRight_eq_div_pow, Nat.pow_mul 2 8,
    Nat.div_div_eq_div_mul, Nat.reducePow, ← Nat.pow_add]
  cases e with
  | little => rfl
  | big => simp only [fieldOffset]; congr 4; omega

/-- After an aligned write of eight bytes, an aligned read of `m` of them that is permitted sees the field of the value that
stands there (R45, R46, R60). -/
theorem State.memRead_of_memWrite {s t : State} {a v : Word} (ha : a.toNat % 8 = 0)
    (hp : Permitted s.params a.toNat 8 .read) (hw : s.memWrite a 8 v = .ok t) (k m : Nat) (hm : 0 < m) (hk : k + m ≤ 8)
    (hkm : (a.toNat + k) % m = 0) :
    t.memRead (a + BitVec.ofNat 64 k) m =
      .ok (zeroExtended (v.extractLsb' (8 * fieldOffset s.params.hostEndian k m) (8 * m)), t) := by
  obtain ⟨-, -, rfl⟩ := State.memWrite_cases hw
  rw [if_pos ha]
  have hea : (a + BitVec.ofNat 64 k).toNat = a.toNat + k := by
    rw [BitVec.toNat_add, BitVec.toNat_ofNat]
    omega
  have hholds : (s.writeBytes a.toNat (bytesOfValue s.params.hostEndian 8 v)).Holds (a + BitVec.ofNat 64 k).toNat m
      (bytesOfValue s.params.hostEndian m (v >>> (8 * fieldOffset s.params.hostEndian k m))) := by
    refine ⟨bytesOfValue_length .., fun i hi => ?_⟩
    rw [State.writeBytes_mem, Memory.read_writeBytes, bytesOfValue_length, if_pos (by omega), hea,
      show a.toNat + k + i - a.toNat = k + i by omega, bytesOfValue_field _ v hk hi]
  rw [State.memRead_of_holds (by rw [hea]; exact hp.part (by omega) (by omega)) (by rw [hea]; exact hkm) hholds,
    State.writeBytes_params, valueOfBytes_bytesOfValue, lowBytes_shiftRight]

/-- Settles O39: the three reads at the offsets 0, 6 and 4, in either byte order. -/
theorem mixedWidthAccesses : Obligations.MixedWidthAccesses := by
  intro s t a v ha hp hw
  have byte := State.memRead_of_memWrite ha hp hw 0 1 (by omega) (by omega) (by omega)
  have half := State.memRead_of_memWrite ha hp hw 6 2 (by omega) (by omega) (by omega)
  have word := State.memRead_of_memWrite ha hp hw 4 4 (by omega) (by omega) (by omega)
  rw [show a + BitVec.ofNat 64 0 = a from BitVec.add_zero a] at byte
  constructor <;> intro he <;> rw [he] at byte half word <;> exact ⟨byte, half, word⟩

end Sys2Proof.Machine
end

section
/-! PROOFS. What memory an instruction changes: the bytes it stores to (R46, R200), which lie in a writable region (R47,
R54). -/

namespace Sys2Proof.Machine

/-- Other agents do not reach the byte at `x` within an instruction: its accesses are aligned, nothing else moves, or the byte
is none of theirs (R51, R55). -/
def Undisturbed (s : State) (x : Nat) : Prop :=
  s.params.alignStrict = true ∨ s.params.envStep = none ∨ ¬ OnlyShared s.params x

/-- A regular load changes no byte that other agents do not reach within it (R51, R55). -/
theorem State.memRead_mem_read {s t : State} {ea v : Word} {n x : Nat} (hr : s.memRead ea n = .ok (v, t))
    (hx : Undisturbed s x) : t.mem.read x = s.mem.read x := by
  obtain ⟨-, haligned, bs, -, -, rfl⟩ := State.memRead_cases hr
  by_cases ha : ea.toNat % n = 0
  · rw [State.atByte, if_pos ha]
  · rw [State.atByte, if_neg ha]
    rcases hx with hstrict | hidentity | hshared
    · exact absurd (haligned hstrict) ha
    · rw [State.moved_of_identity hidentity]
    · exact State.moved_read_of_not_shared hshared _

/-- A regular store changes no byte outside it that other agents do not reach within it (R46, R51, R55). -/
theorem State.memWrite_mem_read {s t : State} {ea v : Word} {n x : Nat} (hw : s.memWrite ea n v = .ok t)
    (hx : Undisturbed s x) (hout : x < ea.toNat ∨ ea.toNat + n ≤ x) : t.mem.read x = s.mem.read x := by
  obtain ⟨-, haligned, rfl⟩ := State.memWrite_cases hw
  have hlen := bytesOfValue_length s.params.hostEndian n v
  have hplain : (s.writeBytes ea.toNat (bytesOfValue s.params.hostEndian n v)).mem.read x = s.mem.read x :=
    Memory.read_writeBytes_of_outside _ (by rwa [hlen])
  split
  case isTrue => exact hplain
  case isFalse ha =>
    rcases hx with hstrict | hidentity | hshared
    · exact absurd (haligned hstrict) ha
    · rw [State.writeTorn_of_identity _ hidentity]
      exact hplain
    · exact State.writeTorn_read_of_outside _ (by rwa [hlen]) hshared

/-- The byte at `x` is one of those that the instruction stores to, at a place where a store is permitted (R47). -/
def StoresAllowedAt (i : Instr) (s : State) (x : Nat) : Prop :=
  ∃ ea n, storesTo i s = some (ea, n) ∧ Permitted s.params ea.toNat n .write ∧ ea.toNat ≤ x ∧ x < ea.toNat + n

/-- An atomic access is permitted only where a store is (R244). -/
theorem Permitted.write_of_atomic {p : Params} {a n : Nat} (h : Permitted p a n .atomic) : Permitted p a n .write := by
  obtain ⟨hbound, r, hr, hbase, hend, -, hwritable⟩ := h
  exact ⟨hbound, r, hr, hbase, hend, fun hne => absurd rfl hne, fun _ => hwritable (by simp)⟩

/-- A byte that other agents do not reach within an instruction, which is no call of a function, keeps its value or is one
that the instruction may store to. -/
theorem Did.mem_read {s t : State} {i : Instr} {x : Nat} (hd : Did s i t)
    (hcall : ∀ imm, i = .call imm → helperOf s.params.helpers imm = none) (hx : Undisturbed s x) :
    t.mem.read x = s.mem.read x ∨ StoresAllowedAt i s x := by
  cases hd with
  | raised f => exact .inl rfl
  | computed dst v d => exact .inl rfl
  | wide dst v => exact .inl rfl
  | jumped taken off => rw [State.jump_mem]; exact .inl rfl
  | loaded n dst ea v u _ _ _ hr =>
    rw [State.nextSlot_mem, State.setReg_mem]
    exact .inl (State.memRead_mem_read hr hx)
  | stored n ea v u _ hs _ hw =>
    obtain ⟨hp, -⟩ := State.memWrite_cases hw
    rw [State.nextSlot_mem]
    by_cases hout : x < ea.toNat ∨ ea.toNat + n ≤ x
    · exact .inl (State.memWrite_mem_read hw hx hout)
    · exact .inr ⟨ea, n, hs, hp, by omega, by omega⟩
  | exchanged n ea old v d _ hs _ hr =>
    obtain ⟨hp, -⟩ := State.atomicRead_cases hr
    by_cases hout : x < ea.toNat ∨ ea.toNat + n ≤ x
    · rw [State.nextSlot_mem, State.fetchTo_mem]
      exact .inl (Memory.read_writeBytes_of_outside _ (by rwa [bytesOfValue_length]))
    · exact .inr ⟨ea, n, hs, hp.write_of_atomic, by omega, by omega⟩
  | compared n ea old => exact .inl rfl
  | called imm g args ret after u hi hg => rw [hcall imm hi] at hg; cases hg
  | exited v => exact .inl rfl

/-- Settles O55: a byte outside the stores of the instruction is none that it may store to. -/
theorem memoryFrame : Obligations.MemoryFrame := by
  intro i s t hcall h x hout hx
  rcases (exec_did h).mem_read (fun imm hi => absurd hi (hcall imm)) hx with hsame | ⟨ea, n, hs, -, hlow, hhigh⟩
  · exact hsame
  · have := hout ea n hs
    omega

/-! Bytes outside every writable region. -/

/-- No writable region holds the byte (R47). -/
def Unwritable (p : Params) (x : Nat) : Prop :=
  ∀ r ∈ p.allRegions, r.writable = true → regionHolds r x = false

/-- A permitted access lies in the region that permits it. -/
theorem regionHolds_of_within {r : Region} {a n x : Nat} (hbase : r.base.toNat ≤ a)
    (hend : a + n ≤ r.base.toNat + r.length) (hlow : a ≤ x) (hhigh : x < a + n) : regionHolds r x = true := by
  simp only [regionHolds, Bool.and_eq_true, decide_eq_true_eq]
  omega

/-- No instruction may store to a byte outside every writable region (R47). -/
theorem Unwritable.not_storesAllowedAt {i : Instr} {s : State} {x : Nat} (hx : Unwritable s.params x) :
    ¬ StoresAllowedAt i s x := by
  rintro ⟨ea, n, -, ⟨-, r, hr, hbase, hend, -, hwritable⟩, hlow, hhigh⟩
  have hno := hx r hr (hwritable (by simp))
  rw [regionHolds_of_within hbase hend hlow hhigh] at hno
  cases hno

/-- `t` has the parameters of `s` and, where those name no function to call, the bytes of `s` that neither the program nor
another agent may write. -/
def State.KeepsUnwritable (s t : State) : Prop :=
  t.params = s.params ∧ (s.params.helpers = [] →
    ∀ x, Unwritable s.params x → ¬ OnlyShared s.params x → t.mem.read x = s.mem.read x)

theorem State.KeepsUnwritable.refl (s : State) : s.KeepsUnwritable s := ⟨rfl, fun _ _ _ _ => rfl⟩

theorem State.KeepsUnwritable.trans {s t u : State} (hst : s.KeepsUnwritable t) (htu : t.KeepsUnwritable u) :
    s.KeepsUnwritable u := by
  obtain ⟨hparams, hst⟩ := hst
  obtain ⟨hparams', htu⟩ := htu
  rw [hparams] at hparams' htu
  exact ⟨hparams', fun hh x hx hshared => (htu hh x hx hshared).trans (hst hh x hx hshared)⟩

theorem State.keepsUnwritable_envMove (s : State) : s.KeepsUnwritable s.envMove :=
  ⟨s.envMove_params, fun _ _ _ hshared => State.envMove_read_of_not_shared hshared⟩

/-- Whatever an instruction does, it keeps the bytes outside every writable region (R47, R54). -/
theorem Did.keepsUnwritable {s t : State} {i : Instr} (hd : Did s i t) : s.KeepsUnwritable t := by
  obtain ⟨-, -, hparams⟩ := hd.fixed
  refine ⟨hparams, fun hh x hx hshared => ?_⟩
  have hcall : ∀ imm, i = .call imm → helperOf s.params.helpers imm = none := fun imm _ => by rw [hh]; rfl
  exact (hd.mem_read hcall (.inr (.inr hshared))).resolve_right hx.not_storesAllowedAt

/-- Settles O56, by induction on the number of steps: the bytes are kept by a raised fault, by every instruction and by the
moves of other agents. -/
theorem writesOnlyWhereAllowed : Obligations.WritesOnlyWhereAllowed := by
  intro n s t hh h
  have hstep : ∀ {s t : State}, step s = .next t → s.KeepsUnwritable t :=
    step_induction (fun s _ => .refl s) Did.keepsUnwritable fun ht => ht.trans (State.keepsUnwritable_envMove _)
  obtain ⟨-, hkeeps⟩ := State.after_induction State.KeepsUnwritable.refl State.KeepsUnwritable.trans hstep h
  exact hkeeps hh

end Sys2Proof.Machine
end

section
/-! PROOFS. Bytes that no program reads and no other agent shares have no influence (R47, R54, R57, R275): two runs from states
that are the same to the program go alike, operation by operation. -/

namespace Sys2Proof.Machine

/-! Memories that are the same to the program. -/

/-- The byte may influence a run: some region lets the program read it, or other agents share it (R47, R57). -/
def Influences (p : Params) (x : Nat) : Prop :=
  (∃ r ∈ p.allRegions, r.readable = true ∧ regionHolds r x = true) ∨ OnlyShared p x

/-- Two memories in canonical form that agree in every byte that may influence a run. -/
structure Memory.Alike (p : Params) (m k : Memory) : Prop where
  wf_left : m.wf = true
  wf_right : k.wf = true
  read_eq : ∀ {x}, Influences p x → m.read x = k.read x

/-- Every byte of a permitted access that reads may influence a run (R47). -/
theorem Permitted.influences {p : Params} {a n i : Nat} {k : AccessKind} (h : Permitted p a n k) (hk : k ≠ .write)
    (hi : i < n) : Influences p (a + i) := by
  obtain ⟨-, r, hr, hbase, hend, hreadable, -⟩ := h
  exact .inl ⟨r, hr, hreadable hk, regionHolds_of_within hbase hend (by omega) (by omega)⟩

section
variable {p : Params} {m k : Memory}

theorem Memory.Alike.write (h : Memory.Alike p m k) {a : Nat} (b : Byte) (ha : a < 2 ^ 64) :
    Memory.Alike p (m.write a b) (k.write a b) where
  wf_left := Memory.wf_write b h.wf_left ha
  wf_right := Memory.wf_write b h.wf_right ha
  read_eq hx := by rw [Memory.read_write, Memory.read_write, h.read_eq hx]

theorem Memory.Alike.writeBytes (h : Memory.Alike p m k) {a : Nat} (bs : List Byte) (ha : a + bs.length ≤ 2 ^ 64) :
    Memory.Alike p (m.writeBytes a bs) (k.writeBytes a bs) where
  wf_left := Memory.wf_writeBytes bs h.wf_left ha
  wf_right := Memory.wf_writeBytes bs h.wf_right ha
  read_eq hx := by rw [Memory.read_writeBytes, Memory.read_writeBytes, h.read_eq hx]

theorem Memory.Alike.replace (h : Memory.Alike p m k) (here : Nat → Bool) (after : List Host.Cell) :
    Memory.Alike p (m.replace here after) (k.replace here after) where
  wf_left := Memory.wf_replace here after h.wf_left
  wf_right := Memory.wf_replace here after h.wf_right
  read_eq hx := by rw [Memory.read_replace, Memory.read_replace, h.read_eq hx]

theorem Memory.read_sharedPart (m : Memory) (p : Params) (x : Nat) :
    Memory.read (m.sharedPart p) x = if sharedByte p x then m.read x else none :=
  m.read_filter (sharedByte p) x

/-- The shared bytes, on which ENV_STEP may depend, are the same data (R57). -/
theorem Memory.Alike.sharedPart_eq (h : Memory.Alike p m k) : m.sharedPart p = k.sharedPart p := by
  refine Memory.eq_of_read_eq (Memory.wfFrom_filter _ h.wf_left) (Memory.wfFrom_filter _ h.wf_right) fun x => ?_
  rw [Memory.read_sharedPart, Memory.read_sharedPart]
  split
  case isTrue hshared => exact h.read_eq (.inr (sharedByte_eq_true.mp hshared))
  case isFalse => rfl

theorem Memory.Alike.envStep (h : Memory.Alike p m k) (e : EnvStep) (n : Nat) :
    Memory.Alike p (m.envStep p e n) (k.envStep p e n) := by
  rw [Memory.envStep, Memory.envStep, h.sharedPart_eq]
  split
  · exact h
  · exact h.replace _ _

theorem Memory.Alike.envSteps (h : Memory.Alike p m k) (e : EnvStep) (ns : List Nat) :
    Memory.Alike p (m.envSteps p e ns) (k.envSteps p e ns) := by
  induction ns generalizing m k with
  | nil => exact h
  | cons n ns ih => exact ih (h.envStep e n)

end

/-! States that are the same to the program, and the operations that keep them so. -/

theorem sameToProgram_iff {s s' : State} :
    SameToProgram s s' ↔ ∃ k, s' = { s with mem := k } ∧ Memory.Alike s.params s.mem k := by
  constructor
  · rintro ⟨heq, hwf, hwf', hreadable, hshared⟩
    exact ⟨s'.mem, heq, hwf, hwf', fun hx => hx.elim (hreadable _) (hshared _)⟩
  · rintro ⟨k, rfl, h⟩
    exact ⟨rfl, h.wf_left, h.wf_right, fun _ hx => h.read_eq (.inl hx), fun _ hx => h.read_eq (.inr hx)⟩

section
variable {s s' : State}

/-- They differ in memory alone. -/
theorem SameToProgram.eq_with_mem (h : SameToProgram s s') : s' = { s with mem := s'.mem } := by
  obtain ⟨heq, -⟩ := h
  exact heq

theorem SameToProgram.params_eq (h : SameToProgram s s') : s'.params = s.params := by rw [h.eq_with_mem]

theorem SameToProgram.status_eq (h : SameToProgram s s') : s'.status = s.status := by rw [h.eq_with_mem]

/-- An update that neither looks at memory nor changes it or the parameters keeps states the same to the program. -/
theorem SameToProgram.update (h : SameToProgram s s') (g : State → State)
    (hg : ∀ s k, g { s with mem := k } = { g s with mem := k }) (hmem : ∀ s, (g s).mem = s.mem)
    (hparams : ∀ s, (g s).params = s.params) : SameToProgram (g s) (g s') := by
  obtain ⟨k, rfl, hk⟩ := sameToProgram_iff.mp h
  exact sameToProgram_iff.mpr ⟨k, hg s k, by rwa [hmem, hparams]⟩

theorem SameToProgram.setReg (h : SameToProgram s s') (r : Gpr) (v : Word) : SameToProgram (s.setReg r v) (s'.setReg r v) :=
  h.update (·.setReg r v) (fun _ _ => rfl) (fun _ => rfl) fun _ => rfl

theorem SameToProgram.advance (h : SameToProgram s s') (n : Int) : SameToProgram (s.advance n) (s'.advance n) :=
  h.update (·.advance n) (fun _ _ => rfl) (fun _ => rfl) fun _ => rfl

theorem SameToProgram.nextSlot (h : SameToProgram s s') : SameToProgram s.nextSlot s'.nextSlot := h.advance 1

theorem SameToProgram.raise (h : SameToProgram s s') (f : RaisedFault) : SameToProgram (s.raise f) (s'.raise f) :=
  h.update (·.raise f) (fun _ _ => rfl) (fun _ => rfl) fun _ => rfl

theorem SameToProgram.exit (h : SameToProgram s s') (v : Word) : SameToProgram (s.exit v) (s'.exit v) :=
  h.update (·.exit v) (fun _ _ => rfl) (fun _ => rfl) fun _ => rfl

theorem SameToProgram.jump (h : SameToProgram s s') (taken : Bool) (off : BitVec 16) :
    SameToProgram (s.jump taken off) (s'.jump taken off) := by
  cases taken with
  | false => exact h.nextSlot
  | true => exact h.advance _

theorem SameToProgram.fetchTo (h : SameToProgram s s') (d : FetchTo) (old : Word) :
    SameToProgram (s.fetchTo d old) (s'.fetchTo d old) := by
  cases d with
  | nothing => exact h
  | register r => exact h.setReg r old

/-- Values that agree, with states that are the same to the program after them. -/
def ValueAlike {α : Type} (x y : α × State) : Prop :=
  x.1 = y.1 ∧ SameToProgram x.2 y.2

theorem ValueAlike.setReg {α : Type} {x y : α × State} (h : ValueAlike x y) (r : Gpr) (g : α → Word) :
    SameToProgram (x.2.setReg r (g x.1)) (y.2.setReg r (g y.1)) := by
  obtain ⟨hvalue, hstate⟩ := h
  rw [hvalue]
  exact hstate.setReg r _

/-- A shift gives the same result: a draw depends on the count of draws only (R139). -/
theorem SameToProgram.shifted64 (h : SameToProgram s s') (f : Word → Nat → Word) (x y : Word) :
    ValueAlike (s.shifted64 f x y) (s'.shifted64 f x y) := by
  obtain ⟨k, rfl, hk⟩ := sameToProgram_iff.mp h
  simp only [State.shifted64]
  split
  · exact ⟨rfl, h⟩
  · split
    · exact ⟨rfl, h⟩
    · exact ⟨rfl, sameToProgram_iff.mpr ⟨k, rfl, hk⟩⟩

theorem SameToProgram.shifted32 (h : SameToProgram s s') (f : BitVec 32 → Nat → BitVec 32) (x y : BitVec 32) :
    ValueAlike (s.shifted32 f x y) (s'.shifted32 f x y) := by
  obtain ⟨k, rfl, hk⟩ := sameToProgram_iff.mp h
  simp only [State.shifted32]
  split
  · exact ⟨rfl, h⟩
  · split
    · exact ⟨rfl, h⟩
    · exact ⟨rfl, sameToProgram_iff.mpr ⟨k, rfl, hk⟩⟩

/-- Other agents move alike: their steps depend on the shared bytes only (R57). -/
theorem SameToProgram.envMove (h : SameToProgram s s') : SameToProgram s.envMove s'.envMove := by
  obtain ⟨k, rfl, hk⟩ := sameToProgram_iff.mp h
  simp only [State.envMove]
  split
  · exact h
  · exact sameToProgram_iff.mpr ⟨_, rfl, hk.envSteps _ _⟩

theorem SameToProgram.moved (h : SameToProgram s s') (n : Nat) : SameToProgram (s.moved n) (s'.moved n) := by
  induction n with
  | zero => exact h
  | succ n ih => exact ih.envMove

theorem SameToProgram.setByte (h : SameToProgram s s') {a : Nat} (b : Byte) (ha : a < 2 ^ 64) :
    SameToProgram (s.setByte a b) (s'.setByte a b) := by
  obtain ⟨k, rfl, hk⟩ := sameToProgram_iff.mp h
  exact sameToProgram_iff.mpr ⟨_, rfl, hk.write b ha⟩

theorem SameToProgram.writeBytes (h : SameToProgram s s') {a : Nat} (bs : List Byte) (ha : a + bs.length ≤ 2 ^ 64) :
    SameToProgram (s.writeBytes a bs) (s'.writeBytes a bs) := by
  obtain ⟨k, rfl, hk⟩ := sameToProgram_iff.mp h
  exact sameToProgram_iff.mpr ⟨_, rfl, hk.writeBytes bs ha⟩

theorem SameToProgram.writeTorn (h : SameToProgram s s') {a : Nat} (bs : List Byte) (ha : a + bs.length ≤ 2 ^ 64) :
    SameToProgram (s.writeTorn a bs) (s'.writeTorn a bs) := by
  induction bs generalizing s s' a with
  | nil => exact h
  | cons b bs ih =>
    simp only [List.length_cons] at ha
    cases bs with
    | nil => exact h.setByte b (by omega)
    | cons c bs => exact ih (h.setByte b (by omega)).envMove (by simp only [List.length_cons] at ha ⊢; omega)

/-! What the program reads of such states. -/

theorem SameToProgram.mem_read_eq (h : SameToProgram s s') {x : Nat} (hx : Influences s.params x) :
    s'.mem.read x = s.mem.read x := by
  obtain ⟨k, rfl, hk⟩ := sameToProgram_iff.mp h
  exact (hk.read_eq hx).symm

theorem SameToProgram.readReg_eq (h : SameToProgram s s') (r : Reg) : s'.readReg r = s.readReg r := by
  rw [h.eq_with_mem]; cases r <;> rfl

theorem SameToProgram.readLow32_eq (h : SameToProgram s s') (r : Reg) : s'.readLow32 r = s.readLow32 r := by
  rw [State.readLow32, State.readLow32, h.readReg_eq]

theorem SameToProgram.source64_eq (h : SameToProgram s s') (b : Source) : s'.source64 b = s.source64 b := by
  cases b with
  | imm i => rfl
  | reg r => exact h.readReg_eq r

theorem SameToProgram.source32_eq (h : SameToProgram s s') (b : Source) : s'.source32 b = s.source32 b := by
  cases b with
  | imm i => rfl
  | reg r => exact h.readLow32_eq r

theorem SameToProgram.checkAccess_eq (h : SameToProgram s s') (ea : Word) (n : Nat) (k : AccessKind) (strict : Bool) :
    s'.checkAccess ea n k strict = s.checkAccess ea n k strict := by
  rw [State.checkAccess, State.checkAccess, h.params_eq]

theorem SameToProgram.fetch_eq (h : SameToProgram s s') : s'.fetch = s.fetch := by
  rw [h.eq_with_mem]; rfl

/-- A permitted read of bytes at once finds the same bytes, or the same lowest one without a value (R45, R265). -/
theorem SameToProgram.readBytes_eq (h : SameToProgram s s') {a n : Nat} (hread : ∀ i, i < n → Influences s.params (a + i)) :
    s'.readBytes a n = s.readBytes a n := by
  have hsame : ∀ i, i < n → s'.mem.read (a + i) = s.mem.read (a + i) := fun i hi => h.mem_read_eq (hread i hi)
  cases hr : s.readBytes a n with
  | ok bs =>
    obtain ⟨hlen, hbytes⟩ := State.readBytes_eq_ok.mp hr
    exact State.readBytes_eq_ok.mpr ⟨hlen, fun i hi => (hsame i hi).trans (hbytes i hi)⟩
  | error f =>
    obtain ⟨i, hi, hf, hnone, hbelow⟩ := State.readBytes_eq_error.mp hr
    exact State.readBytes_eq_error.mpr
      ⟨i, hi, hf, (hsame i hi).trans hnone, fun j hj => by rw [hsame j (by omega)]; exact hbelow j hj⟩

/-- An atomic read gives the same value or the same fault (R244). -/
theorem SameToProgram.atomicRead_eq (h : SameToProgram s s') (ea : Word) (n : Nat) :
    s'.atomicRead ea n = s.atomicRead ea n := by
  rw [State.atomicRead, State.atomicRead, h.checkAccess_eq, h.params_eq]
  cases hc : s.checkAccess ea n .atomic true with
  | error f => rfl
  | ok u =>
    have hp := State.checkAccess_bound hc
    rw [except_ok_bind, except_ok_bind, h.readBytes_eq fun i hi => hp.influences (by simp) hi]

/-- The store of an atomic operation, whose read was permitted at the same bytes, keeps states the same to the program. -/
theorem SameToProgram.atomicWrite (h : SameToProgram s s') {ea old : Word} {n : Nat} (hr : s.atomicRead ea n = .ok old)
    (v : Word) : SameToProgram (s.atomicWrite ea n v) (s'.atomicWrite ea n v) := by
  obtain ⟨⟨hbound, -⟩, -⟩ := State.atomicRead_cases hr
  rw [State.atomicWrite, State.atomicWrite, h.params_eq]
  exact h.writeBytes _ (by rwa [bytesOfValue_length])

end

/-! Computations that go alike. -/

/-- Two computations that may fault go alike: both raise the same fault, or `R` relates what they give. -/
inductive GoAlike {α : Type} (R : α → α → Prop) : Except RaisedFault α → Except RaisedFault α → Prop
  | ok {a b : α} : R a b → GoAlike R (.ok a) (.ok b)
  | error (f : RaisedFault) : GoAlike R (.error f) (.error f)

theorem GoAlike.bind {α β : Type} {R : α → α → Prop} {Q : β → β → Prop} {x y : Except RaisedFault α}
    {f g : α → Except RaisedFault β} (hxy : GoAlike R x y) (h : ∀ a b, R a b → GoAlike Q (f a) (g b)) :
    GoAlike Q (x >>= f) (y >>= g) := by
  cases hxy with
  | ok hab => exact h _ _ hab
  | error f => exact .error f

/-- Where both do the same first, the rest has to go alike only after what that gives. -/
theorem GoAlike.bind_same {α β : Type} {Q : β → β → Prop} {x y : Except RaisedFault α} {f g : α → Except RaisedFault β}
    (hxy : y = x) (h : ∀ a, x = .ok a → GoAlike Q (f a) (g a)) : GoAlike Q (x >>= f) (y >>= g) := by
  subst hxy
  cases hx : y with
  | ok a => exact h a hx
  | error f => exact .error f

/-- Two results are alike: the next states are the same to the program, or neither has one. -/
inductive ResultsAlike : Result → Result → Prop
  | next {t t' : State} : SameToProgram t t' → ResultsAlike (.next t) (.next t')
  | fault (f : Fault) : ResultsAlike (.fault f) (.fault f)
  | refused (q : Refusal) : ResultsAlike (.refused q) (.refused q)

theorem ResultsAlike.exists_next {r' : Result} {t : State} (h : ResultsAlike (.next t) r') :
    ∃ t', r' = .next t' ∧ SameToProgram t t' := by
  cases h with
  | next ht => exact ⟨_, rfl, ht⟩

section
variable {s s' : State}

theorem SameToProgram.finish (h : SameToProgram s s') {m m' : Except RaisedFault State}
    (hm : GoAlike SameToProgram m m') : ResultsAlike (s.finish m) (s'.finish m') := by
  cases hm with
  | ok ht => exact .next ht
  | error f => exact .next (h.raise f)

/-- A permitted read byte by byte finds the same bytes, other agents moving alike between them (R51). -/
theorem SameToProgram.readTorn (h : SameToProgram s s') {a n : Nat} (hread : ∀ i, i < n → Influences s.params (a + i)) :
    GoAlike ValueAlike (s.readTorn a n) (s'.readTorn a n) := by
  have hsame : ∀ i, i < n → (s'.moved i).mem.read (a + i) = (s.moved i).mem.read (a + i) := fun i hi =>
    (h.moved i).mem_read_eq (by rw [State.moved_params]; exact hread i hi)
  cases hr : s.readTorn a n with
  | ok bt =>
    obtain ⟨hlen, hbytes, ht⟩ := State.readTorn_eq_ok.mp hr
    rw [State.readTorn_eq_ok.mpr ⟨hlen, fun i hi => (hsame i hi).trans (hbytes i hi), rfl⟩]
    exact .ok ⟨rfl, by rw [ht]; exact h.moved _⟩
  | error f =>
    obtain ⟨i, hi, hf, hnone, hbelow⟩ := State.readTorn_eq_error.mp hr
    rw [State.readTorn_eq_error.mpr
      ⟨i, hi, hf, (hsame i hi).trans hnone, fun j hj => by rw [hsame j (by omega)]; exact hbelow j hj⟩]
    exact .error f

/-- Regular reads go alike: the region check lets only readable bytes through (R45, R47). -/
theorem SameToProgram.memRead (h : SameToProgram s s') (ea : Word) (n : Nat) :
    GoAlike ValueAlike (s.memRead ea n) (s'.memRead ea n) := by
  rw [State.memRead, State.memRead, h.params_eq]
  refine .bind_same (h.checkAccess_eq ..) fun _ hc => ?_
  have hread : ∀ i, i < n → Influences s.params (ea.toNat + i) := fun i hi =>
    (State.checkAccess_bound hc).influences (by simp) hi
  split
  · exact .bind_same (h.readBytes_eq hread) fun _ _ => .ok ⟨rfl, h⟩
  · refine .bind (h.readTorn hread) ?_
    rintro ⟨bs, t⟩ ⟨-, t'⟩ ⟨rfl, ht⟩
    exact .ok ⟨rfl, ht⟩

/-- Regular writes go alike: the region check and the bytes do not depend on memory (R46, R47). -/
theorem SameToProgram.memWrite (h : SameToProgram s s') (ea : Word) (n : Nat) (v : Word) :
    GoAlike SameToProgram (s.memWrite ea n v) (s'.memWrite ea n v) := by
  rw [State.memWrite, State.memWrite, h.params_eq]
  refine .bind_same (h.checkAccess_eq ..) fun _ hc => ?_
  obtain ⟨hbound, -⟩ := State.checkAccess_bound hc
  have hlen : ea.toNat + (bytesOfValue s.params.hostEndian n v).length ≤ 2 ^ 64 := by rwa [bytesOfValue_length]
  split
  · exact .ok (h.writeBytes _ hlen)
  · exact .ok (h.writeTorn _ hlen)

/-! The shared operations of the instructions go alike. -/

theorem SameToProgram.alu64 (h : SameToProgram s s') (f : Word → Word → Word) (dst : Gpr) (b : Source) :
    ResultsAlike (s.alu64 f dst b) (s'.alu64 f dst b) :=
  h.finish <| .bind_same (h.readReg_eq _) fun _ _ => .bind_same (h.source64_eq _) fun _ _ => .ok (h.setReg ..).nextSlot

theorem SameToProgram.alu32 (h : SameToProgram s s') (f : BitVec 32 → BitVec 32 → BitVec 32) (dst : Gpr) (b : Source) :
    ResultsAlike (s.alu32 f dst b) (s'.alu32 f dst b) :=
  h.finish <| .bind_same (h.readLow32_eq _) fun _ _ => .bind_same (h.source32_eq _) fun _ _ => .ok (h.setReg ..).nextSlot

theorem SameToProgram.unary64 (h : SameToProgram s s') (f : Word → Word) (dst : Gpr) (b : Source) :
    ResultsAlike (s.unary64 f dst b) (s'.unary64 f dst b) :=
  h.finish <| .bind_same (h.source64_eq _) fun _ _ => .ok (h.setReg ..).nextSlot

theorem SameToProgram.unary32 (h : SameToProgram s s') (f : BitVec 32 → BitVec 32) (dst : Gpr) (b : Source) :
    ResultsAlike (s.unary32 f dst b) (s'.unary32 f dst b) :=
  h.finish <| .bind_same (h.source32_eq _) fun _ _ => .ok (h.setReg ..).nextSlot

theorem SameToProgram.shift64 (h : SameToProgram s s') (f : Word → Nat → Word) (dst : Gpr) (b : Source) :
    ResultsAlike (s.shift64 f dst b) (s'.shift64 f dst b) :=
  h.finish <| .bind_same (h.readReg_eq _) fun x _ => .bind_same (h.source64_eq _) fun y _ =>
    .ok ((h.shifted64 f x y).setReg dst id).nextSlot

theorem SameToProgram.shift32 (h : SameToProgram s s') (f : BitVec 32 → Nat → BitVec 32) (dst : Gpr) (b : Source) :
    ResultsAlike (s.shift32 f dst b) (s'.shift32 f dst b) :=
  h.finish <| .bind_same (h.readLow32_eq _) fun x _ => .bind_same (h.source32_eq _) fun y _ =>
    .ok ((h.shifted32 f x y).setReg dst zext64).nextSlot

theorem SameToProgram.byteSwap (h : SameToProgram s s') (target : Endian) (n : Nat) (dst : Gpr) :
    ResultsAlike (s.byteSwap target n dst) (s'.byteSwap target n dst) := by
  rw [State.byteSwap, State.byteSwap, h.params_eq]
  exact h.finish <| .bind_same (h.readReg_eq _) fun _ _ => .ok (h.setReg ..).nextSlot

theorem SameToProgram.illegal (h : SameToProgram s s') (i : Instr) : ResultsAlike (s.illegal i) (s'.illegal i) := by
  rw [State.illegal, State.illegal, h.params_eq]
  exact .next (h.raise _)

theorem SameToProgram.jump64 (h : SameToProgram s s') (c : Word → Word → Bool) (dst : Reg) (b : Source) (off : BitVec 16) :
    ResultsAlike (s.jump64 c dst b off) (s'.jump64 c dst b off) :=
  h.finish <| .bind_same (h.readReg_eq _) fun _ _ => .bind_same (h.source64_eq _) fun _ _ => .ok (h.jump ..)

theorem SameToProgram.jump32 (h : SameToProgram s s') (c : BitVec 32 → BitVec 32 → Bool) (dst : Reg) (b : Source)
    (off : BitVec 16) : ResultsAlike (s.jump32 c dst b off) (s'.jump32 c dst b off) :=
  h.finish <| .bind_same (h.readLow32_eq _) fun _ _ => .bind_same (h.source32_eq _) fun _ _ => .ok (h.jump ..)

theorem SameToProgram.load (h : SameToProgram s s') (n : Nat) (dst : Gpr) (src : Reg) (off : BitVec 16) :
    ResultsAlike (s.load n dst src off) (s'.load n dst src off) :=
  h.finish <| .bind_same (h.readReg_eq _) fun _ _ => .bind (h.memRead ..) fun _ _ hv => .ok (hv.setReg dst id).nextSlot

theorem SameToProgram.storeImm (h : SameToProgram s s') (n : Nat) (dst : Reg) (off : BitVec 16) (imm : BitVec 32) :
    ResultsAlike (s.storeImm n dst off imm) (s'.storeImm n dst off imm) :=
  h.finish <| .bind_same (h.readReg_eq _) fun _ _ => .bind (h.memWrite ..) fun _ _ ht => .ok ht.nextSlot

theorem SameToProgram.storeReg (h : SameToProgram s s') (n : Nat) (dst src : Reg) (off : BitVec 16) :
    ResultsAlike (s.storeReg n dst src off) (s'.storeReg n dst src off) :=
  h.finish <| .bind_same (h.readReg_eq _) fun _ _ => .bind_same (h.readReg_eq _) fun _ _ =>
    .bind (h.memWrite ..) fun _ _ ht => .ok ht.nextSlot

theorem SameToProgram.atomic64 (h : SameToProgram s s') (f : Word → Word → Word) (dst src : Reg) (off : BitVec 16)
    (d : FetchTo) : ResultsAlike (s.atomic64 f dst src off d) (s'.atomic64 f dst src off d) :=
  h.finish <| .bind_same (h.readReg_eq _) fun _ _ => .bind_same (h.readReg_eq _) fun _ _ =>
    .bind_same (h.atomicRead_eq ..) fun _ hr => .ok ((h.atomicWrite hr _).fetchTo ..).nextSlot

theorem SameToProgram.atomic32 (h : SameToProgram s s') (f : BitVec 32 → BitVec 32 → BitVec 32) (dst src : Reg)
    (off : BitVec 16) (d : FetchTo) : ResultsAlike (s.atomic32 f dst src off d) (s'.atomic32 f dst src off d) :=
  h.finish <| .bind_same (h.readReg_eq _) fun _ _ => .bind_same (h.readLow32_eq _) fun _ _ =>
    .bind_same (h.atomicRead_eq ..) fun _ hr => .ok ((h.atomicWrite hr _).fetchTo ..).nextSlot

theorem SameToProgram.compareExchange64 (h : SameToProgram s s') (dst src : Reg) (off : BitVec 16) :
    ResultsAlike (s.compareExchange64 dst src off) (s'.compareExchange64 dst src off) := by
  refine h.finish <| .bind_same (h.readReg_eq _) fun _ _ => .bind_same (h.readReg_eq _) fun _ _ =>
    .bind_same (h.readReg_eq _) fun c _ => .bind_same (h.atomicRead_eq ..) fun old hr => .ok (.nextSlot (.setReg ?_ ..))
  split
  · exact h.atomicWrite hr _
  · exact h

theorem SameToProgram.compareExchange32 (h : SameToProgram s s') (dst src : Reg) (off : BitVec 16) :
    ResultsAlike (s.compareExchange32 dst src off) (s'.compareExchange32 dst src off) := by
  refine h.finish <| .bind_same (h.readReg_eq _) fun _ _ => .bind_same (h.readLow32_eq _) fun _ _ =>
    .bind_same (h.readLow32_eq _) fun c _ => .bind_same (h.atomicRead_eq ..) fun old hr => .ok (.nextSlot (.setReg ?_ ..))
  split
  · exact h.atomicWrite hr _
  · exact h

/-- A call that names no function faults before it reads an argument (R185, R268). -/
theorem SameToProgram.execCall (h : SameToProgram s s') {imm : BitVec 32} (hn : helperOf s.params.helpers imm = none) :
    ResultsAlike (execCall imm s) (execCall imm s') := by
  rw [Machine.execCall, Machine.execCall, h.params_eq, hn]
  exact h.finish (.error _)

theorem SameToProgram.execExit (h : SameToProgram s s') : ResultsAlike (execExit s) (execExit s') :=
  h.finish <| .bind_same (h.readReg_eq _) fun _ _ => .ok (h.exit _)

theorem SameToProgram.execNeg32K (h : SameToProgram s s') (dst : Gpr) (imm : BitVec 32) :
    ResultsAlike (execNeg32K dst imm s) (execNeg32K dst imm s') := by
  rw [Machine.execNeg32K, Machine.execNeg32K, h.params_eq]
  split
  · exact h.unary32 ..
  · split
    · exact h.alu32 ..
    · exact h.illegal _

theorem SameToProgram.execNeg32X (h : SameToProgram s s') (dst : Gpr) (src : Reg) :
    ResultsAlike (execNeg32X dst src s) (execNeg32X dst src s') := by
  rw [Machine.execNeg32X, Machine.execNeg32X, h.params_eq]
  split
  · exact h.unary32 ..
  · exact h.illegal _

theorem SameToProgram.execNeg64K (h : SameToProgram s s') (dst : Gpr) (imm : BitVec 32) :
    ResultsAlike (execNeg64K dst imm s) (execNeg64K dst imm s') := by
  rw [Machine.execNeg64K, Machine.execNeg64K, h.params_eq]
  split
  · exact h.unary64 ..
  · split
    · exact h.alu64 ..
    · exact h.illegal _

theorem SameToProgram.execNeg64X (h : SameToProgram s s') (dst : Gpr) (src : Reg) :
    ResultsAlike (execNeg64X dst src s) (execNeg64X dst src s') := by
  rw [Machine.execNeg64X, Machine.execNeg64X, h.params_eq]
  split
  · exact h.unary64 ..
  · exact h.illegal _

/-- Every instruction but a call of a function goes alike in states that are the same to the program. -/
theorem SameToProgram.exec (h : SameToProgram s s') (hh : s.params.helpers = []) (i : Instr) :
    ResultsAlike (exec i s) (exec i s') := by
  cases i with
  | add32K | add32X | sub32K | sub32X | mul32K | mul32X | div32K | div32X | or32K | or32X | and32K | and32X | mod32K | mod32X
  | xor32K | xor32X => exact h.alu32 ..
  | add64K | add64X | sub64K | sub64X | mul64K | mul64X | div64K | div64X | or64K | or64X | and64K | and64X | mod64K | mod64X
  | xor64K | xor64X => exact h.alu64 ..
  | mov32K dst imm => exact h.unary32 (fun b => b) dst (.imm imm)
  | mov32X dst src => exact h.unary32 (fun b => b) dst (.reg src)
  | mov64K dst imm => exact h.unary64 (fun b => b) dst (.imm imm)
  | mov64X dst src => exact h.unary64 (fun b => b) dst (.reg src)
  | neg32K dst imm => exact h.execNeg32K dst imm
  | neg32X dst src => exact h.execNeg32X dst src
  | neg64K dst imm => exact h.execNeg64K dst imm
  | neg64X dst src => exact h.execNeg64X dst src
  | lsh32K | lsh32X | rsh32K | rsh32X | arsh32K | arsh32X => exact h.shift32 ..
  | lsh64K | lsh64X | rsh64K | rsh64X | arsh64K | arsh64X => exact h.shift64 ..
  | le16 | le32 | le64 | be16 | be32 | be64 => exact h.byteSwap ..
  | ja off => exact .next (h.jump true off)
  | jeqK | jeqX | jgtK | jgtX | jgeK | jgeX | jsetK | jsetX | jneK | jneX | jsgtK | jsgtX | jsgeK | jsgeX | jltK | jltX | jleK
  | jleX | jsltK | jsltX | jsleK | jsleX => exact h.jump64 ..
  | jeq32K | jeq32X | jgt32K | jgt32X | jge32K | jge32X | jset32K | jset32X | jne32K | jne32X | jsgt32K | jsgt32X | jsge32K
  | jsge32X | jlt32K | jlt32X | jle32K | jle32X | jslt32K | jslt32X | jsle32K | jsle32X => exact h.jump32 ..
  | call imm => exact h.execCall (by rw [hh]; rfl)
  | exit => exact h.execExit
  | ldxw | ldxh | ldxb | ldxdw => exact h.load ..
  | stw | sth | stb | stdw => exact h.storeImm ..
  | stxw | stxh | stxb | stxdw => exact h.storeReg ..
  | aadd32 | afadd32 | aor32 | afor32 | aand32 | afand32 | axor32 | afxor32 | axchg32 =>
    simp only [Machine.exec, execAadd32, execAfadd32, execAor32, execAfor32, execAand32, execAfand32,
      execAxor32, execAfxor32, execAxchg32]
    exact h.atomic32 ..
  | aadd64 | afadd64 | aor64 | afor64 | aand64 | afand64 | axor64 | afxor64 | axchg64 =>
    simp only [Machine.exec, execAadd64, execAfadd64, execAor64, execAfor64, execAand64, execAfand64,
      execAxor64, execAfxor64, execAxchg64]
    exact h.atomic64 ..
  | acmpxchg32 dst src off => exact h.compareExchange32 ..
  | acmpxchg64 dst src off => exact h.compareExchange64 ..
  | lddw dst imm64 => exact .next ((h.setReg dst imm64).advance 2)
  | ldabs | ldind => rw [h.eq_with_mem]; exact .refused _

/-! Steps and runs. -/

/-- Between two instructions other agents move alike (R55). -/
theorem ResultsAlike.betweenSteps {r r' : Result} (h : ResultsAlike r r') :
    ResultsAlike (betweenSteps r) (betweenSteps r') := by
  cases h with
  | next ht =>
    rw [betweenSteps_next, betweenSteps_next, ht.status_eq]
    split
    · exact .next ht.envMove
    · exact .next ht
  | fault f => exact .fault f
  | refused q => exact .refused q

theorem SameToProgram.step (h : SameToProgram s s') (hh : s.params.helpers = []) : ResultsAlike (step s) (step s') := by
  rw [Machine.step, Machine.step, h.status_eq, h.fetch_eq]
  split
  · split
    · exact .next (h.raise _)
    · exact (h.exec hh _).betweenSteps
  · exact .fault _

end

/-- Settles O57, by induction on the number of steps: each step goes alike and leaves the parameters, and so the empty HELPERS,
as they were. -/
theorem readsOnlyWhereAllowed : Obligations.ReadsOnlyWhereAllowed := by
  intro n
  induction n with
  | zero =>
    rintro s s' t - h hafter
    cases hafter
    exact ⟨s', rfl, h⟩
  | succ n ih =>
    intro s s' t hh h hafter
    obtain ⟨u, hu, hafter⟩ := State.after_succ.mp hafter
    obtain ⟨-, -, hparams⟩ := step_sameFixed hu
    have hstep := h.step hh
    rw [hu] at hstep
    obtain ⟨u', hu', hsame⟩ := hstep.exists_next
    obtain ⟨t', ht', hsame'⟩ := ih u u' t (by rw [hparams, hh]) hsame hafter
    exact ⟨t', State.after_succ.mpr ⟨u', hu', ht'⟩, hsame'⟩

end Sys2Proof.Machine
end

section
/-! PROOFS. Facts that decoding and encoding share: the row of a key in a table (R84), and the halves of a slot (R253). -/

namespace Sys2Proof

/-! Rows: which row `findRow` finds. -/

theorem mem_of_findRow {w : Nat} {α : Type} {key : BitVec w} {a : α} {rows : List (BitVec w × α)}
    (h : findRow key rows = some a) : (key, a) ∈ rows := by
  induction rows with
  | nil => cases h
  | cons row rows ih =>
    simp only [findRow] at h
    split_ifs at h with hk
    · cases h; subst hk; exact List.mem_cons_self
    · exact List.mem_cons_of_mem _ (ih h)

theorem findRow_of_mem {w : Nat} {α : Type} {key : BitVec w} {a : α} {rows : List (BitVec w × α)}
    (hdistinct : (rows.map Prod.fst).Nodup) (h : (key, a) ∈ rows) : findRow key rows = some a := by
  induction rows with
  | nil => cases h
  | cons row rows ih =>
    obtain ⟨hnew, hdistinct⟩ := List.nodup_cons.mp hdistinct
    cases h with
    | head => simp [findRow]
    | tail _ h =>
      have hne : row.1 ≠ key := fun e => hnew (List.mem_map.mpr ⟨_, h, e.symm⟩)
      simp only [findRow, hne, if_false, ih hdistinct h]

theorem findRow_eq_none {w : Nat} {α : Type} {key : BitVec w} {rows : List (BitVec w × α)}
    (h : key ∉ rows.map Prod.fst) : findRow key rows = none := by
  induction rows with
  | nil => rfl
  | cons row rows ih =>
    simp only [List.map_cons, List.mem_cons, not_or] at h
    obtain ⟨hne, hrest⟩ := h
    rw [findRow, if_neg (Ne.symm hne), ih hrest]

/-! The halves of a slot. -/

@[simp] theorem extractLsb'_append_low (high low : BitVec 32) : (high ++ low : Slot).extractLsb' 0 32 = low :=
  BitVec.extractLsb'_append_eq_right

@[simp] theorem extractLsb'_append_high (high low : BitVec 32) : (high ++ low : Slot).extractLsb' 32 32 = high :=
  BitVec.extractLsb'_append_eq_left

theorem append_extractLsb'_halves (w : Slot) : (w.extractLsb' 32 32 ++ w.extractLsb' 0 32 : Slot) = w :=
  (BitVec.extractLsb'_append_extractLsb'_eq_extractLsb' (x := w) (start₁ := 0) rfl).trans BitVec.extractLsb'_eq_self

theorem exists_append_halves (w : Slot) : ∃ high low : BitVec 32, w = high ++ low :=
  ⟨_, _, (append_extractLsb'_halves w).symm⟩

/-- The second slot of the wide instruction under WIDE_IMM_LAYOUT = split32. -/
theorem slotK_zero_zero (high : BitVec 32) : slotK 0 0 high = high ++ 0#32 := by
  apply BitVec.eq_of_toNat_eq
  simp only [slotK, Fields.toSlot, BitVec.toNat_append]
  simp [← Nat.shiftLeft_add]

/-- A slot whose low half is zero is its high half over zeros. -/
theorem exists_append_of_low_eq_zero {w : Slot} (h : w.extractLsb' 0 32 = 0#32) : ∃ high : BitVec 32, w = high ++ 0#32 :=
  ⟨w.extractLsb' 32 32, by rw [← h, append_extractLsb'_halves]⟩

end Sys2Proof
end

section
/-! PROOFS. Decoding and encoding are inverse (R71, R72, R79, R83, R84, R90, R253): the field table of R90 as a relation that
the decoder computes, and the encoder's agreement with it, row by row of the opcode map in one direction and instruction by
instruction in the other. -/

namespace Sys2Proof

open Sys2Proof.Machine

/-! The field table. -/

/-- The field table R90: the fields `f` of a slot of the given shape, with the slot after it, read as an instruction. Fields
that do not occur are zero. -/
inductive Shape.Reads (p : Params) (next : Option Slot) : Shape → Fields → Instr → Prop
  | aluK {mk} (op) (dst : Gpr) (imm) : Reads p next (.aluK mk) ⟨op, dst.num, 0, 0, imm⟩ (mk dst imm)
  | aluX {mk} (op) (dst : Gpr) (src : Reg) : Reads p next (.aluX mk) ⟨op, dst.num, src.num, 0, 0⟩ (mk dst src)
  | negK {mk} (op) (dst : Gpr) (imm) (h : p.negReading = .source ∨ imm = 0) :
      Reads p next (.negK mk) ⟨op, dst.num, 0, 0, imm⟩ (mk dst imm)
  | negX {mk} (op) (dst : Gpr) (src : Reg) (h : p.negReading = .source) :
      Reads p next (.negX mk) ⟨op, dst.num, src.num, 0, 0⟩ (mk dst src)
  | swap {sel mk} (op) (dst : Gpr) (imm) (h : findRow imm sel = some mk) :
      Reads p next (.swap sel) ⟨op, dst.num, 0, 0, imm⟩ (mk dst)
  | ja {mk} (op) (off) : Reads p next (.ja mk) ⟨op, 0, 0, off, 0⟩ (mk off)
  | jmpK {mk} (op) (dst : Reg) (off imm) : Reads p next (.jmpK mk) ⟨op, dst.num, 0, off, imm⟩ (mk dst imm off)
  | jmpX {mk} (op) (dst src : Reg) (off) : Reads p next (.jmpX mk) ⟨op, dst.num, src.num, off, 0⟩ (mk dst src off)
  | call {mk} (op) (imm) : Reads p next (.call mk) ⟨op, 0, 0, 0, imm⟩ (mk imm)
  | exit {mk} (op) : Reads p next (.exit mk) ⟨op, 0, 0, 0, 0⟩ mk
  | ldx {mk} (op) (dst : Gpr) (src : Reg) (off) : Reads p next (.ldx mk) ⟨op, dst.num, src.num, off, 0⟩ (mk dst src off)
  | st {mk} (op) (dst : Reg) (off imm) : Reads p next (.st mk) ⟨op, dst.num, 0, off, imm⟩ (mk dst off imm)
  | stx {mk} (op) (dst src : Reg) (off) : Reads p next (.stx mk) ⟨op, dst.num, src.num, off, 0⟩ (mk dst src off)
  | atomic {sel mk} (op) (dst src : Reg) (off imm) (h : findRow imm sel = some (.plain mk)) :
      Reads p next (.atomic sel) ⟨op, dst.num, src.num, off, imm⟩ (mk dst src off)
  | fetch {sel mk} (op) (dst : Reg) (src : Gpr) (off imm) (h : findRow imm sel = some (.fetch mk)) :
      Reads p next (.atomic sel) ⟨op, dst.num, src.num, off, imm⟩ (mk dst src off)
  | wide {mk} (op) (dst : Gpr) (imm64) (h : p.wideImm = .source) (hn : next = some imm64) :
      Reads p next (.wide mk) ⟨op, dst.num, 0, 0, 0⟩ (mk dst imm64)
  | wideSplit {mk} (op) (dst : Gpr) (low high : BitVec 32) (h : p.wideImm = .split32) (hn : next = some (high ++ 0#32)) :
      Reads p next (.wide mk) ⟨op, dst.num, 0, 0, low⟩ (mk dst (high ++ low))
  | legacy {mk} (op dst src off imm) :
      Reads p next (.legacy mk) ⟨op, dst, src, off, imm⟩ (mk (sizeField op) dst src off imm)

/-- The decoder's checks accept what the field table reads. -/
theorem Shape.Reads.operands_eq {p : Params} {next : Option Slot} {shape : Shape} {f : Fields} {i : Instr}
    (h : shape.Reads p next f i) : shape.operands p f next = .ok i := by
  cases h with
  | negK _ _ _ h => cases hn : p.negReading <;> simp_all [Shape.operands]
  | negX _ _ _ h => simp [Shape.operands, h]
  | swap _ _ _ h | atomic _ _ _ _ _ h | fetch _ _ _ _ _ h => simp [Shape.operands, h]
  | wide _ _ _ h hn | wideSplit _ _ _ _ h hn => simp [Shape.operands, h, hn]
  | _ => simp [Shape.operands]

/-- What the decoder's checks accept, the field table reads. -/
theorem Shape.reads_of_operands {p : Params} {next : Option Slot} {shape : Shape} {f : Fields} {i : Instr}
    (h : shape.operands p f next = .ok i) : shape.Reads p next f i := by
  obtain ⟨op, dst, src, off, imm⟩ := f
  cases shape <;>
    simp only [Shape.operands, except_bind_eq_ok, unusedField_eq_ok, writtenField_eq_ok, readField_eq_ok] at h
  case aluK mk =>
    obtain ⟨-, rfl, -, rfl, d, rfl, ⟨⟩⟩ := h
    exact .aluK ..
  case aluX mk =>
    obtain ⟨-, rfl, -, rfl, d, rfl, s, rfl, ⟨⟩⟩ := h
    exact .aluX ..
  case negK mk =>
    obtain ⟨-, rfl, -, rfl, d, rfl, h⟩ := h
    split at h
    · next hn => cases h; exact .negK _ _ _ (.inl hn)
    · obtain ⟨-, rfl, ⟨⟩⟩ := by simpa only [except_bind_eq_ok, unusedField_eq_ok] using h
      exact .negK _ _ _ (.inr rfl)
  case negX mk =>
    split at h
    · next hn =>
      simp only [except_bind_eq_ok, unusedField_eq_ok, writtenField_eq_ok, readField_eq_ok] at h
      obtain ⟨-, rfl, -, rfl, d, rfl, s, rfl, ⟨⟩⟩ := h
      exact .negX _ _ _ hn
    · cases h
  case swap sel =>
    split at h
    · cases h
    · next mk hr =>
      simp only [except_bind_eq_ok, unusedField_eq_ok, writtenField_eq_ok] at h
      obtain ⟨-, rfl, -, rfl, d, rfl, ⟨⟩⟩ := h
      exact .swap _ _ _ hr
  case ja mk =>
    obtain ⟨-, rfl, -, rfl, -, rfl, ⟨⟩⟩ := h
    exact .ja ..
  case jmpK mk =>
    obtain ⟨-, rfl, d, rfl, ⟨⟩⟩ := h
    exact .jmpK ..
  case jmpX mk =>
    obtain ⟨-, rfl, d, rfl, s, rfl, ⟨⟩⟩ := h
    exact .jmpX ..
  case call mk =>
    obtain ⟨-, rfl, -, rfl, -, rfl, ⟨⟩⟩ := h
    exact .call ..
  case exit mk =>
    obtain ⟨-, rfl, -, rfl, -, rfl, -, rfl, ⟨⟩⟩ := h
    exact .exit ..
  case ldx mk =>
    obtain ⟨-, rfl, d, rfl, s, rfl, ⟨⟩⟩ := h
    exact .ldx ..
  case st mk =>
    obtain ⟨-, rfl, d, rfl, ⟨⟩⟩ := h
    exact .st ..
  case stx mk =>
    obtain ⟨-, rfl, d, rfl, s, rfl, ⟨⟩⟩ := h
    exact .stx ..
  case atomic sel =>
    split at h
    · cases h
    · next mk hr =>
      obtain ⟨d, rfl, s, rfl, ⟨⟩⟩ := by simpa only [except_bind_eq_ok, readField_eq_ok] using h
      exact .atomic _ _ _ _ _ hr
    · next mk hr =>
      obtain ⟨d, rfl, s, rfl, ⟨⟩⟩ := by simpa only [except_bind_eq_ok, readField_eq_ok, writtenField_eq_ok] using h
      exact .fetch _ _ _ _ _ hr
  case wide mk =>
    obtain ⟨-, rfl, -, rfl, d, rfl, h⟩ := h
    split at h
    · next hl =>
      obtain ⟨-, rfl, h⟩ := by simpa only [except_bind_eq_ok, unusedField_eq_ok] using h
      cases next with
      | none => cases h
      | some w1 => cases h; exact .wide _ _ _ hl rfl
    · next hl =>
      cases next with
      | none => cases h
      | some w1 =>
        simp only at h
        split_ifs at h with hlow
        cases h
        obtain ⟨high, rfl⟩ := exists_append_of_low_eq_zero hlow
        rw [extractLsb'_append_high]
        exact .wideSplit _ _ _ _ hl rfl
  case legacy mk => cases h; exact .legacy ..

/-- A slot decodes to what the row of its opcode byte reads from its fields (R84, R90, R91). -/
theorem decode_eq_ok_iff {p : Params} {w : Slot} {next : Option Slot} {i : Instr} :
    decode p w next = .ok i ↔
      ∃ shape, findRow (Fields.ofSlot w).opcode opcodeMap = some shape ∧ shape.Reads p next (Fields.ofSlot w) i := by
  cases hrow : findRow (Fields.ofSlot w).opcode opcodeMap with
  | none => simp [decode_of_no_row hrow]
  | some shape =>
    rw [decode_of_row hrow]
    simp only [Option.some.injEq, exists_eq_left']
    exact ⟨Shape.reads_of_operands, Shape.Reads.operands_eq⟩

/-! The forms of BPF_NEG, whose fields depend on a parameter (R90, R129, R130). -/

theorem wellFormed_neg32K {p : Params} {dst : Gpr} {imm : BitVec 32} :
    (Instr.neg32K dst imm).wellFormed p = true ↔ p.negReading = .source ∨ imm = 0 := by
  simp [Instr.wellFormed]

theorem wellFormed_neg64K {p : Params} {dst : Gpr} {imm : BitVec 32} :
    (Instr.neg64K dst imm).wellFormed p = true ↔ p.negReading = .source ∨ imm = 0 := by
  simp [Instr.wellFormed]

theorem wellFormed_neg32X {p : Params} {dst : Gpr} {src : Reg} :
    (Instr.neg32X dst src).wellFormed p = true ↔ p.negReading = .source := by
  simp [Instr.wellFormed]

theorem wellFormed_neg64X {p : Params} {dst : Gpr} {src : Reg} :
    (Instr.neg64X dst src).wellFormed p = true ↔ p.negReading = .source := by
  simp [Instr.wellFormed]

/-! Row by row: the encoder writes back the fields that a row of the opcode map reads. -/

/-- What a row of the opcode map reads is well-formed, and its slots are the ones it was read from (R84, R90). -/
def RowEncoded (row : BitVec 8 × Shape) : Prop :=
  ∀ p next f i, f.opcode = row.1 → row.2.Reads p next f i →
    i.wellFormed p = true ∧ encode p i = f.toSlot :: if row.1 = wideOpcode then next.toList else []

theorem encode_lddw_of_source {p : Params} (h : p.wideImm = .source) (dst : Gpr) (imm64 : Word) :
    encode p (.lddw dst imm64) = [slotK wideOpcode dst.num 0, imm64] := by
  simp only [encode, slotsWide, h]

theorem encode_lddw_of_split {p : Params} (h : p.wideImm = .split32) (dst : Gpr) (high low : BitVec 32) :
    encode p (.lddw dst (high ++ low)) = [slotK wideOpcode dst.num low, high ++ 0#32] := by
  simp only [encode, slotsWide, h, extractLsb'_append_low, extractLsb'_append_high, slotK_zero_zero]

theorem ldRows_encoded : ∀ row ∈ ldRows, RowEncoded row := by
  intro row hrow p next f i hop h
  fin_cases hrow <;> cases h <;> subst hop
  case wide h hn => exact ⟨rfl, by rw [encode_lddw_of_source h, hn]; rfl⟩
  case wideSplit h hn => exact ⟨rfl, by rw [encode_lddw_of_split h, hn]; rfl⟩
  all_goals exact ⟨rfl, rfl⟩

theorem memRows_jmpRows_encoded : ∀ row ∈ memRows ++ jmpRows ++ jmp32Rows, RowEncoded row := by
  intro row hrow p next f i hop h
  simp only [memRows, jmpRows, jmp32Rows, List.cons_append, List.nil_append] at hrow
  fin_cases hrow <;> cases h <;> subst hop <;> exact ⟨rfl, rfl⟩

theorem aluRows_encoded : ∀ row ∈ aluRows ++ alu64Rows, RowEncoded row := by
  intro row hrow p next f i hop h
  simp only [aluRows, alu64Rows, List.cons_append, List.nil_append] at hrow
  fin_cases hrow <;> cases h <;> subst hop
  case negK hneg => exact ⟨wellFormed_neg32K.mpr hneg, rfl⟩
  case negX hneg => exact ⟨wellFormed_neg32X.mpr hneg, rfl⟩
  case negK hneg => exact ⟨wellFormed_neg64K.mpr hneg, rfl⟩
  case negX hneg => exact ⟨wellFormed_neg64X.mpr hneg, rfl⟩
  all_goals exact ⟨rfl, rfl⟩

theorem swapRows_encoded : ∀ row ∈ swapRows, RowEncoded row := by
  intro row hrow p next f i hop h
  fin_cases hrow <;> cases h <;> subst hop
  all_goals
    next hsel =>
    have hmem := mem_of_findRow hsel
    fin_cases hmem <;> exact ⟨rfl, rfl⟩

theorem atomicRows_encoded : ∀ row ∈ atomicRows, RowEncoded row := by
  intro row hrow p next f i hop h
  fin_cases hrow <;> cases h <;> subst hop
  all_goals
    next hsel =>
    obtain ⟨rfl, rfl⟩ | ⟨rfl, rfl⟩ | ⟨rfl, rfl⟩ | ⟨rfl, rfl⟩ | ⟨rfl, rfl⟩ := by simpa using mem_of_findRow hsel
    all_goals exact ⟨rfl, rfl⟩

theorem opcodeMap_encoded {row : BitVec 8 × Shape} (h : row ∈ opcodeMap) : RowEncoded row := by
  simp only [opcodeMap, List.mem_append] at h
  rcases h with ((((((hld | hmem) | hatomic) | halu) | hswap) | halu64) | hjmp) | hjmp32
  · exact ldRows_encoded row hld
  · exact memRows_jmpRows_encoded row (by simp [hmem])
  · exact atomicRows_encoded row hatomic
  · exact aluRows_encoded row (by simp [halu])
  · exact swapRows_encoded row hswap
  · exact aluRows_encoded row (by simp [halu64])
  · exact memRows_jmpRows_encoded row (by simp [hjmp])
  · exact memRows_jmpRows_encoded row (by simp [hjmp32])

/-! Instruction by instruction: a row of the opcode map reads each well-formed instruction from its slots. -/

/-- Every opcode byte has one row (R84). -/
theorem opcodeMap_distinct : (opcodeMap.map Prod.fst).Nodup := by
  have h : ((opcodeMap.map Prod.fst).map BitVec.toNat).Nodup := by decide +kernel
  exact h.of_map _

theorem ldRows_subset : ldRows ⊆ opcodeMap := fun row h => by simp [opcodeMap, h]

theorem memRows_subset : memRows ⊆ opcodeMap := fun row h => by simp [opcodeMap, h]

theorem atomicRows_subset : atomicRows ⊆ opcodeMap := fun row h => by simp [opcodeMap, h]

theorem aluRows_subset : aluRows ⊆ opcodeMap := fun row h => by simp [opcodeMap, h]

theorem swapRows_subset : swapRows ⊆ opcodeMap := fun row h => by simp [opcodeMap, h]

theorem alu64Rows_subset : alu64Rows ⊆ opcodeMap := fun row h => by simp [opcodeMap, h]

theorem jmpRows_subset : jmpRows ⊆ opcodeMap := fun row h => by simp [opcodeMap, h]

theorem jmp32Rows_subset : jmp32Rows ⊆ opcodeMap := fun row h => by simp [opcodeMap, h]

theorem legacy_mem_ldRows (size : Size) :
    (legacyOpcode 1 size, .legacy .ldabs) ∈ ldRows ∧ (legacyOpcode 2 size, .legacy .ldind) ∈ ldRows := by
  cases size <;> simp [ldRows, legacyOpcode, Size.bits]

/-- Each well-formed instruction is read from its slots by a row of the opcode map, whatever follows them (R84, R90). -/
theorem exists_row_reads_encode {p : Params} {i : Instr} (next : Option Slot) (h : i.wellFormed p = true) :
    ∃ f rest shape, encode p i = f.toSlot :: rest ∧ (f.opcode, shape) ∈ opcodeMap ∧
      shape.Reads p (rest.head?.or next) f i := by
  cases i with
  | add32K | sub32K | mul32K | div32K | or32K | and32K | lsh32K | rsh32K | mod32K | xor32K | mov32K | arsh32K =>
    exact ⟨_, _, _, rfl, aluRows_subset (by repeat constructor), .aluK ..⟩
  | add64K | sub64K | mul64K | div64K | or64K | and64K | lsh64K | rsh64K | mod64K | xor64K | mov64K | arsh64K =>
    exact ⟨_, _, _, rfl, alu64Rows_subset (by repeat constructor), .aluK ..⟩
  | add32X | sub32X | mul32X | div32X | or32X | and32X | lsh32X | rsh32X | mod32X | xor32X | mov32X | arsh32X =>
    exact ⟨_, _, _, rfl, aluRows_subset (by repeat constructor), .aluX ..⟩
  | add64X | sub64X | mul64X | div64X | or64X | and64X | lsh64X | rsh64X | mod64X | xor64X | mov64X | arsh64X =>
    exact ⟨_, _, _, rfl, alu64Rows_subset (by repeat constructor), .aluX ..⟩
  | neg32K => exact ⟨_, _, _, rfl, aluRows_subset (by repeat constructor), .negK _ _ _ (wellFormed_neg32K.mp h)⟩
  | neg64K => exact ⟨_, _, _, rfl, alu64Rows_subset (by repeat constructor), .negK _ _ _ (wellFormed_neg64K.mp h)⟩
  | neg32X => exact ⟨_, _, _, rfl, aluRows_subset (by repeat constructor), .negX _ _ _ (wellFormed_neg32X.mp h)⟩
  | neg64X => exact ⟨_, _, _, rfl, alu64Rows_subset (by repeat constructor), .negX _ _ _ (wellFormed_neg64X.mp h)⟩
  | le16 | le32 | le64 => exact ⟨_, _, _, rfl, swapRows_subset (.head _), .swap _ _ _ rfl⟩
  | be16 | be32 | be64 => exact ⟨_, _, _, rfl, swapRows_subset (.tail _ (.head _)), .swap _ _ _ rfl⟩
  | ja => exact ⟨_, _, _, rfl, jmpRows_subset (by repeat constructor), .ja ..⟩
  | jeqK | jgtK | jgeK | jsetK | jneK | jsgtK | jsgeK | jltK | jleK | jsltK | jsleK =>
    exact ⟨_, _, _, rfl, jmpRows_subset (by repeat constructor), .jmpK ..⟩
  | jeqX | jgtX | jgeX | jsetX | jneX | jsgtX | jsgeX | jltX | jleX | jsltX | jsleX =>
    exact ⟨_, _, _, rfl, jmpRows_subset (by repeat constructor), .jmpX ..⟩
  | jeq32K | jgt32K | jge32K | jset32K | jne32K | jsgt32K | jsge32K | jlt32K | jle32K | jslt32K | jsle32K =>
    exact ⟨_, _, _, rfl, jmp32Rows_subset (by repeat constructor), .jmpK ..⟩
  | jeq32X | jgt32X | jge32X | jset32X | jne32X | jsgt32X | jsge32X | jlt32X | jle32X | jslt32X | jsle32X =>
    exact ⟨_, _, _, rfl, jmp32Rows_subset (by repeat constructor), .jmpX ..⟩
  | call => exact ⟨_, _, _, rfl, jmpRows_subset (by repeat constructor), .call ..⟩
  | exit => exact ⟨_, _, _, rfl, jmpRows_subset (by repeat constructor), .exit ..⟩
  | ldxw | ldxh | ldxb | ldxdw => exact ⟨_, _, _, rfl, memRows_subset (by repeat constructor), .ldx ..⟩
  | stw | sth | stb | stdw => exact ⟨_, _, _, rfl, memRows_subset (by repeat constructor), .st ..⟩
  | stxw | stxh | stxb | stxdw => exact ⟨_, _, _, rfl, memRows_subset (by repeat constructor), .stx ..⟩
  | aadd32 | aor32 | aand32 | axor32 | acmpxchg32 =>
    exact ⟨_, _, _, rfl, atomicRows_subset (.head _), .atomic _ _ _ _ _ rfl⟩
  | aadd64 | aor64 | aand64 | axor64 | acmpxchg64 =>
    exact ⟨_, _, _, rfl, atomicRows_subset (.tail _ (.head _)), .atomic _ _ _ _ _ rfl⟩
  | afadd32 | afor32 | afand32 | afxor32 | axchg32 =>
    exact ⟨_, _, _, rfl, atomicRows_subset (.head _), .fetch _ _ _ _ _ rfl⟩
  | afadd64 | afor64 | afand64 | afxor64 | axchg64 =>
    exact ⟨_, _, _, rfl, atomicRows_subset (.tail _ (.head _)), .fetch _ _ _ _ _ rfl⟩
  | lddw dst imm64 =>
    cases hl : p.wideImm with
    | source => exact ⟨_, _, _, encode_lddw_of_source hl .., ldRows_subset (.head _), .wide _ _ _ hl rfl⟩
    | split32 =>
      obtain ⟨high, low, rfl⟩ := exists_append_halves imm64
      exact ⟨_, _, _, encode_lddw_of_split hl .., ldRows_subset (.head _), .wideSplit _ _ _ _ hl rfl⟩
  | ldabs size =>
    refine ⟨_, _, _, rfl, ldRows_subset (legacy_mem_ldRows size).1, ?_⟩
    cases size <;> exact .legacy ..
  | ldind size =>
    refine ⟨_, _, _, rfl, ldRows_subset (legacy_mem_ldRows size).2, ?_⟩
    cases size <;> exact .legacy ..

/-! Decoding and encoding. -/

/-- What decodes is well-formed, and its slots are the ones it was decoded from (R84, R90). -/
theorem wellFormed_and_encode_of_decode {p : Params} {w : Slot} {next : Option Slot} {i : Instr}
    (h : decode p w next = .ok i) :
    i.wellFormed p = true ∧ encode p i = w :: if w.toNat % 256 = 0x18 then next.toList else [] := by
  obtain ⟨shape, hrow, hreads⟩ := decode_eq_ok_iff.mp h
  obtain ⟨hwf, hencode⟩ := opcodeMap_encoded (mem_of_findRow hrow) p next _ i rfl hreads
  have hwide : (Fields.ofSlot w).opcode = wideOpcode ↔ w.toNat % 256 = 0x18 := by
    rw [← isWide_iff, isWide, beq_iff_eq]
  refine ⟨hwf, ?_⟩
  simpa only [Fields.toSlot_ofSlot, hwide] using hencode

/-- Settles O48: a row of the opcode map reads the instruction from its slots, and it is the row that the decoder finds. -/
theorem decodeOfEncode : Obligations.DecodeOfEncode := by
  intro p i next hwf
  obtain ⟨f, rest, shape, hencode, hrow, hreads⟩ := exists_row_reads_encode next hwf
  refine ⟨f.toSlot, rest, hencode, decode_eq_ok_iff.mpr ⟨shape, ?_, ?_⟩⟩
  · rw [Fields.ofSlot_toSlot]
    exact findRow_of_mem opcodeMap_distinct hrow
  · rwa [Fields.ofSlot_toSlot]

/-- Settles O49: the row that the decoder finds is one that the encoder writes back. -/
theorem encodeOfDecode : Obligations.EncodeOfDecode := fun _ _ _ _ h => (wellFormed_and_encode_of_decode h).2

/-- Settles O50: every row reads well-formed instructions only. -/
theorem decodedIsWellFormed : Obligations.DecodedIsWellFormed := fun _ _ _ _ h => (wellFormed_and_encode_of_decode h).1

end Sys2Proof
end

section
/-! PROOFS. The bytes of program text on a little-endian host (R87). -/

namespace Sys2Proof

theorem slotBytes_eq (w : Slot) :
    slotBytes w = [w.extractLsb' 0 8, w.extractLsb' 8 8, w.extractLsb' 16 8, w.extractLsb' 24 8, w.extractLsb' 32 8,
      w.extractLsb' 40 8, w.extractLsb' 48 8, w.extractLsb' 56 8] := rfl

theorem extractLsb'_append_byte {len : Nat} (w : Slot) (start : Nat) :
    w.extractLsb' (start + 8) len ++ w.extractLsb' start 8 = w.extractLsb' start (len + 8) :=
  BitVec.extractLsb'_append_extractLsb'_eq_extractLsb' rfl

/-- A slot is made of its bytes, the first one lowest. -/
theorem slotOfBytes_extractLsb' (w : Slot) :
    slotOfBytes (w.extractLsb' 0 8) (w.extractLsb' 8 8) (w.extractLsb' 16 8) (w.extractLsb' 24 8) (w.extractLsb' 32 8)
      (w.extractLsb' 40 8) (w.extractLsb' 48 8) (w.extractLsb' 56 8) = w := by
  rw [slotOfBytes, extractLsb'_append_byte w 48, extractLsb'_append_byte w 40, extractLsb'_append_byte w 32,
    extractLsb'_append_byte w 24, extractLsb'_append_byte w 16, extractLsb'_append_byte w 8, extractLsb'_append_byte w 0]
  exact BitVec.extractLsb'_eq_self

theorem programOfBytes_slotBytes_append (w : Slot) (bytes : List Byte) :
    programOfBytes (slotBytes w ++ bytes) = (programOfBytes bytes).map (w :: ·) := by
  rw [slotBytes_eq]
  simp only [List.cons_append, List.nil_append, programOfBytes, slotOfBytes_extractLsb']

theorem programOfBytes_flatMap_slotBytes (program : List Slot) :
    programOfBytes (program.flatMap slotBytes) = some program := by
  induction program with
  | nil => rfl
  | cons w rest ih => rw [List.flatMap_cons, programOfBytes_slotBytes_append, ih, Option.map_some]

/-- Bits of bits of a word are bits of the word. -/
theorem extractLsb'_extractLsb' {n start len first count : Nat} (w : BitVec n) (h : first + count ≤ len) :
    (w.extractLsb' start len).extractLsb' first count = w.extractLsb' (start + first) count := by
  apply BitVec.eq_of_getLsbD_eq
  intro i hi
  simp only [BitVec.getLsbD_extractLsb', show first + i < len by omega, decide_true, Bool.true_and, Nat.add_assoc]

/-- The bytes of a slot in its fields (R71, R87). -/
theorem slotBytes_eq_fields (w : Slot) :
    let f := Fields.ofSlot w
    slotBytes w = [f.opcode, f.src ++ f.dst, f.off.extractLsb' 0 8, f.off.extractLsb' 8 8, f.imm.extractLsb' 0 8,
      f.imm.extractLsb' 8 8, f.imm.extractLsb' 16 8, f.imm.extractLsb' 24 8] := by
  simp only [Fields.ofSlot]
  rw [slotBytes_eq, extractLsb'_extractLsb' w (by decide), extractLsb'_extractLsb' w (by decide),
    extractLsb'_extractLsb' w (by decide), extractLsb'_extractLsb' w (by decide), extractLsb'_extractLsb' w (by decide),
    extractLsb'_extractLsb' w (by decide), BitVec.extractLsb'_append_extractLsb'_eq_extractLsb' (by decide)]

theorem slotOf_eq_toSlot (opcode : BitVec 8) (dst src : BitVec 4) (off : BitVec 16) (imm : BitVec 32) :
    Machine.slotOf opcode dst src off imm = Fields.toSlot ⟨opcode, dst, src, off, imm⟩ := rfl

/-- Settles O52: by induction on the program, and from the fields of the slot. -/
theorem programBytes : Obligations.ProgramBytes := by
  refine ⟨programOfBytes_flatMap_slotBytes, fun opcode dst src off imm => ?_⟩
  rw [slotOf_eq_toSlot, slotBytes_eq_fields, Fields.ofSlot_toSlot]

end Sys2Proof
end

section
/-! PROOFS. Steps and decoding: a step runs what its slots decode to (R91, R263), a byte outside the tables of R84 is illegal
(R85), a placed word is what the next step fetches (R91, R290). -/

namespace Sys2Proof.Machine

/-! What a step does with what its slots decode to. -/

theorem stepped_of_decode {s : State} {w : Slot} {next : Option Slot} {i : Instr} (hs : s.status = .running)
    (hf : s.fetchSlots = .ok (w, next)) (hd : decode s.params w next = .ok i) : Stepped s (exec i s) := by
  unfold Stepped
  rw [step_of_fetch hs (State.fetch_of_decode hf hd)]
  cases exec i s with
  | next t => exact betweenSteps_next t
  | fault f => rfl
  | refused q => rfl

theorem step_of_decode_error {s : State} {w : Slot} {next : Option Slot} {e : DecodeError} (hs : s.status = .running)
    (hf : s.fetchSlots = .ok (w, next)) (hd : decode s.params w next = .error e) :
    step s = .next (s.raise (.illegalInstruction w)) :=
  step_of_fetch_error hs (State.fetch_of_decode_error hf hd)

/-- Settles O33: the fetch answers the decoded instruction or the fault. -/
theorem stepRunsDecoded : Obligations.StepRunsDecoded := fun _ _ _ hs hf =>
  ⟨fun _ => stepped_of_decode hs hf, fun _ => step_of_decode_error hs hf⟩

/-! Opcode bytes without a row. -/

/-- The opcode map has rows for the bytes of R84 and R256 only. -/
theorem opcodeMap_bytes_subset : opcodeMap.map Prod.fst ⊆ instructionBytes ++ legacyBytes := by decide +kernel

/-- Settles O16: the byte has no row in the opcode map, so the slot does not decode. -/
theorem onlyListedOpcodes : Obligations.OnlyListedOpcodes := by
  intro b hinstr hlegacy dst src off imm s next hs _ hf
  have hbyte : (Fields.ofSlot (slotOf b dst src off imm)).opcode = b := by
    rw [slotOf_eq_toSlot, Fields.ofSlot_toSlot]
  have hrow : findRow b opcodeMap = none := findRow_eq_none fun hmem =>
    (List.mem_append.mp (opcodeMap_bytes_subset hmem)).elim hinstr hlegacy
  exact step_of_decode_error hs hf (decode_of_no_row (by rw [hbyte, hrow]))

/-! A placed word. -/

/-- The placed slots stand at the index, which is a first slot. -/
theorem exists_placeSlots_eq (program : List Slot) (n : Nat) (w0 w1 : Slot) :
    ∃ before rest, placeSlots program n w0 w1 = before ++ w0 :: w1 :: rest ∧ before.length = n ∧
      isFirstSlot (before ++ w0 :: w1 :: rest) n = true := by
  have hlen : (program.take n ++ List.replicate (n - program.length) 0#64).length = n := by
    simp only [List.length_append, List.length_take, List.length_replicate]
    omega
  simp only [placeSlots]
  split
  · next hfirst => exact ⟨_, _, List.append_assoc .., hlen, isFirstSlot_append _ _ _ n hlen hfirst⟩
  · exact ⟨_, _, List.append_assoc .., List.length_replicate, isFirstSlot_zeros n _ _⟩

/-- The next fetch gives the placed slots (log 7). -/
theorem fetchSlots_withFetchWord (s : State) (nbits w : Nat) :
    (s.withFetchWord nbits w).fetchSlots =
      .ok (BitVec.ofNat 64 (w % 2 ^ nbits), some (BitVec.ofNat 64 (w % 2 ^ nbits / 2 ^ 64))) := by
  obtain ⟨before, rest, hplace, hlen, hfirst⟩ := exists_placeSlots_eq s.program s.pc.toNat
    (BitVec.ofNat 64 (w % 2 ^ nbits)) (BitVec.ofNat 64 (w % 2 ^ nbits / 2 ^ 64))
  simp only [State.fetchSlots, State.withFetchWord, hplace, Int.toNat_natCast, hfirst, if_true]
  rw [if_neg (by omega)]
  simp [← hlen]

/-- Settles O53: the next fetch gives the placed slots, and a step runs what they decode to. -/
theorem placedWordRuns : Obligations.PlacedWordRuns := fun s nbits w =>
  ⟨⟨_, rfl⟩, fun _ hd => stepped_of_decode rfl (fetchSlots_withFetchWord s nbits w) hd⟩

end Sys2Proof.Machine
end

section
/-! PROOFS. Slots by the row of their opcode byte (R84, R90, R91): a slot with the fields that the row reads runs, any other
is illegal; so the two forms of an arithmetic instruction. -/

namespace Sys2Proof.Machine

/-! Slots and rows. -/

/-- A slot written out in its fields decodes to what the row of its opcode byte reads. -/
theorem decode_slotOf_eq_ok_iff {b : BitVec 8} {shape : Shape} (hrow : (b, shape) ∈ opcodeMap) {p : Params}
    {dst src : BitVec 4} {off : BitVec 16} {imm : BitVec 32} {next : Option Slot} {i : Instr} :
    decode p (slotOf b dst src off imm) next = .ok i ↔ shape.Reads p next ⟨b, dst, src, off, imm⟩ i := by
  rw [slotOf_eq_toSlot, decode_eq_ok_iff, Fields.ofSlot_toSlot, findRow_of_mem opcodeMap_distinct hrow]
  simp only [Option.some.injEq, exists_eq_left']

theorem runsWhere_of_reads {ok : State → Prop} {b : BitVec 8} {shape : Shape} (hrow : (b, shape) ∈ opcodeMap)
    {dst src : BitVec 4} {off : BitVec 16} {imm : BitVec 32} {i : Instr}
    (h : ∀ s next, ok s → shape.Reads s.params next ⟨b, dst, src, off, imm⟩ i) :
    RunsWhere ok (slotOf b dst src off imm) i := fun s next hs hok hf =>
  stepped_of_decode hs hf ((decode_slotOf_eq_ok_iff hrow).mpr (h s next hok))

theorem illegalWhere_of_not_reads {ok : State → Prop} {b : BitVec 8} {shape : Shape} (hrow : (b, shape) ∈ opcodeMap)
    {dst src : BitVec 4} {off : BitVec 16} {imm : BitVec 32}
    (h : ∀ s next i, ok s → ¬ shape.Reads s.params next ⟨b, dst, src, off, imm⟩ i) :
    IllegalWhere ok (slotOf b dst src off imm) := by
  intro s next hs hok hf
  cases hd : decode s.params (slotOf b dst src off imm) next with
  | ok i => exact absurd ((decode_slotOf_eq_ok_iff hrow).mp hd) (h s next i hok)
  | error e => exact step_of_decode_error hs hf hd

/-! The fields that an arithmetic row accepts (R22, R72, R83, R90). -/

theorem reads_aluK_fields {p : Params} {next : Option Slot} {mk : Gpr → BitVec 32 → Instr} {f : Fields} {i : Instr}
    (h : Shape.Reads p next (.aluK mk) f i) : f.src = 0 ∧ f.off = 0 ∧ f.dst.toNat < 10 := by
  cases h with
  | aluK op dst imm => exact ⟨rfl, rfl, dst.num_toNat_lt⟩

theorem reads_aluX_fields {p : Params} {next : Option Slot} {mk : Gpr → Reg → Instr} {f : Fields} {i : Instr}
    (h : Shape.Reads p next (.aluX mk) f i) : f.off = 0 ∧ f.imm = 0 ∧ f.dst.toNat < 10 ∧ f.src.toNat ≤ 10 := by
  cases h with
  | aluX op dst src => exact ⟨rfl, rfl, dst.num_toNat_lt, src.num_toNat_le⟩

theorem reads_negK_fields {p : Params} {next : Option Slot} {mk : Gpr → BitVec 32 → Instr} {f : Fields} {i : Instr}
    (h : Shape.Reads p next (.negK mk) f i) : f.src = 0 ∧ f.off = 0 ∧ f.dst.toNat < 10 := by
  cases h with
  | negK op dst imm => exact ⟨rfl, rfl, dst.num_toNat_lt⟩

theorem reads_negX_fields {p : Params} {next : Option Slot} {mk : Gpr → Reg → Instr} {f : Fields} {i : Instr}
    (h : Shape.Reads p next (.negX mk) f i) : f.off = 0 ∧ f.imm = 0 ∧ f.dst.toNat < 10 ∧ f.src.toNat ≤ 10 := by
  cases h with
  | negX op dst src => exact ⟨rfl, rfl, dst.num_toNat_lt, src.num_toNat_le⟩

/-- Under NEG_READING = negate_dst the immediate form's `imm` is unused (R90, R129, R130). -/
theorem reads_negK_imm {p : Params} {next : Option Slot} {mk : Gpr → BitVec 32 → Instr} {f : Fields} {i : Instr}
    (h : Shape.Reads p next (.negK mk) f i) (hneg : p.negReading = .negateDst) : f.imm = 0 := by
  cases h with
  | negK op dst imm himm => exact himm.resolve_left (by simp [hneg])

/-- Under NEG_READING = negate_dst the register form is no instruction (R90, R129, R130). -/
theorem not_reads_negX {p : Params} {next : Option Slot} {mk : Gpr → Reg → Instr} {f : Fields} {i : Instr}
    (hneg : p.negReading = .negateDst) : ¬ Shape.Reads p next (.negX mk) f i := by
  intro h
  cases h with
  | negX op dst src hsource => simp [hneg] at hsource

/-- A row that accepts a written register in `dst` and zero in `src` and `off` makes all other slots illegal. -/
theorem illegal_of_fieldsK {b : BitVec 8} {shape : Shape} (hrow : (b, shape) ∈ opcodeMap)
    (hfields : ∀ {p next f i}, shape.Reads p next f i → f.src = 0 ∧ f.off = 0 ∧ f.dst.toNat < 10)
    (dst src : BitVec 4) (off : BitVec 16) (imm : BitVec 32) (hbad : src ≠ 0 ∨ off ≠ 0 ∨ 10 ≤ dst.toNat) :
    Illegal (slotOf b dst src off imm) := by
  refine illegalWhere_of_not_reads hrow fun s next i _ h => ?_
  obtain ⟨hsrc, hoff, hdst⟩ := hfields h
  rcases hbad with hbad | hbad | hbad
  · exact hbad hsrc
  · exact hbad hoff
  · exact hdst.not_ge hbad

/-- A row that accepts a written register in `dst`, a read one in `src` and zero in `off` and `imm` makes all other slots
illegal. -/
theorem illegal_of_fieldsX {b : BitVec 8} {shape : Shape} (hrow : (b, shape) ∈ opcodeMap)
    (hfields : ∀ {p next f i}, shape.Reads p next f i → f.off = 0 ∧ f.imm = 0 ∧ f.dst.toNat < 10 ∧ f.src.toNat ≤ 10)
    (dst src : BitVec 4) (off : BitVec 16) (imm : BitVec 32)
    (hbad : off ≠ 0 ∨ imm ≠ 0 ∨ 10 ≤ dst.toNat ∨ 10 < src.toNat) : Illegal (slotOf b dst src off imm) := by
  refine illegalWhere_of_not_reads hrow fun s next i _ h => ?_
  obtain ⟨hoff, himm, hdst, hsrc⟩ := hfields h
  rcases hbad with hbad | hbad | hbad | hbad
  · exact hbad hoff
  · exact hbad himm
  · exact hdst.not_ge hbad
  · exact hsrc.not_gt hbad

/-! The two forms. -/

/-- The forms of an arithmetic instruction are what its two rows of the opcode map accept. -/
theorem aluForms_of_rows {rows : List (BitVec 8 × Shape)} {opK opX : BitVec 8} {mkK : Gpr → BitVec 32 → Instr}
    {mkX : Gpr → Reg → Instr} (hrows : rows ⊆ opcodeMap) (hK : (opK, .aluK mkK) ∈ rows := by repeat constructor)
    (hX : (opX, .aluX mkX) ∈ rows := by repeat constructor) : AluForms opK opX mkK mkX := by
  refine ⟨fun dst imm => ?_, fun dst src => ?_, ?_, ?_⟩
  · exact runsWhere_of_reads (hrows hK) fun _ _ _ => .aluK ..
  · exact runsWhere_of_reads (hrows hX) fun _ _ _ => .aluX ..
  · exact illegal_of_fieldsK (hrows hK) reads_aluK_fields
  · exact illegal_of_fieldsX (hrows hX) reads_aluX_fields

/-- The forms of `BPF_NEG` are what its two rows of the opcode map accept under either NEG_READING. -/
theorem negForms_of_rows {rows : List (BitVec 8 × Shape)} {opK opX : BitVec 8} {mkK : Gpr → BitVec 32 → Instr}
    {mkX : Gpr → Reg → Instr} (hrows : rows ⊆ opcodeMap) (hK : (opK, .negK mkK) ∈ rows := by repeat constructor)
    (hX : (opX, .negX mkX) ∈ rows := by repeat constructor) : NegForms opK opX mkK mkX := by
  refine ⟨fun dst imm => ?_, fun dst src => ?_, ?_, ?_, fun dst src off imm himm => ?_, fun dst src off imm => ?_⟩
  · exact runsWhere_of_reads (hrows hK) fun _ _ hneg => .negK _ _ _ hneg
  · exact runsWhere_of_reads (hrows hX) fun _ _ hneg => .negX _ _ _ hneg
  · exact illegal_of_fieldsK (hrows hK) reads_negK_fields
  · exact illegal_of_fieldsX (hrows hX) reads_negX_fields
  · exact illegalWhere_of_not_reads (hrows hK) fun _ _ _ hneg h => himm (reads_negK_imm h hneg)
  · exact illegalWhere_of_not_reads (hrows hX) fun _ _ _ hneg => not_reads_negX hneg

/-! Written words. -/

/-- A slot that the encoder writes decodes to its instruction, with the slot that the encoder writes behind it. -/
theorem decode_of_encode_eq {p : Params} {i : Instr} {w : Slot} {rest : List Slot} {next : Option Slot}
    (hwf : i.wellFormed p = true) (h : encode p i = w :: rest) (hnext : rest.head? = next) : decode p w next = .ok i := by
  obtain ⟨w', rest', hencode, hdecode⟩ := decodeOfEncode p i none hwf
  obtain ⟨rfl, rfl⟩ := List.cons_eq_cons.mp (h.symm.trans hencode)
  rwa [Option.or_none, hnext] at hdecode

/-- Settles O51: each word is the one that the encoder writes for the instruction. -/
theorem writtenWordsDecode : Obligations.WrittenWordsDecode :=
  ⟨decode_of_encode_eq rfl rfl rfl, decode_of_encode_eq rfl rfl rfl, decode_of_encode_eq rfl rfl rfl,
    decode_of_encode_eq rfl rfl rfl, decode_of_encode_eq rfl rfl rfl, decode_of_encode_eq rfl rfl rfl,
    decode_of_encode_eq rfl rfl rfl, decode_of_encode_eq rfl rfl rfl⟩

end Sys2Proof.Machine
end

section
/-! PROOFS. Arithmetic (R110 to R139): the operations in numbers, what reading the operands answers, and so the rules of
every arithmetic instruction. -/

namespace Sys2Proof.Machine

/-! The operations in numbers, at every width. -/

section Numbers

variable {w : Nat}

theorem add_eq_sumOf (a b : BitVec w) : a + b = sumOf a b := BitVec.add_def a b

theorem sub_eq_differenceOf (a b : BitVec w) : a - b = differenceOf a b := by
  rw [differenceOf, Int.sub_eq_add_neg, BitVec.ofInt_add, BitVec.ofInt_neg, BitVec.ofInt_natCast, BitVec.ofInt_natCast,
    BitVec.ofNat_toNat, BitVec.ofNat_toNat, BitVec.setWidth_eq, BitVec.setWidth_eq, BitVec.sub_eq_add_neg]

theorem mul_eq_productOf (a b : BitVec w) : a * b = productOf a b := by
  simp only [productOf, BitVec.ofNat_mul, BitVec.ofNat_toNat, BitVec.setWidth_eq]

theorem toNat_ne_zero {b : BitVec w} (h : b ≠ 0#w) : b.toNat ≠ 0 := by
  simpa [BitVec.toNat_eq] using h

theorem aluDiv_eq_quotientOf (a b : BitVec w) : aluDiv a b = quotientOf a b := by
  rw [aluDiv, quotientOf]
  split
  · next hb => simp [hb]
  · next hb => rw [if_neg (toNat_ne_zero hb)]; exact BitVec.udiv_def

theorem aluMod_eq_remainderOf (a b : BitVec w) : aluMod a b = remainderOf a b := by
  rw [aluMod, remainderOf]
  split
  · next hb => simp [hb]
  · next hb => rw [if_neg (toNat_ne_zero hb)]; exact BitVec.umod_def

/-- A value is given by its bits. -/
theorem eq_bitsOf {f : Bool → Bool → Bool} {a b c : BitVec w} (h : ∀ i, c.getLsbD i = f (a.getLsbD i) (b.getLsbD i)) :
    c = bitsOf f a b := by
  apply BitVec.eq_of_getLsbD_eq
  intro i hi
  rw [h, bitsOf, BitVec.getLsbD_ofFnLE, dif_pos hi]

theorem or_eq_bitsOf (a b : BitVec w) : a ||| b = bitsOf (fun x y => x || y) a b := eq_bitsOf fun _ => BitVec.getLsbD_or

theorem and_eq_bitsOf (a b : BitVec w) : a &&& b = bitsOf (fun x y => x && y) a b :=
  eq_bitsOf fun _ => BitVec.getLsbD_and

theorem xor_eq_bitsOf (a b : BitVec w) : a ^^^ b = bitsOf (fun x y => x != y) a b :=
  eq_bitsOf fun _ => BitVec.getLsbD_xor

theorem not_eq_complementOf (b : BitVec w) : ~~~b = complementOf b := by
  rw [complementOf, Int.sub_eq_add_neg, BitVec.ofInt_add, BitVec.ofInt_neg, BitVec.ofInt_neg, BitVec.ofInt_natCast,
    BitVec.ofNat_toNat, BitVec.setWidth_eq, BitVec.not_eq_neg_add, BitVec.sub_eq_add_neg, BitVec.add_comm]
  rfl

theorem zero_sub_eq_negationOf (a : BitVec w) : 0 - a = negationOf a := by
  rw [negationOf, BitVec.ofInt_neg, BitVec.ofInt_toInt]
  exact BitVec.zero_sub a

theorem aluLsh_eq_leftOf (a : BitVec w) (n : Nat) : aluLsh a n = leftOf a n := by
  apply BitVec.eq_of_toNat_eq
  rw [aluLsh, leftOf, BitVec.toNat_shiftLeft, BitVec.toNat_ofNat, Nat.shiftLeft_eq]

theorem aluRsh_eq_rightOf (a : BitVec w) (n : Nat) : aluRsh a n = rightOf a n := by
  rw [rightOf, ← Nat.shiftRight_eq_div_pow, ← BitVec.toNat_ushiftRight, BitVec.ofNat_toNat, BitVec.setWidth_eq, aluRsh]

theorem aluArsh_eq_signedRightOf (a : BitVec w) (n : Nat) : aluArsh a n = signedRightOf a n := by
  rw [aluArsh, BitVec.sshiftRight, Int.shiftRight_eq_div_pow, signedRightOf, Int.natCast_pow, Int.cast_ofNat_Int]

end Numbers

/-! Operands (R82, R110, R111). -/

theorem sext64_eq_immediate64 (imm : BitVec 32) : sext64 imm = immediate64 imm := rfl

theorem low32_eq_half (v : Word) : low32 v = half v := by
  rw [half, BitVec.ofNat_toNat, low32, BitVec.setWidth_eq_extractLsb' (by decide)]

theorem zext64_eq_wide (v : BitVec 32) : zext64 v = wide v := by
  rw [wide, BitVec.ofNat_toNat, zext64]

theorem State.readLow32_bind {α : Type} (s : State) (r : Reg) (m : BitVec 32 → Except RaisedFault α) :
    (s.readLow32 r >>= m) = s.readReg r >>= fun v => m (half v) := by
  simp only [State.readLow32, bind_assoc, pure_bind, low32_eq_half]

theorem State.source32_reg_bind {α : Type} (s : State) (r : Reg) (m : BitVec 32 → Except RaisedFault α) :
    (s.source32 (.reg r) >>= m) = s.readReg r >>= fun v => m (half v) :=
  s.readLow32_bind r m

/-- An instruction that reads a register which holds a value goes on with that value. -/
theorem State.finish_readReg_of_some {s : State} {r : Reg} {v : Word} (m : Word → Except RaisedFault State)
    (h : s.reg r = some v) : s.finish (s.readReg r >>= m) = s.finish (m v) := by
  rw [State.readReg_of_some h, except_ok_bind]

/-- An instruction that reads a register which holds no value raises UninitRead (R265). -/
theorem State.finish_readReg_of_none {s : State} {r : Gpr} (m : Word → Except RaisedFault State)
    (h : s.regs.get r = none) : s.finish (s.readReg (.gpr r) >>= m) = .next (s.raise (.uninitRegister r)) := by
  rw [State.readReg_of_none h, except_error_bind, State.finish_error]

/-! Instructions that read both operands. -/

/-- Both forms of an instruction read `dst`, then the source operand, and answer what `outK` and `outX` make of the operands
(R110, R265, R271): the shape of `Alu64Rule`, `Alu32Rule`, `Shift64Rule` and `Shift32Rule`. -/
def ReadsBothRule (mkK : Gpr → BitVec 32 → Instr) (mkX : Gpr → Reg → Instr)
    (outK : State → Gpr → Word → BitVec 32 → State) (outX : State → Gpr → Word → Word → State) : Prop :=
  ∀ s dst,
    (∀ a, s.regs.get dst = some a →
      (∀ imm, exec (mkK dst imm) s = .next (outK s dst a imm)) ∧
      (∀ src b, s.reg src = some b → exec (mkX dst src) s = .next (outX s dst a b)) ∧
      ∀ src, s.regs.get src = none → exec (mkX dst (.gpr src)) s = .next (s.raise (.uninitRegister src))) ∧
    (s.regs.get dst = none →
      (∀ imm, exec (mkK dst imm) s = .next (s.raise (.uninitRegister dst))) ∧
      ∀ src, exec (mkX dst src) s = .next (s.raise (.uninitRegister dst)))

theorem readsBothRule_of_exec {mkK : Gpr → BitVec 32 → Instr} {mkX : Gpr → Reg → Instr}
    {outK : State → Gpr → Word → BitVec 32 → State} {outX : State → Gpr → Word → Word → State}
    (hK : ∀ s dst imm, exec (mkK dst imm) s = s.finish (s.readReg (.gpr dst) >>= fun a => .ok (outK s dst a imm)))
    (hX : ∀ s dst src, exec (mkX dst src) s =
      s.finish (s.readReg (.gpr dst) >>= fun a => s.readReg src >>= fun b => .ok (outX s dst a b))) :
    ReadsBothRule mkK mkX outK outX := by
  refine fun s dst => ⟨fun a ha => ⟨fun imm => ?_, fun src b hb => ?_, fun src hsrc => ?_⟩,
    fun hdst => ⟨fun imm => ?_, fun src => ?_⟩⟩
  · rw [hK, State.finish_readReg_of_some (r := .gpr dst) _ ha, State.finish_ok]
  · rw [hX, State.finish_readReg_of_some (r := .gpr dst) _ ha, State.finish_readReg_of_some _ hb, State.finish_ok]
  · rw [hX, State.finish_readReg_of_some (r := .gpr dst) _ ha, State.finish_readReg_of_none _ hsrc]
  · rw [hK, State.finish_readReg_of_none _ hdst]
  · rw [hX, State.finish_readReg_of_none _ hdst]

theorem State.alu64_imm (s : State) (f : Word → Word → Word) (dst : Gpr) (imm : BitVec 32) :
    s.alu64 f dst (.imm imm) =
      s.finish (s.readReg (.gpr dst) >>= fun a => .ok (s.wrote dst (f a (immediate64 imm)))) := by
  rw [← sext64_eq_immediate64]
  rfl

theorem State.alu64_reg (s : State) (f : Word → Word → Word) (dst : Gpr) (src : Reg) :
    s.alu64 f dst (.reg src) =
      s.finish (s.readReg (.gpr dst) >>= fun a => s.readReg src >>= fun b => .ok (s.wrote dst (f a b))) := rfl

theorem State.alu32_imm (s : State) (f : BitVec 32 → BitVec 32 → BitVec 32) (dst : Gpr) (imm : BitVec 32) :
    s.alu32 f dst (.imm imm) =
      s.finish (s.readReg (.gpr dst) >>= fun a => .ok (s.wrote dst (wide (f (half a) imm)))) := by
  rw [State.alu32, State.readLow32_bind]
  simp only [zext64_eq_wide]
  rfl

theorem State.alu32_reg (s : State) (f : BitVec 32 → BitVec 32 → BitVec 32) (dst : Gpr) (src : Reg) :
    s.alu32 f dst (.reg src) =
      s.finish (s.readReg (.gpr dst) >>= fun a => s.readReg src >>= fun b =>
        .ok (s.wrote dst (wide (f (half a) (half b))))) := by
  rw [State.alu32, State.readLow32_bind]
  simp only [State.source32_reg_bind, zext64_eq_wide]
  rfl

theorem alu64Rule_of_exec {mkK : Gpr → BitVec 32 → Instr} {mkX : Gpr → Reg → Instr} {f r : Word → Word → Word}
    (hf : ∀ a b, f a b = r a b) (hK : ∀ s dst imm, exec (mkK dst imm) s = s.alu64 f dst (.imm imm) := by intros; rfl)
    (hX : ∀ s dst src, exec (mkX dst src) s = s.alu64 f dst (.reg src) := by intros; rfl) : Alu64Rule mkK mkX r := by
  obtain rfl : f = r := funext fun a => funext (hf a)
  exact readsBothRule_of_exec (fun s dst imm => (hK s dst imm).trans (s.alu64_imm f dst imm))
    (fun s dst src => (hX s dst src).trans (s.alu64_reg f dst src))

theorem alu32Rule_of_exec {mkK : Gpr → BitVec 32 → Instr} {mkX : Gpr → Reg → Instr}
    {f r : BitVec 32 → BitVec 32 → BitVec 32} (hf : ∀ a b, f a b = r a b)
    (hK : ∀ s dst imm, exec (mkK dst imm) s = s.alu32 f dst (.imm imm) := by intros; rfl)
    (hX : ∀ s dst src, exec (mkX dst src) s = s.alu32 f dst (.reg src) := by intros; rfl) : Alu32Rule mkK mkX r := by
  obtain rfl : f = r := funext fun a => funext (hf a)
  exact readsBothRule_of_exec (fun s dst imm => (hK s dst imm).trans (s.alu32_imm f dst imm))
    (fun s dst src => (hX s dst src).trans (s.alu32_reg f dst src))

/-! Shifts (R139). -/

/-- The state after a 64-bit shift, under either SHIFT_MODE. -/
theorem State.wrote_shifted64 (s : State) (f : Word → Nat → Word) (dst : Gpr) (x y : Word) :
    ((s.shifted64 f x y).2.setReg dst (s.shifted64 f x y).1).nextSlot = Shift64Rule.shifted f s dst x y := by
  rw [State.shifted64, Shift64Rule.shifted]
  cases s.params.shiftMode with
  | mask => rfl
  | draw =>
    by_cases hy : y.toNat < 64
    · simp only [hy, if_true]; rfl
    · simp only [hy, if_false]; rfl

/-- The state after a 32-bit shift, under either SHIFT_MODE. -/
theorem State.wrote_shifted32 (s : State) (f : BitVec 32 → Nat → BitVec 32) (dst : Gpr) (x y : BitVec 32) :
    ((s.shifted32 f x y).2.setReg dst (wide (s.shifted32 f x y).1)).nextSlot = Shift32Rule.shifted f s dst x y := by
  rw [State.shifted32, Shift32Rule.shifted]
  cases s.params.shiftMode with
  | mask => rfl
  | draw =>
    by_cases hy : y.toNat < 32
    · simp only [hy, if_true]; rfl
    · simp only [hy, if_false]; rfl

theorem State.shift64_imm (s : State) (f : Word → Nat → Word) (dst : Gpr) (imm : BitVec 32) :
    s.shift64 f dst (.imm imm) =
      s.finish (s.readReg (.gpr dst) >>= fun a => .ok (Shift64Rule.shifted f s dst a (immediate64 imm))) := by
  simp only [← State.wrote_shifted64, ← sext64_eq_immediate64]
  rfl

theorem State.shift64_reg (s : State) (f : Word → Nat → Word) (dst : Gpr) (src : Reg) :
    s.shift64 f dst (.reg src) =
      s.finish (s.readReg (.gpr dst) >>= fun a => s.readReg src >>= fun b =>
        .ok (Shift64Rule.shifted f s dst a b)) := by
  simp only [← State.wrote_shifted64]
  rfl

theorem State.shift32_imm (s : State) (f : BitVec 32 → Nat → BitVec 32) (dst : Gpr) (imm : BitVec 32) :
    s.shift32 f dst (.imm imm) =
      s.finish (s.readReg (.gpr dst) >>= fun a => .ok (Shift32Rule.shifted f s dst (half a) imm)) := by
  simp only [← State.wrote_shifted32]
  rw [State.shift32, State.readLow32_bind]
  simp only [zext64_eq_wide]
  rfl

theorem State.shift32_reg (s : State) (f : BitVec 32 → Nat → BitVec 32) (dst : Gpr) (src : Reg) :
    s.shift32 f dst (.reg src) =
      s.finish (s.readReg (.gpr dst) >>= fun a => s.readReg src >>= fun b =>
        .ok (Shift32Rule.shifted f s dst (half a) (half b))) := by
  simp only [← State.wrote_shifted32]
  rw [State.shift32, State.readLow32_bind]
  simp only [State.source32_reg_bind, zext64_eq_wide]
  rfl

theorem shift64Rule_of_exec {mkK : Gpr → BitVec 32 → Instr} {mkX : Gpr → Reg → Instr} {f r : Word → Nat → Word}
    (hf : ∀ a n, f a n = r a n) (hK : ∀ s dst imm, exec (mkK dst imm) s = s.shift64 f dst (.imm imm) := by intros; rfl)
    (hX : ∀ s dst src, exec (mkX dst src) s = s.shift64 f dst (.reg src) := by intros; rfl) : Shift64Rule mkK mkX r := by
  obtain rfl : f = r := funext fun a => funext (hf a)
  exact readsBothRule_of_exec (fun s dst imm => (hK s dst imm).trans (s.shift64_imm f dst imm))
    (fun s dst src => (hX s dst src).trans (s.shift64_reg f dst src))

theorem shift32Rule_of_exec {mkK : Gpr → BitVec 32 → Instr} {mkX : Gpr → Reg → Instr}
    {f r : BitVec 32 → Nat → BitVec 32} (hf : ∀ a n, f a n = r a n)
    (hK : ∀ s dst imm, exec (mkK dst imm) s = s.shift32 f dst (.imm imm) := by intros; rfl)
    (hX : ∀ s dst src, exec (mkX dst src) s = s.shift32 f dst (.reg src) := by intros; rfl) : Shift32Rule mkK mkX r := by
  obtain rfl : f = r := funext fun a => funext (hf a)
  exact readsBothRule_of_exec (fun s dst imm => (hK s dst imm).trans (s.shift32_imm f dst imm))
    (fun s dst src => (hX s dst src).trans (s.shift32_reg f dst src))

/-! Instructions that read the source operand only. -/

/-- Both forms of an instruction read the source operand only and answer what `outK` and `outX` make of it, where `ok` holds
(R110, R265): the shape of `Unary64Rule` and `Unary32Rule`. -/
def ReadsSourceRule (ok : State → Prop) (mkK : Gpr → BitVec 32 → Instr) (mkX : Gpr → Reg → Instr)
    (outK : State → Gpr → BitVec 32 → State) (outX : State → Gpr → Word → State) : Prop :=
  ∀ s dst, ok s →
    (∀ imm, exec (mkK dst imm) s = .next (outK s dst imm)) ∧
    (∀ src b, s.reg src = some b → exec (mkX dst src) s = .next (outX s dst b)) ∧
    ∀ src, s.regs.get src = none → exec (mkX dst (.gpr src)) s = .next (s.raise (.uninitRegister src))

theorem readsSourceRule_of_exec {ok : State → Prop} {mkK : Gpr → BitVec 32 → Instr} {mkX : Gpr → Reg → Instr}
    {outK : State → Gpr → BitVec 32 → State} {outX : State → Gpr → Word → State}
    (hK : ∀ s dst imm, ok s → exec (mkK dst imm) s = .next (outK s dst imm))
    (hX : ∀ s dst src, ok s → exec (mkX dst src) s = s.finish (s.readReg src >>= fun b => .ok (outX s dst b))) :
    ReadsSourceRule ok mkK mkX outK outX := by
  refine fun s dst hok => ⟨fun imm => hK s dst imm hok, fun src b hb => ?_, fun src hsrc => ?_⟩
  · rw [hX s dst src hok, State.finish_readReg_of_some _ hb, State.finish_ok]
  · rw [hX s dst _ hok, State.finish_readReg_of_none _ hsrc]

theorem State.unary64_imm (s : State) (f : Word → Word) (dst : Gpr) (imm : BitVec 32) :
    s.unary64 f dst (.imm imm) = .next (s.wrote dst (f (immediate64 imm))) := by
  rw [← sext64_eq_immediate64]
  rfl

theorem State.unary64_reg (s : State) (f : Word → Word) (dst : Gpr) (src : Reg) :
    s.unary64 f dst (.reg src) = s.finish (s.readReg src >>= fun b => .ok (s.wrote dst (f b))) := rfl

theorem State.unary32_imm (s : State) (f : BitVec 32 → BitVec 32) (dst : Gpr) (imm : BitVec 32) :
    s.unary32 f dst (.imm imm) = .next (s.wrote dst (wide (f imm))) := by
  rw [← zext64_eq_wide]
  rfl

theorem State.unary32_reg (s : State) (f : BitVec 32 → BitVec 32) (dst : Gpr) (src : Reg) :
    s.unary32 f dst (.reg src) = s.finish (s.readReg src >>= fun b => .ok (s.wrote dst (wide (f (half b))))) := by
  rw [State.unary32, State.source32_reg_bind]
  simp only [zext64_eq_wide]
  rfl

theorem unary64Rule_of_exec {ok : State → Prop} {mkK : Gpr → BitVec 32 → Instr} {mkX : Gpr → Reg → Instr}
    {f r : Word → Word} (hf : ∀ b, f b = r b)
    (hK : ∀ s dst imm, ok s → exec (mkK dst imm) s = s.unary64 f dst (.imm imm) := by intros; rfl)
    (hX : ∀ s dst src, ok s → exec (mkX dst src) s = s.unary64 f dst (.reg src) := by intros; rfl) :
    Unary64Rule ok mkK mkX r := by
  obtain rfl : f = r := funext hf
  exact readsSourceRule_of_exec (fun s dst imm hok => (hK s dst imm hok).trans (s.unary64_imm f dst imm))
    (fun s dst src hok => (hX s dst src hok).trans (s.unary64_reg f dst src))

theorem unary32Rule_of_exec {ok : State → Prop} {mkK : Gpr → BitVec 32 → Instr} {mkX : Gpr → Reg → Instr}
    {f r : BitVec 32 → BitVec 32} (hf : ∀ b, f b = r b)
    (hK : ∀ s dst imm, ok s → exec (mkK dst imm) s = s.unary32 f dst (.imm imm) := by intros; rfl)
    (hX : ∀ s dst src, ok s → exec (mkX dst src) s = s.unary32 f dst (.reg src) := by intros; rfl) :
    Unary32Rule ok mkK mkX r := by
  obtain rfl : f = r := funext hf
  exact readsSourceRule_of_exec (fun s dst imm hok => (hK s dst imm hok).trans (s.unary32_imm f dst imm))
    (fun s dst src hok => (hX s dst src hok).trans (s.unary32_reg f dst src))

/-! The instructions. -/

/-- Settles O1: both forms are rows of the opcode map, and the operations are the sum and the difference in numbers. -/
theorem addAndSubtract : Obligations.AddAndSubtract :=
  ⟨aluForms_of_rows alu64Rows_subset, alu64Rule_of_exec add_eq_sumOf,
    aluForms_of_rows aluRows_subset, alu32Rule_of_exec add_eq_sumOf,
    aluForms_of_rows alu64Rows_subset, alu64Rule_of_exec sub_eq_differenceOf,
    aluForms_of_rows aluRows_subset, alu32Rule_of_exec sub_eq_differenceOf⟩

/-- Settles O2: both forms are rows of the opcode map, and the operation is the product in numbers. -/
theorem multiply : Obligations.Multiply :=
  ⟨aluForms_of_rows alu64Rows_subset, alu64Rule_of_exec mul_eq_productOf,
    aluForms_of_rows aluRows_subset, alu32Rule_of_exec mul_eq_productOf⟩

/-- Settles O3: both forms are rows of the opcode map, and the operations are the quotient and the remainder in numbers, with
their values for the divisor 0. -/
theorem divideAndModulo : Obligations.DivideAndModulo :=
  ⟨aluForms_of_rows alu64Rows_subset, alu64Rule_of_exec aluDiv_eq_quotientOf,
    aluForms_of_rows aluRows_subset, alu32Rule_of_exec aluDiv_eq_quotientOf,
    aluForms_of_rows alu64Rows_subset, alu64Rule_of_exec aluMod_eq_remainderOf,
    aluForms_of_rows aluRows_subset, alu32Rule_of_exec aluMod_eq_remainderOf⟩

/-- Settles O4: both forms are rows of the opcode map, and each bit of a result comes from the operands' bits. -/
theorem bitwiseOperations : Obligations.BitwiseOperations :=
  ⟨aluForms_of_rows alu64Rows_subset, alu64Rule_of_exec or_eq_bitsOf,
    aluForms_of_rows aluRows_subset, alu32Rule_of_exec or_eq_bitsOf,
    aluForms_of_rows alu64Rows_subset, alu64Rule_of_exec and_eq_bitsOf,
    aluForms_of_rows aluRows_subset, alu32Rule_of_exec and_eq_bitsOf,
    aluForms_of_rows alu64Rows_subset, alu64Rule_of_exec xor_eq_bitsOf,
    aluForms_of_rows aluRows_subset, alu32Rule_of_exec xor_eq_bitsOf⟩

/-- Settles O5: both forms are rows of the opcode map, the operations are products and quotients by powers of two, and the
count is treated as either SHIFT_MODE says. -/
theorem shifts : Obligations.Shifts :=
  ⟨aluForms_of_rows alu64Rows_subset, shift64Rule_of_exec aluLsh_eq_leftOf,
    aluForms_of_rows aluRows_subset, shift32Rule_of_exec aluLsh_eq_leftOf,
    aluForms_of_rows alu64Rows_subset, shift64Rule_of_exec aluRsh_eq_rightOf,
    aluForms_of_rows aluRows_subset, shift32Rule_of_exec aluRsh_eq_rightOf,
    aluForms_of_rows alu64Rows_subset, shift64Rule_of_exec aluArsh_eq_signedRightOf,
    aluForms_of_rows aluRows_subset, shift32Rule_of_exec aluArsh_eq_signedRightOf⟩

/-- Settles O7: both forms are rows of the opcode map, and the source operand alone is read. -/
theorem move : Obligations.Move :=
  ⟨aluForms_of_rows alu64Rows_subset, unary64Rule_of_exec (f := fun b => b) fun _ => rfl,
    aluForms_of_rows aluRows_subset, unary32Rule_of_exec (f := fun b => b) fun _ => rfl⟩

/-! `BPF_NEG` under either NEG_READING (R129, R130). -/

theorem exec_neg64K_of_source {s : State} (h : s.params.negReading = .source) (dst : Gpr) (imm : BitVec 32) :
    exec (.neg64K dst imm) s = s.unary64 (fun b => ~~~b) dst (.imm imm) := by
  simp only [exec, execNeg64K, h]

theorem exec_neg64X_of_source {s : State} (h : s.params.negReading = .source) (dst : Gpr) (src : Reg) :
    exec (.neg64X dst src) s = s.unary64 (fun b => ~~~b) dst (.reg src) := by
  simp only [exec, execNeg64X, h]

theorem exec_neg32K_of_source {s : State} (h : s.params.negReading = .source) (dst : Gpr) (imm : BitVec 32) :
    exec (.neg32K dst imm) s = s.unary32 (fun b => ~~~b) dst (.imm imm) := by
  simp only [exec, execNeg32K, h]

theorem exec_neg32X_of_source {s : State} (h : s.params.negReading = .source) (dst : Gpr) (src : Reg) :
    exec (.neg32X dst src) s = s.unary32 (fun b => ~~~b) dst (.reg src) := by
  simp only [exec, execNeg32X, h]

theorem exec_neg64K_of_negateDst {s : State} (h : s.params.negReading = .negateDst) (dst : Gpr) :
    exec (.neg64K dst 0) s =
      s.finish (s.readReg (.gpr dst) >>= fun a => .ok (s.wrote dst (negationOf a))) := by
  simp only [← zero_sub_eq_negationOf]
  simp only [exec, execNeg64K, h]
  rfl

theorem exec_neg32K_of_negateDst {s : State} (h : s.params.negReading = .negateDst) (dst : Gpr) :
    exec (.neg32K dst 0) s =
      s.finish (s.readReg (.gpr dst) >>= fun a => .ok (s.wrote dst (wide (negationOf (half a))))) := by
  simp only [← zero_sub_eq_negationOf]
  rw [← s.alu32_imm (fun a _ => 0 - a) dst 0]
  simp only [exec, execNeg32K, h]
  rfl

theorem negateRule_of_exec {mkK : Gpr → BitVec 32 → Instr} {r : Word → Word}
    (h : ∀ s dst, s.params.negReading = .negateDst →
      exec (mkK dst 0) s = s.finish (s.readReg (.gpr dst) >>= fun a => .ok (s.wrote dst (r a)))) : NegateRule mkK r := by
  refine fun s dst hneg => ⟨fun a ha => ?_, fun hdst => ?_⟩
  · rw [h s dst hneg, State.finish_readReg_of_some (r := .gpr dst) _ ha, State.finish_ok]
  · rw [h s dst hneg, State.finish_readReg_of_none _ hdst]

/-- Settles O6: the rows of `BPF_NEG` accept what NEG_READING says; under source the operation is the complement of the
source operand, under negate_dst the negation of the destination. -/
theorem negateUnderBothReadings : Obligations.NegateUnderBothReadings :=
  ⟨negForms_of_rows alu64Rows_subset, negForms_of_rows aluRows_subset,
    unary64Rule_of_exec not_eq_complementOf (fun _ dst imm h => exec_neg64K_of_source h dst imm)
      (fun _ dst src h => exec_neg64X_of_source h dst src),
    unary32Rule_of_exec not_eq_complementOf (fun _ dst imm h => exec_neg32K_of_source h dst imm)
      (fun _ dst src h => exec_neg32X_of_source h dst src),
    negateRule_of_exec fun _ dst h => exec_neg64K_of_negateDst h dst,
    negateRule_of_exec fun _ dst h => exec_neg32K_of_negateDst h dst⟩

end Sys2Proof.Machine
end

section
/-! PROOFS. What an instruction leaves alone outside data memory (R22, R26, R111, R139, R161, R185, R187, R222). -/

namespace Sys2Proof.Machine

/-- A regular load changes data memory and the source of coming moves only, where other agents moved (R51, R55). -/
theorem State.memRead_eq {s u : State} {ea v : Word} {n : Nat} (h : s.memRead ea n = .ok (v, u)) :
    u = { s with mem := u.mem, envMoves := u.envMoves } := by
  obtain ⟨-, -, bs, -, -, rfl⟩ := State.memRead_cases h
  rw [State.atByte]
  split
  · rfl
  · exact s.moved_eq _

/-- A regular store changes data memory and the source of coming moves only (R46, R51, R55). -/
theorem State.memWrite_eq {s u : State} {ea v : Word} {n : Nat} (h : s.memWrite ea n v = .ok u) :
    u = { s with mem := u.mem, envMoves := u.envMoves } := by
  obtain ⟨-, -, rfl⟩ := State.memWrite_cases h
  split
  · rfl
  · exact State.eq_of_fields (by simp) (by simp) (by simp) rfl (by simp) (by simp) (by simp) (by simp) rfl (by simp)

/-- A called function leaves R6 to R9 as they were (R187). -/
theorem Regs.get_afterCall {r : Gpr} (h : r ∉ [Gpr.r0, .r1, .r2, .r3, .r4, .r5]) (g : Regs) (ret : Word) :
    (g.afterCall ret).get r = g.get r := by
  cases r
  case r6 | r7 | r8 | r9 => rfl
  all_goals exact absurd (by decide) h

/-- The old value that an atomic operation fetches goes to the register it writes (R222). -/
theorem State.fetchTo_regs_get {d : FetchTo} {r : Gpr} (h : r ∉ d.written) (s : State) (old : Word) :
    (s.fetchTo d old).regs.get r = s.regs.get r := by
  cases d with
  | nothing => rfl
  | register q => exact Regs.get_set_ne _ _ (List.ne_of_not_mem_cons h)

/-- An instruction changes the registers that it writes and no other (R111, R161, R187, R222). -/
theorem Did.regs_get {s t : State} {i : Instr} (hd : Did s i t) {r : Gpr} (h : r ∉ writes i) :
    t.regs.get r = s.regs.get r := by
  cases hd with
  | raised f => rfl
  | computed dst v d hw =>
    rw [hw] at h
    exact Regs.get_set_ne _ _ (List.ne_of_not_mem_cons h)
  | wide dst v hi =>
    subst hi
    exact Regs.get_set_ne _ _ (List.ne_of_not_mem_cons h)
  | jumped taken off => rw [State.jump_regs]
  | loaded n dst ea v u hw _ _ hr =>
    rw [hw] at h
    rw [State.memRead_eq hr]
    exact Regs.get_set_ne _ _ (List.ne_of_not_mem_cons h)
  | stored n ea v u _ _ _ hs => rw [State.memWrite_eq hs]; rfl
  | exchanged n ea old v d hw =>
    rw [hw] at h
    exact State.fetchTo_regs_get h _ old
  | compared n ea old hw =>
    rw [hw] at h
    exact Regs.get_set_ne _ _ (List.ne_of_not_mem_cons h)
  | called imm g args ret after u hi _ _ hc =>
    subst hi
    rw [(State.chooseAnswer_eq_some hc).2]
    exact Regs.get_afterCall h _ ret
  | exited v => rfl

/-- Only a call takes a choice among the answers of a function (R185). -/
theorem Did.callChoices {s t : State} {i : Instr} (hd : Did s i t) (h : ∀ imm, i ≠ .call imm) :
    t.callChoices = s.callChoices := by
  cases hd with
  | raised f => rfl
  | computed dst v d => rfl
  | wide dst v => rfl
  | jumped taken off => rw [State.jump_callChoices]
  | loaded n dst ea v u _ _ _ hr => rw [State.memRead_eq hr]; rfl
  | stored n ea v u _ _ _ hs => rw [State.memWrite_eq hs]; rfl
  | exchanged n ea old v d => simp
  | compared n ea old => rfl
  | called imm g args ret after u hi => exact absurd hi (h imm)
  | exited v => rfl

/-- Only a shift draws a free value (R139). -/
theorem Did.draws {s t : State} {i : Instr} (hd : Did s i t) (h : isShift i = false) : t.draws = s.draws := by
  cases hd with
  | raised f => rfl
  | computed dst v d _ _ _ hdraws => exact hdraws h
  | wide dst v => rfl
  | jumped taken off => rw [State.jump_draws]
  | loaded n dst ea v u _ _ _ hr => rw [State.memRead_eq hr]; rfl
  | stored n ea v u _ _ _ hs => rw [State.memWrite_eq hs]; rfl
  | exchanged n ea old v d => simp
  | compared n ea old => rfl
  | called imm g args ret after u _ _ _ hc => rw [(State.chooseAnswer_eq_some hc).2]; rfl
  | exited v => rfl

/-- Settles O54, by the case analysis of what an instruction may have done. -/
theorem registerFrame : Obligations.RegisterFrame := by
  intro i s t h
  have hd := exec_did h
  obtain ⟨hfp, hprogram, hparams⟩ := hd.fixed
  refine ⟨fun r => hd.regs_get, hfp, hprogram, hparams, hd.callChoices, hd.draws, ?_⟩
  rcases hd.status with hstatus | ⟨f, rfl⟩ | ⟨hi, v, -, rfl⟩
  · exact .inl hstatus
  · exact .inr (.inl ⟨f, rfl⟩)
  · exact .inr (.inr ⟨hi, v, rfl⟩)

end Sys2Proof.Machine
end

section
/-! PROOFS. Byte swaps (R150 to R158): the rows that accept them, the bytes of their results on either host, and what two of
them in a row give. -/

namespace Sys2Proof.Machine

/-! The forms (R150, R157). -/

theorem reads_swap_fields {p : Params} {next : Option Slot} {sel : List (BitVec 32 × (Gpr → Instr))} {f : Fields} {i : Instr}
    (h : Shape.Reads p next (.swap sel) f i) : f.src = 0 ∧ f.off = 0 ∧ f.dst.toNat < 10 := by
  cases h with
  | swap op dst imm hsel => exact ⟨rfl, rfl, dst.num_toNat_lt⟩

/-- The row of a byte swap accepts only the widths that it lists. -/
theorem reads_swap_imm {p : Params} {next : Option Slot} {sel : List (BitVec 32 × (Gpr → Instr))} {f : Fields} {i : Instr}
    (h : Shape.Reads p next (.swap sel) f i) : f.imm ∈ sel.map Prod.fst := by
  cases h with
  | swap op dst imm hsel => exact List.mem_map_of_mem (mem_of_findRow hsel)

/-- The form of a byte swap is what its row of the opcode map accepts for its width. -/
theorem swapForm_of_row {op : BitVec 8} {sel : List (BitVec 32 × (Gpr → Instr))} {width : BitVec 32} {mk : Gpr → Instr}
    (hrow : (op, .swap sel) ∈ swapRows) (hsel : findRow width sel = some mk) : SwapForm op width mk := by
  refine ⟨fun dst => ?_, fun dst src off => ?_⟩
  · exact runsWhere_of_reads (swapRows_subset hrow) fun _ _ _ => .swap _ _ _ hsel
  · exact illegal_of_fieldsK (swapRows_subset hrow) reads_swap_fields dst src off width

theorem illegal_of_width_not_mem {op : BitVec 8} {sel : List (BitVec 32 × (Gpr → Instr))}
    (hrow : (op, .swap sel) ∈ swapRows) {imm : BitVec 32} (himm : imm ∉ sel.map Prod.fst) (dst src : BitVec 4)
    (off : BitVec 16) : Illegal (slotOf op dst src off imm) :=
  illegalWhere_of_not_reads (swapRows_subset hrow) fun _ _ _ _ h => himm (reads_swap_imm h)

/-- Both rows list the widths 16, 32 and 64 (R157). -/
theorem swap_illegal_of_other_width (dst src : BitVec 4) (off : BitVec 16) (imm : BitVec 32)
    (himm : imm ∉ [16#32, 32#32, 64#32]) :
    Illegal (slotOf 0xd4 dst src off imm) ∧ Illegal (slotOf 0xdc dst src off imm) :=
  ⟨illegal_of_width_not_mem (.head _) himm dst src off, illegal_of_width_not_mem (.tail _ (.head _)) himm dst src off⟩

/-- Settles O9: neither row lists another width, and the bytes of class BPF_ALU64 have no row. -/
theorem swapReservedForms : Obligations.SwapReservedForms :=
  ⟨swap_illegal_of_other_width, onlyListedOpcodes 0xd7 (by decide) (by decide),
    onlyListedOpcodes 0xdf (by decide) (by decide)⟩

/-! The result of a byte swap (R158). -/

/-- The result of a byte swap of the low `n` bytes towards `target` on a host of byte order `host`. -/
def swapResult (target host : Endian) (n : Nat) (v : Word) : Word :=
  if target = host then lowBytes n v else swapBytes n v

theorem State.byteSwap_eq (s : State) (target : Endian) (n : Nat) (dst : Gpr) :
    s.byteSwap target n dst =
      s.finish (s.readReg (.gpr dst) >>= fun v => .ok (s.wrote dst (swapResult target s.params.hostEndian n v))) := rfl

theorem State.byteSwap_of_some {s : State} {dst : Gpr} {v : Word} (h : s.regs.get dst = some v) (target : Endian) (n : Nat) :
    s.byteSwap target n dst = .next (s.wrote dst (swapResult target s.params.hostEndian n v)) := by
  rw [State.byteSwap_eq, State.finish_readReg_of_some (r := .gpr dst) _ h, State.finish_ok]

theorem State.byteSwap_of_none {s : State} {dst : Gpr} (h : s.regs.get dst = none) (target : Endian) (n : Nat) :
    s.byteSwap target n dst = .next (s.raise (.uninitRegister dst)) := by
  rw [State.byteSwap_eq, State.finish_readReg_of_none _ h]

/-- The low bytes of a value are the value of its low bytes in their order. -/
theorem lowBytes_eq_valueOfBytes (n : Nat) (v : Word) : lowBytes n v = valueOfBytes .little (bytesLE n v.toNat) := by
  rw [lowBytes, valueOfBytes, hostOrder, valueLE_bytesLE]

/-- The swapped bytes of a value are the value of its low bytes in the reverse order. -/
theorem swapBytes_eq_valueOfBytes (n : Nat) (v : Word) : swapBytes n v = valueOfBytes .big (bytesLE n v.toNat) := rfl

/-- Target and host settle an order, and the result is the operand's low bytes taken in that order. -/
theorem exists_swapResult_eq_valueOfBytes (target host : Endian) :
    ∃ e, ∀ n v, swapResult target host n v = valueOfBytes e (bytesLE n v.toNat) := by
  by_cases hsame : target = host
  · exact ⟨.little, fun n v => by rw [swapResult, if_pos hsame, lowBytes_eq_valueOfBytes]⟩
  · exact ⟨.big, fun n v => by rw [swapResult, if_neg hsame, swapBytes_eq_valueOfBytes]⟩

/-! The bytes of the result. -/

/-- The value of bytes is zero above them. -/
theorem valueOfBytes_byte_above (e : Endian) {bs : List Byte} (h : bs.length ≤ 8) {i : Nat} (hi : bs.length ≤ i) :
    (valueOfBytes e bs).extractLsb' (8 * i) 8 = 0 := by
  have hlt : valueLE (hostOrder e bs) < 256 ^ i := calc
    _ < 256 ^ (hostOrder e bs).length := valueLE_lt _
    _ ≤ 256 ^ i := Nat.pow_le_pow_right (by decide) (by rwa [hostOrder_length])
  rw [← ofNat_div_eq_extract, valueOfBytes_toNat e bs h, Nat.div_eq_of_lt hlt]
  rfl

theorem lowBytes_byte {n i : Nat} (hn : n ≤ 8) (hi : i < n) (v : Word) :
    (lowBytes n v).extractLsb' (8 * i) 8 = v.extractLsb' (8 * i) 8 := by
  have hlen := bytesLE_length n v.toNat
  have hbyte : some ((valueOfBytes .little (bytesLE n v.toNat)).extractLsb' (8 * i) 8) = (bytesLE n v.toNat)[i]? :=
    valueOfBytes_byte .little _ (by omega) i (by omega)
  rw [← lowBytes_eq_valueOfBytes, bytesLE_getElem? n _ i hi, ofNat_div_eq_extract] at hbyte
  exact Option.some.inj hbyte

theorem swapBytes_byte {n i : Nat} (hn : n ≤ 8) (hi : i < n) (v : Word) :
    (swapBytes n v).extractLsb' (8 * i) 8 = v.extractLsb' (8 * (n - 1 - i)) 8 := by
  have hlen := bytesLE_length n v.toNat
  have hbyte : some ((valueOfBytes .big (bytesLE n v.toNat)).extractLsb' (8 * i) 8) =
      (bytesLE n v.toNat)[(bytesLE n v.toNat).length - 1 - i]? := valueOfBytes_byte .big _ (by omega) i (by omega)
  rw [← swapBytes_eq_valueOfBytes, hlen, bytesLE_getElem? n _ _ (by omega), ofNat_div_eq_extract] at hbyte
  exact Option.some.inj hbyte

theorem swapResult_byte (target host : Endian) {n : Nat} (hn : n ≤ 8) (v : Word) (i : Nat) :
    (swapResult target host n v).extractLsb' (8 * i) 8 =
      if n ≤ i then 0 else if target = host then v.extractLsb' (8 * i) 8 else v.extractLsb' (8 * (n - 1 - i)) 8 := by
  by_cases hi : n ≤ i
  · obtain ⟨e, he⟩ := exists_swapResult_eq_valueOfBytes target host
    rw [if_pos hi, he, valueOfBytes_byte_above e (by rwa [bytesLE_length]) (by rwa [bytesLE_length])]
  · rw [if_neg hi, swapResult]
    split
    · exact lowBytes_byte hn (by omega) v
    · exact swapBytes_byte hn (by omega) v

theorem swapRule_of_exec {target : Endian} {n : Nat} {mk : Gpr → Instr} (hn : n ≤ 8 := by decide)
    (hexec : ∀ s dst, exec (mk dst) s = s.byteSwap target n dst := by exact fun _ _ => rfl) : SwapRule target n mk := by
  refine fun s dst => ⟨fun v hv => ⟨swapResult target s.params.hostEndian n v, ?_, fun i _ => ?_⟩, fun hdst => ?_⟩
  · exact (hexec s dst).trans (State.byteSwap_of_some hv target n)
  · exact swapResult_byte target s.params.hostEndian hn v i
  · exact (hexec s dst).trans (State.byteSwap_of_none hdst target n)

/-- Settles O8: each width is listed in its row of the opcode map, no other is, and the bytes of the result are the operand's
low ones in the order that target and host settle. -/
theorem byteSwaps : Obligations.ByteSwaps :=
  ⟨swapForm_of_row (.head _) rfl, swapRule_of_exec, swapForm_of_row (.head _) rfl, swapRule_of_exec,
    swapForm_of_row (.head _) rfl, swapRule_of_exec, swapForm_of_row (.tail _ (.head _)) rfl, swapRule_of_exec,
    swapForm_of_row (.tail _ (.head _)) rfl, swapRule_of_exec, swapForm_of_row (.tail _ (.head _)) rfl, swapRule_of_exec,
    swap_illegal_of_other_width⟩

/-! A byte swap applied twice. -/

/-- The bytes of the number that bytes make are those bytes. -/
theorem bytesLE_valueLE (bs : List Byte) : bytesLE bs.length (valueLE bs) = bs := by
  refine List.ext_getElem? fun i => ?_
  by_cases hi : i < bs.length
  · rw [bytesLE_getElem? _ _ i hi, valueLE_byte bs i hi]
  · rw [List.getElem?_eq_none (by simpa using hi), List.getElem?_eq_none (by simpa using hi)]

/-- The bytes of a value of bytes are those bytes in the order in which the value was made of them. -/
theorem bytesLE_valueOfBytes (e : Endian) {bs : List Byte} (h : bs.length ≤ 8) :
    bytesLE bs.length (valueOfBytes e bs).toNat = hostOrder e bs := by
  rw [valueOfBytes_toNat e bs h, ← hostOrder_length e bs, bytesLE_valueLE]

/-- Either order, taken twice, is the order at first: what remains of two byte swaps is that the bits above became zero. -/
theorem swapResult_swapResult (target host : Endian) {n : Nat} (hn : n ≤ 8) (v : Word) :
    swapResult target host n (swapResult target host n v) = lowBytes n v := by
  obtain ⟨e, he⟩ := exists_swapResult_eq_valueOfBytes target host
  have hlen := bytesLE_length n v.toNat
  have hbytes : bytesLE n (valueOfBytes e (bytesLE n v.toNat)).toNat = hostOrder e (bytesLE n v.toNat) := by
    simpa only [hlen] using bytesLE_valueOfBytes e (bs := bytesLE n v.toNat) (by omega)
  calc
    _ = valueOfBytes e (hostOrder e (bytesLE n v.toNat)) := by rw [he, he, hbytes]
    _ = lowBytes n v := valueOfBytes_bytesOfValue e n v

theorem Regs.set_set (g : Regs) (r : Gpr) (v w : Word) : (g.set r v).set r w = g.set r w :=
  Regs.ext_get fun q => by simp only [Regs.get_set]; split <;> rfl

@[simp] theorem State.wrote_params (s : State) (dst : Gpr) (v : Word) : (s.wrote dst v).params = s.params := rfl

@[simp] theorem State.wrote_regs_get_self (s : State) (dst : Gpr) (v : Word) : (s.wrote dst v).regs.get dst = some v :=
  Regs.get_set_self ..

theorem State.wrote_wrote (s : State) (dst : Gpr) (v w : Word) :
    (s.wrote dst v).wrote dst w = { s with regs := s.regs.set dst w, pc := s.pc + 2 } := by
  simp only [State.wrote, Regs.set_set, Int.add_assoc, Int.reduceAdd]

/-- Each byte swap is the one operation with its target and width, of at most 8 bytes (R151 to R156). -/
theorem exec_eq_byteSwap {mk : Gpr → Instr} {n : Nat}
    (h : (mk, n) ∈ [(Instr.le16, 2), (Instr.le32, 4), (Instr.le64, 8), (Instr.be16, 2), (Instr.be32, 4), (Instr.be64, 8)]) :
    n ≤ 8 ∧ ∃ target, ∀ s dst, exec (mk dst) s = s.byteSwap target n dst := by
  simp only [List.mem_cons, List.not_mem_nil, or_false, Prod.mk.injEq] at h
  obtain ⟨rfl, rfl⟩ | ⟨rfl, rfl⟩ | ⟨rfl, rfl⟩ | ⟨rfl, rfl⟩ | ⟨rfl, rfl⟩ | ⟨rfl, rfl⟩ := h
  · exact ⟨by decide, .little, fun _ _ => rfl⟩
  · exact ⟨by decide, .little, fun _ _ => rfl⟩
  · exact ⟨by decide, .little, fun _ _ => rfl⟩
  · exact ⟨by decide, .big, fun _ _ => rfl⟩
  · exact ⟨by decide, .big, fun _ _ => rfl⟩
  · exact ⟨by decide, .big, fun _ _ => rfl⟩

/-- Settles O10: the first byte swap leaves the host's order as it was, so the second takes the bytes in the same order. -/
theorem swapTwice : Obligations.SwapTwice := by
  intro mk n hmk s dst v hv
  obtain ⟨hn, target, hexec⟩ := exec_eq_byteSwap hmk
  refine ⟨_, (hexec s dst).trans (State.byteSwap_of_some hv target n), ?_⟩
  rw [hexec, State.byteSwap_of_some (State.wrote_regs_get_self s dst _), State.wrote_params, State.wrote_wrote,
    swapResult_swapResult target _ hn, lowBytes]

end Sys2Proof.Machine
end

section
/-! PROOFS. Jumps (R160 to R184, R188, R252): the rows that accept them, the conditions in numbers, what reading the operands
answers, and so the rules of every jump; the opcode bytes that no jump has. -/

namespace Sys2Proof.Machine

/-! Opcode bytes without a row (R188, R252). -/

theorem reserved_of_mem {bytes : List (BitVec 8)}
    (hbytes : ∀ b ∈ bytes, b ∉ instructionBytes ∧ b ∉ legacyBytes := by decide) : ∀ b ∈ bytes, Reserved b := by
  intro b hb
  obtain ⟨hinstr, hlegacy⟩ := hbytes b hb
  exact onlyListedOpcodes b hinstr hlegacy

/-- Settles O15: none of the bytes has a row in the opcode map, and the zero slot has the byte 0. -/
theorem reservedOpcodeBytes : Obligations.ReservedOpcodeBytes :=
  ⟨reserved_of_mem, reserved_of_mem, onlyListedOpcodes 0x00 (by decide) (by decide) 0 0 0 0⟩

/-! The fields that a jump's row accepts (R72, R83, R90). -/

/-- A slot whose fields a row never accepts is illegal (R91). -/
theorem illegal_of_fields {b : BitVec 8} {shape : Shape} {accepted : Fields → Prop} (hrow : (b, shape) ∈ opcodeMap)
    (hfields : ∀ {p next f i}, shape.Reads p next f i → accepted f) {dst src : BitVec 4} {off : BitVec 16}
    {imm : BitVec 32} (hbad : ¬ accepted ⟨b, dst, src, off, imm⟩) : Illegal (slotOf b dst src off imm) :=
  illegalWhere_of_not_reads hrow fun _ _ _ _ h => hbad (hfields h)

theorem reads_ja_fields {p : Params} {next : Option Slot} {mk : BitVec 16 → Instr} {f : Fields} {i : Instr}
    (h : Shape.Reads p next (.ja mk) f i) : f.dst = 0 ∧ f.src = 0 ∧ f.imm = 0 := by
  cases h with
  | ja op off => exact ⟨rfl, rfl, rfl⟩

theorem reads_jmpK_fields {p : Params} {next : Option Slot} {mk : Reg → BitVec 32 → BitVec 16 → Instr} {f : Fields}
    {i : Instr} (h : Shape.Reads p next (.jmpK mk) f i) : f.src = 0 ∧ f.dst.toNat ≤ 10 := by
  cases h with
  | jmpK op dst off imm => exact ⟨rfl, dst.num_toNat_le⟩

theorem reads_jmpX_fields {p : Params} {next : Option Slot} {mk : Reg → Reg → BitVec 16 → Instr} {f : Fields} {i : Instr}
    (h : Shape.Reads p next (.jmpX mk) f i) : f.imm = 0 ∧ f.dst.toNat ≤ 10 ∧ f.src.toNat ≤ 10 := by
  cases h with
  | jmpX op dst src off => exact ⟨rfl, dst.num_toNat_le, src.num_toNat_le⟩

/-- The forms of a conditional jump are what its two rows of the opcode map accept. -/
theorem jumpForms_of_rows {rows : List (BitVec 8 × Shape)} {opK opX : BitVec 8}
    {mkK : Reg → BitVec 32 → BitVec 16 → Instr} {mkX : Reg → Reg → BitVec 16 → Instr} (hrows : rows ⊆ opcodeMap)
    (hK : (opK, .jmpK mkK) ∈ rows := by repeat constructor) (hX : (opX, .jmpX mkX) ∈ rows := by repeat constructor) :
    JumpForms opK opX mkK mkX := by
  refine ⟨fun dst imm off => ?_, fun dst src off => ?_, fun dst src off imm hbad => ?_, fun dst src off imm hbad => ?_⟩
  · exact runsWhere_of_reads (hrows hK) fun _ _ _ => .jmpK ..
  · exact runsWhere_of_reads (hrows hX) fun _ _ _ => .jmpX ..
  · refine illegal_of_fields (hrows hK) reads_jmpK_fields ?_
    rintro ⟨hsrc, hdst⟩
    exact hbad.elim (· hsrc) hdst.not_gt
  · refine illegal_of_fields (hrows hX) reads_jmpX_fields ?_
    rintro ⟨himm, hdst, hsrc⟩
    exact hbad.elim (· himm) (Or.elim · hdst.not_gt hsrc.not_gt)

/-! The jump that is always taken (R162). -/

theorem exec_ja (off : BitVec 16) (s : State) : exec (.ja off) s = .next { s with pc := s.pc + 1 + off.toInt } :=
  congrArg _ (s.jump_eq true off)

/-- Settles O11: the row of the byte 0x05 accepts zero fields only, the other bytes have no row, and a jump changes `pc`
only. -/
theorem jumpAlways : Obligations.JumpAlways := by
  have hrow : (0x05, .ja .ja) ∈ opcodeMap := jmpRows_subset (.head _)
  refine ⟨fun off => runsWhere_of_reads hrow fun _ _ _ => .ja .., fun dst src off imm hbad => ?_,
    onlyListedOpcodes 0x0d (by decide) (by decide), onlyListedOpcodes 0x06 (by decide) (by decide),
    onlyListedOpcodes 0x0e (by decide) (by decide), fun s off => exec_ja off s⟩
  refine illegal_of_fields hrow reads_ja_fields ?_
  rintro ⟨hdst, hsrc, himm⟩
  exact hbad.elim (· hdst) (Or.elim · (· hsrc) (· himm))

/-! The conditions in numbers, at every width (R163 to R184). -/

section Conditions

variable {w : Nat}

theorem condEq_eq_equalTo (a b : BitVec w) : condEq a b = equalTo a b := by
  rw [condEq, equalTo, beq_eq_decide, decide_eq_decide]
  exact BitVec.toNat_eq

theorem condNe_eq_not_equalTo (a b : BitVec w) : condNe a b = !equalTo a b :=
  congrArg (!·) (condEq_eq_equalTo a b)

/-- A conjunction is zero where no bit is set in both operands. -/
theorem and_eq_zero_iff (a b : BitVec w) : a &&& b = 0#w ↔ ∀ i : Fin w, ¬ (a.getLsbD i && b.getLsbD i) = true := by
  refine ⟨fun h i => ?_, fun h => BitVec.eq_of_getLsbD_eq fun i hi => ?_⟩
  · rw [← BitVec.getLsbD_and, h, BitVec.getLsbD_zero]
    decide
  · rw [BitVec.getLsbD_and, BitVec.getLsbD_zero]
    exact Bool.eq_false_of_not_eq_true (h ⟨i, hi⟩)

theorem condSet_eq_commonBit (a b : BitVec w) : condSet a b = commonBit a b := by
  rw [Bool.eq_iff_iff, condSet, commonBit, bne_iff_ne, Ne, and_eq_zero_iff, List.any_eq_true]
  simp only [not_forall, not_not, List.mem_finRange, true_and]

theorem condLt_eq_below (a b : BitVec w) : condLt a b = below a b := rfl

theorem condGt_eq_below (a b : BitVec w) : condGt a b = below b a := rfl

theorem condLe_eq_not_below (a b : BitVec w) : condLe a b = !below b a := by
  rw [condLe, below, ← decide_not, BitVec.ule, decide_eq_decide, Nat.not_lt]

theorem condGe_eq_not_below (a b : BitVec w) : condGe a b = !below a b := condLe_eq_not_below b a

theorem condSlt_eq_signedBelow (a b : BitVec w) : condSlt a b = signedBelow a b := rfl

theorem condSgt_eq_signedBelow (a b : BitVec w) : condSgt a b = signedBelow b a := rfl

theorem condSle_eq_not_signedBelow (a b : BitVec w) : condSle a b = !signedBelow b a := by
  rw [condSle, signedBelow, ← decide_not, BitVec.sle, decide_eq_decide, Int.not_lt]

theorem condSge_eq_not_signedBelow (a b : BitVec w) : condSge a b = !signedBelow a b := condSle_eq_not_signedBelow b a

end Conditions

/-! Instructions that compare both operands. -/

/-- Both forms of an instruction read `dst`, then the source operand, and jump where `cK` or `cX` holds of the operands
(R160, R161, R265, R271): the shape of `Jump64Rule` and `Jump32Rule`. -/
def ComparesBothRule (mkK : Reg → BitVec 32 → BitVec 16 → Instr) (mkX : Reg → Reg → BitVec 16 → Instr)
    (cK : Word → BitVec 32 → Bool) (cX : Word → Word → Bool) : Prop :=
  ∀ s off,
    (∀ dst a, s.reg dst = some a →
      (∀ imm, exec (mkK dst imm off) s = .next (s.jumped (cK a imm) off)) ∧
      (∀ src b, s.reg src = some b → exec (mkX dst src off) s = .next (s.jumped (cX a b) off)) ∧
      ∀ src, s.regs.get src = none → exec (mkX dst (.gpr src) off) s = .next (s.raise (.uninitRegister src))) ∧
    ∀ dst, s.regs.get dst = none →
      (∀ imm, exec (mkK (.gpr dst) imm off) s = .next (s.raise (.uninitRegister dst))) ∧
      ∀ src, exec (mkX (.gpr dst) src off) s = .next (s.raise (.uninitRegister dst))

theorem comparesBothRule_of_exec {mkK : Reg → BitVec 32 → BitVec 16 → Instr} {mkX : Reg → Reg → BitVec 16 → Instr}
    {cK : Word → BitVec 32 → Bool} {cX : Word → Word → Bool}
    (hK : ∀ s dst imm off, exec (mkK dst imm off) s =
      s.finish (s.readReg dst >>= fun a => .ok (s.jumped (cK a imm) off)))
    (hX : ∀ s dst src off, exec (mkX dst src off) s =
      s.finish (s.readReg dst >>= fun a => s.readReg src >>= fun b => .ok (s.jumped (cX a b) off))) :
    ComparesBothRule mkK mkX cK cX := by
  refine fun s off => ⟨fun dst a ha => ⟨fun imm => ?_, fun src b hb => ?_, fun src hsrc => ?_⟩,
    fun dst hdst => ⟨fun imm => ?_, fun src => ?_⟩⟩
  · rw [hK, State.finish_readReg_of_some _ ha, State.finish_ok]
  · rw [hX, State.finish_readReg_of_some _ ha, State.finish_readReg_of_some _ hb, State.finish_ok]
  · rw [hX, State.finish_readReg_of_some _ ha, State.finish_readReg_of_none _ hsrc]
  · rw [hK, State.finish_readReg_of_none _ hdst]
  · rw [hX, State.finish_readReg_of_none _ hdst]

theorem State.jump_eq_jumped (s : State) (taken : Bool) (off : BitVec 16) : s.jump taken off = s.jumped taken off :=
  s.jump_eq taken off

theorem State.jump64_imm (s : State) (c : Word → Word → Bool) (dst : Reg) (imm : BitVec 32) (off : BitVec 16) :
    s.jump64 c dst (.imm imm) off =
      s.finish (s.readReg dst >>= fun a => .ok (s.jumped (c a (immediate64 imm)) off)) := by
  simp only [← State.jump_eq_jumped, ← sext64_eq_immediate64]
  rfl

theorem State.jump64_reg (s : State) (c : Word → Word → Bool) (dst src : Reg) (off : BitVec 16) :
    s.jump64 c dst (.reg src) off =
      s.finish (s.readReg dst >>= fun a => s.readReg src >>= fun b => .ok (s.jumped (c a b) off)) := by
  simp only [← State.jump_eq_jumped]
  rfl

theorem State.jump32_imm (s : State) (c : BitVec 32 → BitVec 32 → Bool) (dst : Reg) (imm : BitVec 32)
    (off : BitVec 16) :
    s.jump32 c dst (.imm imm) off = s.finish (s.readReg dst >>= fun a => .ok (s.jumped (c (half a) imm) off)) := by
  rw [State.jump32, State.readLow32_bind]
  simp only [State.jump_eq_jumped]
  rfl

theorem State.jump32_reg (s : State) (c : BitVec 32 → BitVec 32 → Bool) (dst src : Reg) (off : BitVec 16) :
    s.jump32 c dst (.reg src) off =
      s.finish (s.readReg dst >>= fun a => s.readReg src >>= fun b => .ok (s.jumped (c (half a) (half b)) off)) := by
  rw [State.jump32, State.readLow32_bind]
  simp only [State.source32_reg_bind, State.jump_eq_jumped]
  rfl

theorem jump64Rule_of_exec {mkK : Reg → BitVec 32 → BitVec 16 → Instr} {mkX : Reg → Reg → BitVec 16 → Instr}
    {c r : Word → Word → Bool} (hc : ∀ a b, c a b = r a b)
    (hK : ∀ s dst imm off, exec (mkK dst imm off) s = s.jump64 c dst (.imm imm) off := by intros; rfl)
    (hX : ∀ s dst src off, exec (mkX dst src off) s = s.jump64 c dst (.reg src) off := by intros; rfl) :
    Jump64Rule mkK mkX r := by
  obtain rfl : c = r := funext fun a => funext (hc a)
  exact comparesBothRule_of_exec (fun s dst imm off => (hK s dst imm off).trans (s.jump64_imm c dst imm off))
    (fun s dst src off => (hX s dst src off).trans (s.jump64_reg c dst src off))

theorem jump32Rule_of_exec {mkK : Reg → BitVec 32 → BitVec 16 → Instr} {mkX : Reg → Reg → BitVec 16 → Instr}
    {c r : BitVec 32 → BitVec 32 → Bool} (hc : ∀ a b, c a b = r a b)
    (hK : ∀ s dst imm off, exec (mkK dst imm off) s = s.jump32 c dst (.imm imm) off := by intros; rfl)
    (hX : ∀ s dst src off, exec (mkX dst src off) s = s.jump32 c dst (.reg src) off := by intros; rfl) :
    Jump32Rule mkK mkX r := by
  obtain rfl : c = r := funext fun a => funext (hc a)
  exact comparesBothRule_of_exec (fun s dst imm off => (hK s dst imm off).trans (s.jump32_imm c dst imm off))
    (fun s dst src off => (hX s dst src off).trans (s.jump32_reg c dst src off))

/-! The conditional jumps. -/

/-- Settles O12: both forms are rows of the opcode map, and the conditions are equality in numbers and a common bit. -/
theorem jumpsOnEqualityAndBits : Obligations.JumpsOnEqualityAndBits :=
  ⟨jumpForms_of_rows jmpRows_subset, jump64Rule_of_exec condEq_eq_equalTo,
    jumpForms_of_rows jmp32Rows_subset, jump32Rule_of_exec condEq_eq_equalTo,
    jumpForms_of_rows jmpRows_subset, jump64Rule_of_exec condNe_eq_not_equalTo,
    jumpForms_of_rows jmp32Rows_subset, jump32Rule_of_exec condNe_eq_not_equalTo,
    jumpForms_of_rows jmpRows_subset, jump64Rule_of_exec condSet_eq_commonBit,
    jumpForms_of_rows jmp32Rows_subset, jump32Rule_of_exec condSet_eq_commonBit⟩

/-- Settles O13: both forms are rows of the opcode map, and the conditions are the order of unsigned numbers. -/
theorem unsignedJumps : Obligations.UnsignedJumps :=
  ⟨jumpForms_of_rows jmpRows_subset, jump64Rule_of_exec condGt_eq_below,
    jumpForms_of_rows jmp32Rows_subset, jump32Rule_of_exec condGt_eq_below,
    jumpForms_of_rows jmpRows_subset, jump64Rule_of_exec condGe_eq_not_below,
    jumpForms_of_rows jmp32Rows_subset, jump32Rule_of_exec condGe_eq_not_below,
    jumpForms_of_rows jmpRows_subset, jump64Rule_of_exec condLt_eq_below,
    jumpForms_of_rows jmp32Rows_subset, jump32Rule_of_exec condLt_eq_below,
    jumpForms_of_rows jmpRows_subset, jump64Rule_of_exec condLe_eq_not_below,
    jumpForms_of_rows jmp32Rows_subset, jump32Rule_of_exec condLe_eq_not_below⟩

/-- Settles O14: both forms are rows of the opcode map, and the conditions are the order of two's complement numbers. -/
theorem signedJumps : Obligations.SignedJumps :=
  ⟨jumpForms_of_rows jmpRows_subset, jump64Rule_of_exec condSgt_eq_signedBelow,
    jumpForms_of_rows jmp32Rows_subset, jump32Rule_of_exec condSgt_eq_signedBelow,
    jumpForms_of_rows jmpRows_subset, jump64Rule_of_exec condSge_eq_not_signedBelow,
    jumpForms_of_rows jmp32Rows_subset, jump32Rule_of_exec condSge_eq_not_signedBelow,
    jumpForms_of_rows jmpRows_subset, jump64Rule_of_exec condSlt_eq_signedBelow,
    jumpForms_of_rows jmp32Rows_subset, jump32Rule_of_exec condSlt_eq_signedBelow,
    jumpForms_of_rows jmpRows_subset, jump64Rule_of_exec condSle_eq_not_signedBelow,
    jumpForms_of_rows jmp32Rows_subset, jump32Rule_of_exec condSle_eq_not_signedBelow⟩

end Sys2Proof.Machine
end

section
/-! PROOFS. Call and exit (R185 to R187, R268, R280): the slots that run as them, what a call answers case by case, and what
it leaves behind. -/

namespace Sys2Proof.Machine

/-! The fields that the rows of call and exit accept (R72, R90). -/

theorem reads_call_fields {p : Params} {next : Option Slot} {mk : BitVec 32 → Instr} {f : Fields} {i : Instr}
    (h : Shape.Reads p next (.call mk) f i) : f.dst = 0 ∧ f.src = 0 ∧ f.off = 0 := by
  cases h with
  | call op imm => exact ⟨rfl, rfl, rfl⟩

theorem reads_exit_fields {p : Params} {next : Option Slot} {mk : Instr} {f : Fields} {i : Instr}
    (h : Shape.Reads p next (.exit mk) f i) : f.dst = 0 ∧ f.src = 0 ∧ f.off = 0 ∧ f.imm = 0 := by
  cases h with
  | exit op => exact ⟨rfl, rfl, rfl, rfl⟩

theorem call_row : (0x85, .call .call) ∈ opcodeMap := jmpRows_subset (by repeat constructor)

theorem exit_row : (0x95, .exit .exit) ∈ opcodeMap := jmpRows_subset (by repeat constructor)

theorem runs_call (imm : BitVec 32) : Runs (slotOf 0x85 0 0 0 imm) (.call imm) :=
  runsWhere_of_reads call_row fun _ _ _ => .call ..

theorem runs_exit : Runs (slotOf 0x95 0 0 0 0) .exit :=
  runsWhere_of_reads exit_row fun _ _ _ => .exit ..

theorem illegal_call_of_fields (dst src : BitVec 4) (off : BitVec 16) (imm : BitVec 32)
    (hbad : dst ≠ 0 ∨ src ≠ 0 ∨ off ≠ 0) : Illegal (slotOf 0x85 dst src off imm) := by
  refine illegal_of_fields call_row reads_call_fields ?_
  rintro ⟨hdst, hsrc, hoff⟩
  exact hbad.elim (· hdst) (Or.elim · (· hsrc) (· hoff))

theorem illegal_exit_of_fields (dst src : BitVec 4) (off : BitVec 16) (imm : BitVec 32)
    (hbad : dst ≠ 0 ∨ src ≠ 0 ∨ off ≠ 0 ∨ imm ≠ 0) : Illegal (slotOf 0x95 dst src off imm) := by
  refine illegal_of_fields exit_row reads_exit_fields ?_
  rintro ⟨hdst, hsrc, hoff, himm⟩
  exact hbad.elim (· hdst) (Or.elim · (· hsrc) (Or.elim · (· hoff) (· himm)))

/-! The arguments of a call (R185, R271). -/

theorem argumentRegisters_take_getElem? {k : Fin 6} {j : Nat} (hj : j < k.val) :
    (argumentRegisters.take k.val)[j]? = [Gpr.r1, .r2, .r3, .r4, .r5][j]? :=
  List.getElem?_take_of_lt hj

theorem argumentRegisters_take_length (k : Fin 6) : (argumentRegisters.take k.val).length = k.val :=
  List.length_take_of_le (Nat.le_of_lt_succ k.isLt)

/-- Every index into the argument registers that a function takes is below their number. -/
theorem lt_of_argumentRegisters_take_getElem? {k : Fin 6} {j : Nat} {r : Gpr}
    (h : (argumentRegisters.take k.val)[j]? = some r) : j < k.val := by
  have hj := (List.getElem?_eq_some_iff.mp h).1
  rwa [argumentRegisters_take_length] at hj

theorem readArgs_of_argumentsOf {s : State} {k : Fin 6} {args : List Word} (h : ArgumentsOf s k args) :
    s.readArgs (argumentRegisters.take k.val) = .ok args := by
  obtain ⟨hlen, hregs⟩ := h
  refine s.readArgs_of_some _ args (hlen.trans (argumentRegisters_take_length k).symm) fun j r hr => ?_
  have hj := lt_of_argumentRegisters_take_getElem? hr
  exact hregs j r hj ((argumentRegisters_take_getElem? hj).symm.trans hr)

theorem readArgs_of_firstMissingArgument {s : State} {k : Fin 6} {r : Gpr} (h : FirstMissingArgument s k r) :
    s.readArgs (argumentRegisters.take k.val) = .error (.uninitRegister r) := by
  obtain ⟨j, hj, hr, hnone, hbefore⟩ := h
  refine s.readArgs_of_none _ r j ((argumentRegisters_take_getElem? hj).trans hr) hnone fun i g hi hg => ?_
  exact hbefore i g hi ((argumentRegisters_take_getElem? (hi.trans hj)).symm.trans hg)

/-! What a call answers, case by case in the order of its checks (R185, R268, R271). -/

section Answers

variable {s : State} {imm : BitVec 32}

theorem exec_call_of_no_helper (hhelper : helperOf s.params.helpers imm = none) :
    exec (.call imm) s = .next (s.raise (.callFault imm.toNat)) := by
  simp only [exec, execCall, hhelper, State.finish_error]

theorem exec_call_of_readArgs_error {h : Helper} {f : RaisedFault} (hhelper : helperOf s.params.helpers imm = some h)
    (hargs : s.readArgs (argumentRegisters.take h.arity.val) = .error f) : exec (.call imm) s = .next (s.raise f) := by
  simp only [exec, execCall, hhelper, hargs, except_error_bind, State.finish_error]

theorem exec_call_of_no_answer {h : Helper} {args : List Word} (hhelper : helperOf s.params.helpers imm = some h)
    (hargs : s.readArgs (argumentRegisters.take h.arity.val) = .ok args) (hnone : s.chooseAnswer h args = none) :
    exec (.call imm) s = .next (s.raise (.callFault imm.toNat)) := by
  simp only [exec, execCall, hhelper, hargs, except_ok_bind, hnone, State.finish_error]

theorem exec_call_of_answer {h : Helper} {args : List Word} {answer : Word × List Host.Cell} {u : State}
    (hhelper : helperOf s.params.helpers imm = some h)
    (hargs : s.readArgs (argumentRegisters.take h.arity.val) = .ok args)
    (hanswer : s.chooseAnswer h args = some (answer, u)) :
    exec (.call imm) s = .next (u.afterCall args answer.1 answer.2).nextSlot := by
  simp only [exec, execCall, hhelper, hargs, except_ok_bind, hanswer, except_pure, State.finish_ok]

/-- The answers that a function allows are numbered, and a call from `s` under any source of choices returns the one that the
next choice names (R185; log 8). -/
theorem exec_call_of_allowed {h : Helper} {args : List Word} (hhelper : helperOf s.params.helpers imm = some h)
    (hargs : ArgumentsOf s h.arity args) (hallows : ∃ ret after, CallAllows h args s.mem ret after) :
    ∃ g : Nat → Word × List Host.Cell, (∀ ret after, CallAllows h args s.mem ret after ↔ ∃ n, g n = (ret, after)) ∧
      ∀ c, ∃ t, exec (.call imm) { s with callChoices := c } = .next t ∧
        Returned { s with callChoices := c } t args (g (c.next Config.callChoice).1).1
          (g (c.next Config.callChoice).1).2 := by
  obtain ⟨g, hg, hchoose⟩ := s.chooseAnswer_of_some h args hallows
  refine ⟨g, hg, fun c => ⟨_, exec_call_of_answer hhelper ?_ (hchoose c), ?_⟩⟩
  · exact readArgs_of_argumentsOf (s := { s with callChoices := c }) hargs
  · exact State.afterCall_returned { s with callChoices := c } args _ _

end Answers

/-- Settles O17: the row of the byte 0x85 accepts zero fields only, and the cases are those of the checks of a call, with the
numbered answers of its function at the end. -/
theorem callRunsAFunction : Obligations.CallRunsAFunction := by
  refine ⟨runs_call, illegal_call_of_fields, onlyListedOpcodes 0x8d (by decide) (by decide),
    onlyListedOpcodes 0x86 (by decide) (by decide), onlyListedOpcodes 0x8e (by decide) (by decide), fun s imm =>
    ⟨fun hnone => exec_call_of_no_helper (helperOf_none _ imm hnone), fun before h later hhelpers hnumber hfirst => ?_⟩⟩
  have hhelper : helperOf s.params.helpers imm = some h := by
    rw [hhelpers]
    exact helperOf_append before h later imm hnumber hfirst
  refine ⟨fun r hr => exec_call_of_readArgs_error hhelper (readArgs_of_firstMissingArgument hr), fun args hargs =>
    ⟨fun hnone => ?_, fun hallows => ?_, fun ret after hallows => ?_⟩⟩
  · exact exec_call_of_no_answer hhelper (readArgs_of_argumentsOf hargs) (s.chooseAnswer_of_none h args hnone)
  · obtain ⟨g, hg, hexec⟩ := exec_call_of_allowed hhelper hargs hallows
    obtain ⟨t, ht, hreturned⟩ := hexec s.callChoices
    exact ⟨_, _, t, (hg _ _).mpr ⟨_, rfl⟩, ht, hreturned⟩
  · obtain ⟨g, hg, hexec⟩ := exec_call_of_allowed hhelper hargs ⟨ret, after, hallows⟩
    obtain ⟨n, hn⟩ := (hg ret after).mp hallows
    refine ⟨n, fun rest => ?_⟩
    obtain ⟨t, ht, hreturned⟩ := hexec { s.callChoices with given := n :: rest }
    exact ⟨t, ht, by simpa only [Choices.next, hn] using hreturned⟩

/-! What a call leaves behind (R187). -/

/-- A chosen answer takes one choice from the source of choices (R185; log 8). -/
theorem State.chooseAnswer_state {s u : State} {h : Helper} {args : List Word} {answer : Word × List Host.Cell}
    (hanswer : s.chooseAnswer h args = some (answer, u)) :
    u = { s with callChoices := (s.callChoices.next Config.callChoice).2 } := by
  simp only [State.chooseAnswer] at hanswer
  split at hanswer
  · cases hanswer
  · cases hanswer
    rfl

/-- A call whose run goes on found its function and its arguments, and the function returned (R185). -/
theorem exists_returned_of_exec_call {s t : State} {imm : BitVec 32} (hexec : exec (.call imm) s = .next t)
    (hrunning : t.status = .running) :
    ∃ h args ret after, helperOf s.params.helpers imm = some h ∧
      s.readArgs (argumentRegisters.take h.arity.val) = .ok args ∧ Returned s t args ret after := by
  rcases execCall_cases hexec with ⟨f, rfl⟩ | ⟨h, args, ret, after, u, hhelper, hargs, hanswer, rfl⟩
  · cases hrunning
  · refine ⟨h, args, ret, after, hhelper, hargs, ?_⟩
    rw [State.chooseAnswer_state hanswer]
    exact s.afterCall_returned args ret after

/-- What a returned function leaves alone, and where the run goes on (R185, R187). -/
theorem Returned.kept {s t : State} {args : List Word} {ret : Word} {after : List Host.Cell}
    (h : Returned s t args ret after) :
    t.fp = s.fp ∧ t.pc = s.pc + 1 ∧ t.program = s.program ∧ t.params = s.params ∧ t.envMoves = s.envMoves := by
  rw [h.1]
  exact ⟨rfl, rfl, rfl, rfl, rfl⟩

theorem Returned.regs {s t : State} {args : List Word} {ret : Word} {after : List Host.Cell}
    (h : Returned s t args ret after) : t.regs = s.regs.afterCall ret := congrArg State.regs h.1

/-- A called function takes the values of the argument registers away (R187). -/
theorem Regs.get_afterCall_argument {r : Gpr} (h : r ∈ argumentRegisters) (g : Regs) (ret : Word) :
    (g.afterCall ret).get r = none := by
  cases r
  case r1 | r2 | r3 | r4 | r5 => rfl
  all_goals exact absurd h (by decide)

/-- R6 to R10 survive a call (R187, R22). -/
theorem Returned.reg_preserved {s t : State} {args : List Word} {ret : Word} {after : List Host.Cell}
    (h : Returned s t args ret after) {r : Reg} (hr : r ∈ [Reg.gpr .r6, .gpr .r7, .gpr .r8, .gpr .r9, .r10]) :
    t.reg r = s.reg r := by
  cases r with
  | r10 => exact congrArg some h.kept.1
  | gpr r =>
    rw [State.reg_gpr, State.reg_gpr, h.regs]
    refine Regs.get_afterCall ?_ s.regs ret
    revert hr
    cases r <;> decide

/-- Settles O18: the function returned, which fixes the registers, and the arguments that the statement names are the ones
that it was called with. -/
theorem callingConvention : Obligations.CallingConvention := by
  intro s imm t _ hexec hrunning
  obtain ⟨h, args, ret, after, hhelper, hargs, hreturned⟩ := exists_returned_of_exec_call hexec hrunning
  obtain ⟨-, hpc, hprogram, hparams, hmoves⟩ := hreturned.kept
  refine ⟨?_, fun r hr => ?_, fun r hr => hreturned.reg_preserved hr, hpc, hprogram, hparams, hmoves,
    fun before h' later args' hhelpers hnumber hfirst hargs' => ?_⟩
  · rw [State.reg_gpr, hreturned.regs]
    exact Option.some_ne_none ret
  · rw [State.reg_gpr, hreturned.regs]
    exact Regs.get_afterCall_argument hr s.regs ret
  · rw [hhelpers, helperOf_append before h' later imm hnumber hfirst] at hhelper
    cases hhelper
    rw [readArgs_of_argumentsOf hargs'] at hargs
    cases hargs
    obtain ⟨-, -, hstack⟩ := hreturned
    exact fun houtside x => hstack x houtside

/-! Exit (R186, R280). -/

theorem exec_exit_of_some {s : State} {v : Word} (h : s.regs.get .r0 = some v) :
    exec .exit s = .next { s with status := .exited v } :=
  State.finish_readReg_of_some (r := .gpr .r0) _ h

theorem exec_exit_of_none {s : State} (h : s.regs.get .r0 = none) :
    exec .exit s = .next (s.raise (.uninitRegister .r0)) :=
  State.finish_readReg_of_none _ h

/-- Settles O19: the row of the byte 0x95 accepts the slot whose other fields are zero, and exit ends the run with what R0
holds. -/
theorem exitEndsTheRun : Obligations.ExitEndsTheRun :=
  ⟨runs_exit, illegal_exit_of_fields, onlyListedOpcodes 0x9d (by decide) (by decide),
    onlyListedOpcodes 0x96 (by decide) (by decide), onlyListedOpcodes 0x9e (by decide) (by decide),
    fun _ => ⟨fun _ hv => ⟨exec_exit_of_some hv, step_of_not_running (by simp)⟩, exec_exit_of_none⟩⟩

end Sys2Proof.Machine
end

section
/-! PROOFS. Regular loads and stores (R200 to R213): the rows that accept them, the bytes of an access in numbers (R45, R46),
what its checks answer (R47, R49), and a misaligned store byte by byte (R51, R55). -/

namespace Sys2Proof.Machine

/-! The fields that the rows of loads and stores accept (R22, R72, R83, R90). -/

theorem reads_ldx_fields {p : Params} {next : Option Slot} {mk : Gpr → Reg → BitVec 16 → Instr} {f : Fields} {i : Instr}
    (h : Shape.Reads p next (.ldx mk) f i) : f.imm = 0 ∧ f.dst.toNat < 10 ∧ f.src.toNat ≤ 10 := by
  cases h with
  | ldx op dst src off => exact ⟨rfl, dst.num_toNat_lt, src.num_toNat_le⟩

theorem reads_st_fields {p : Params} {next : Option Slot} {mk : Reg → BitVec 16 → BitVec 32 → Instr} {f : Fields}
    {i : Instr} (h : Shape.Reads p next (.st mk) f i) : f.src = 0 ∧ f.dst.toNat ≤ 10 := by
  cases h with
  | st op dst off imm => exact ⟨rfl, dst.num_toNat_le⟩

theorem reads_stx_fields {p : Params} {next : Option Slot} {mk : Reg → Reg → BitVec 16 → Instr} {f : Fields} {i : Instr}
    (h : Shape.Reads p next (.stx mk) f i) : f.imm = 0 ∧ f.dst.toNat ≤ 10 ∧ f.src.toNat ≤ 10 := by
  cases h with
  | stx op dst src off => exact ⟨rfl, dst.num_toNat_le, src.num_toNat_le⟩

theorem loadForm_of_row {op : BitVec 8} {mk : Gpr → Reg → BitVec 16 → Instr}
    (hrow : (op, .ldx mk) ∈ memRows := by repeat constructor) : LoadForm op mk := by
  refine ⟨fun dst src off => runsWhere_of_reads (memRows_subset hrow) fun _ _ _ => .ldx .., fun dst src off imm hbad => ?_⟩
  refine illegal_of_fields (memRows_subset hrow) reads_ldx_fields ?_
  rintro ⟨himm, hdst, hsrc⟩
  exact hbad.elim (· himm) (Or.elim · hdst.not_ge hsrc.not_gt)

theorem storeImmForm_of_row {op : BitVec 8} {mk : Reg → BitVec 16 → BitVec 32 → Instr}
    (hrow : (op, .st mk) ∈ memRows := by repeat constructor) : StoreImmForm op mk := by
  refine ⟨fun dst off imm => runsWhere_of_reads (memRows_subset hrow) fun _ _ _ => .st .., fun dst src off imm hbad => ?_⟩
  refine illegal_of_fields (memRows_subset hrow) reads_st_fields ?_
  rintro ⟨hsrc, hdst⟩
  exact hbad.elim (· hsrc) hdst.not_gt

theorem storeRegForm_of_row {op : BitVec 8} {mk : Reg → Reg → BitVec 16 → Instr}
    (hrow : (op, .stx mk) ∈ memRows := by repeat constructor) : StoreRegForm op mk := by
  refine ⟨fun dst src off => runsWhere_of_reads (memRows_subset hrow) fun _ _ _ => .stx .., fun dst src off imm hbad => ?_⟩
  refine illegal_of_fields (memRows_subset hrow) reads_stx_fields ?_
  rintro ⟨himm, hdst, hsrc⟩
  exact hbad.elim (· himm) (Or.elim · hdst.not_gt hsrc.not_gt)

/-! The bytes of an access in numbers (R45, R46). -/

theorem valueLE_eq_foldr (bs : List Byte) : valueLE bs = bs.foldr (fun b v => b.toNat + 256 * v) 0 := by
  induction bs with
  | nil => rfl
  | cons b bs ih => rw [valueLE, ih, List.foldr_cons]

theorem numberOf_eq_valueLE (e : Endian) (bs : List Byte) : numberOf e bs = valueLE (hostOrder e bs) := by
  cases e with
  | little => exact (valueLE_eq_foldr bs).symm
  | big => simp only [numberOf, hostOrder, valueLE_eq_foldr, List.foldr_reverse, Nat.add_comm]

theorem valueOfBytes_eq_numberOf (e : Endian) (bs : List Byte) :
    valueOfBytes e bs = BitVec.ofNat 64 (numberOf e bs) := by
  rw [valueOfBytes, numberOf_eq_valueLE]

theorem bytesOfValue_getElem?_eq_byteOf (e : Endian) {n i : Nat} (v : Word) (hi : i < n) :
    (bytesOfValue e n v)[i]? = some (byteOf e n v.toNat i) := by
  rw [bytesOfValue_getElem? e n v i hi, ← ofNat_div_eq_extract]
  cases e <;> rfl

/-! The checks of an access (R47, R49, R244). -/

/-- An instruction that raises what the checks of its access raise has the MemFaults of that access (R267). -/
theorem accessFaults_of_checkAccess {i : Instr} {s : State} {ea : Word} {n : Nat} {k : AccessKind} {strict : Bool}
    (hstrict : k = .atomic ∨ s.params.alignStrict = true → strict = true)
    (hexec : ∀ f, s.checkAccess ea n k strict = .error f → exec i s = .next (s.raise f)) : AccessFaults i s ea n k :=
  ⟨fun hp => hexec _ (State.checkAccess_of_not_permitted hp),
    fun hp hmis hmust => hexec _ (State.checkAccess_of_misaligned hp (hstrict hmust) hmis)⟩

/-- An allowed regular access passes its checks. -/
theorem State.Allowed.checkAccess_eq_ok {s : State} {ea : Word} {n : Nat} {k : AccessKind}
    (h : s.Allowed ea.toNat n k) : s.checkAccess ea n k s.params.alignStrict = .ok () := by
  obtain ⟨hp, haligned⟩ := h
  refine State.checkAccess_of_allowed hp fun hstrict => haligned.resolve_right ?_
  simp [hstrict]

/-! Loads (R201 to R204). -/

theorem State.memRead_of_checkAccess_error {s : State} {ea : Word} {n : Nat} {f : RaisedFault}
    (h : s.checkAccess ea n .read s.params.alignStrict = .error f) : s.memRead ea n = .error f := by
  rw [State.memRead, h, except_error_bind]

/-- An allowed load gives the number of the bytes that it finds (R45, R51). -/
theorem State.memRead_of_finds {s : State} {ea : Word} {n : Nat} {bs : List Byte} (h : s.Allowed ea.toNat n .read)
    (hfinds : s.Finds ea.toNat n bs) :
    s.memRead ea n =
      .ok (BitVec.ofNat 64 (numberOf s.params.hostEndian bs), s.atByte ea.toNat n (n - 1)) := by
  obtain ⟨hlen, hbytes⟩ := hfinds
  rw [State.memRead, h.checkAccess_eq_ok, except_ok_bind, ← valueOfBytes_eq_numberOf]
  by_cases ha : ea.toNat % n = 0
  · simp only [State.atByte, if_pos ha] at hbytes ⊢
    rw [if_pos (aligned_eq_true.mpr ha), State.readBytes_eq_ok.mpr ⟨hlen, hbytes⟩]
    rfl
  · simp only [State.atByte, if_neg ha] at hbytes ⊢
    rw [if_neg (mt aligned_eq_true.mp ha), State.readTorn_eq_ok.mpr ⟨hlen, hbytes, rfl⟩]
    rfl

/-- An allowed load raises UninitRead of the lowest byte that it misses (R51, R265). -/
theorem State.memRead_of_misses {s : State} {ea : Word} {n x : Nat} (h : s.Allowed ea.toNat n .read)
    (hmisses : s.Misses ea.toNat n x) : s.memRead ea n = .error (.uninitByte x) := by
  obtain ⟨i, hi, rfl, hnone, hbelow⟩ := hmisses
  rw [State.memRead, h.checkAccess_eq_ok, except_ok_bind]
  by_cases ha : ea.toNat % n = 0
  · simp only [State.atByte, if_pos ha] at hnone hbelow
    rw [if_pos (aligned_eq_true.mpr ha), State.readBytes_eq_error.mpr ⟨i, hi, rfl, hnone, hbelow⟩, except_error_bind]
  · simp only [State.atByte, if_neg ha] at hnone hbelow
    rw [if_neg (mt aligned_eq_true.mp ha), State.readTorn_eq_error.mpr ⟨i, hi, rfl, hnone, hbelow⟩, except_error_bind]

theorem State.load_eq (s : State) (n : Nat) (dst : Gpr) (src : Reg) (off : BitVec 16) :
    s.load n dst src off = s.finish (s.readReg src >>= fun base =>
      s.memRead (effectiveAddress base off) n >>= fun r => .ok (r.2.wrote dst r.1)) := rfl

theorem loadRule_of_exec {n : Nat} {mk : Gpr → Reg → BitVec 16 → Instr}
    (hexec : ∀ s dst src off, exec (mk dst src off) s = s.load n dst src off := by intros; rfl) : LoadRule n mk := by
  refine fun s dst off => ⟨fun src hsrc => ?_, fun src base hbase => ?_⟩
  · rw [hexec, State.load_eq, State.finish_readReg_of_none _ hsrc]
  · intro ea
    have hload : exec (mk dst src off) s = s.finish (s.memRead ea n >>= fun r => .ok (r.2.wrote dst r.1)) := by
      rw [hexec, State.load_eq, State.finish_readReg_of_some _ hbase]
    rw [hload]
    refine ⟨accessFaults_of_checkAccess (strict := s.params.alignStrict) (by simp) fun f hf => ?_, fun hallowed =>
      ⟨fun x hmisses => ?_, fun bs hfinds => ?_⟩⟩
    · rw [hload, State.memRead_of_checkAccess_error hf, except_error_bind, State.finish_error]
    · rw [State.memRead_of_misses hallowed hmisses, except_error_bind, State.finish_error]
    · rw [State.memRead_of_finds hallowed hfinds, except_ok_bind, State.finish_ok]

/-- Settles O20: each load is a row of the opcode map, its checks come first, and its bytes are found or missed each in the
state where its turn comes. -/
theorem loads : Obligations.Loads :=
  ⟨loadForm_of_row, loadRule_of_exec, loadForm_of_row, loadRule_of_exec, loadForm_of_row, loadRule_of_exec,
    loadForm_of_row, loadRule_of_exec⟩

/-! A misaligned store byte by byte (R51, R55). -/

/-- The state in which byte `i` of a misaligned store of the bytes `f` at `a` is set: the bytes before it are set, and other
agents moved after each. -/
def State.tornAt (s : State) (a : Nat) (f : Nat → Byte) : Nat → State
  | 0 => s
  | i + 1 => ((s.tornAt a f i).setByte (a + i) (f i)).envMove

/-- The same states, counted from the second byte on. -/
theorem State.tornAt_succ (s : State) (a : Nat) (f : Nat → Byte) (i : Nat) :
    s.tornAt a f (i + 1) = (s.setByte a (f 0)).envMove.tornAt (a + 1) (fun j => f (j + 1)) i := by
  induction i with
  | zero => rfl
  | succ i ih => rw [State.tornAt, ih, State.tornAt, Nat.add_right_comm, Nat.add_assoc a]

/-- A misaligned store ends with setting its last byte, after which no other agent moves. -/
theorem State.writeTorn_eq_setByte_tornAt {s : State} {a n : Nat} {f : Nat → Byte} {bs : List Byte}
    (hlen : bs.length = n + 1) (hbytes : ∀ i, i < n + 1 → bs[i]? = some (f i)) :
    s.writeTorn a bs = (s.tornAt a f n).setByte (a + n) (f n) := by
  induction n generalizing s a f bs with
  | zero =>
    obtain ⟨b, rfl⟩ := List.length_eq_one_iff.mp hlen
    obtain rfl : b = f 0 := by simpa using hbytes 0
    rfl
  | succ n ih =>
    match bs with
    | b :: c :: bs =>
      obtain rfl : b = f 0 := by simpa using hbytes 0
      rw [State.writeTorn, ih (by simpa using hlen) fun i hi => by simpa using hbytes (i + 1) (by omega), State.tornAt_succ,
        Nat.add_right_comm, Nat.add_assoc a]

/-! Stores (R205 to R212). -/

theorem State.memWrite_of_checkAccess_error {s : State} {ea v : Word} {n : Nat} {f : RaisedFault}
    (h : s.checkAccess ea n .write s.params.alignStrict = .error f) : s.memWrite ea n v = .error f := by
  rw [State.memWrite, h, except_error_bind]

/-- An allowed store sets the low bytes of the value, at once or one by one (R46, R51). -/
theorem State.memWrite_of_allowed {s : State} {ea : Word} {n : Nat} (v : Word) (h : s.Allowed ea.toNat n .write) :
    s.memWrite ea n v = .ok (if ea.toNat % n = 0 then s.writeBytes ea.toNat (bytesOfValue s.params.hostEndian n v)
      else s.writeTorn ea.toNat (bytesOfValue s.params.hostEndian n v)) := by
  rw [State.memWrite, h.checkAccess_eq_ok, except_ok_bind]
  by_cases ha : ea.toNat % n = 0
  · rw [if_pos (aligned_eq_true.mpr ha), if_pos ha, except_pure]
  · rw [if_neg (mt aligned_eq_true.mp ha), if_neg ha, except_pure]

/-- Bytes set at once are stored, and every other byte is kept (R46). -/
theorem stored_writeBytes (s : State) (a n : Nat) (v : Word) :
    Stored s (s.writeBytes a (bytesOfValue s.params.hostEndian n v)).nextSlot a n v.toNat := by
  refine ⟨rfl, fun x => ?_⟩
  rw [State.nextSlot_mem, State.writeBytes_mem, Memory.read_writeBytes, bytesOfValue_length]
  split
  · exact bytesOfValue_getElem?_eq_byteOf _ v (by omega)
  · rfl

/-- Bytes set one by one are stored as the rule of a misaligned store says (R51, R55). -/
theorem tornStored_writeTorn (s : State) (a : Nat) {n : Nat} (hn : 0 < n) (v : Word) :
    TornStored s (s.writeTorn a (bytesOfValue s.params.hostEndian n v)).nextSlot a n v.toNat := by
  refine ⟨s.tornAt a (byteOf s.params.hostEndian n v.toNat), rfl, fun _ _ => rfl, ?_⟩
  have hpc := s.writeTorn_pc a (bytesOfValue s.params.hostEndian n v)
  rw [← State.writeTorn_eq_setByte_tornAt (bs := bytesOfValue s.params.hostEndian n v)
    (by rw [bytesOfValue_length]; omega) fun i hi => bytesOfValue_getElem?_eq_byteOf _ v (by omega)]
  rw [State.nextSlot, State.advance, hpc]

/-- What a regular store leaves, aligned or not. -/
theorem regularStored_of_ite (s : State) (a : Nat) {n : Nat} (hn : 0 < n) (v : Word) :
    RegularStored s (if a % n = 0 then s.writeBytes a (bytesOfValue s.params.hostEndian n v)
      else s.writeTorn a (bytesOfValue s.params.hostEndian n v)).nextSlot a n v.toNat := by
  refine ⟨fun hplain => ?_, fun ha => ?_⟩
  · split
    case isTrue => exact stored_writeBytes s a n v
    case isFalse ha =>
      rw [State.writeTorn_of_identity _ (hplain.resolve_left ha)]
      exact stored_writeBytes s a n v
  · rw [if_neg ha]
    exact tornStored_writeTorn s a hn v

/-- An instruction that, its operands read, stores `v` at `ea`: the faults of the access, and what an allowed one leaves. -/
theorem regularStore_of_exec {i : Instr} {s : State} {ea v : Word} {n : Nat} (hn : 0 < n)
    (hexec : exec i s = s.finish (s.memWrite ea n v >>= fun t => .ok t.nextSlot)) :
    AccessFaults i s ea n .write ∧
      (s.Allowed ea.toNat n .write → ∃ t, exec i s = .next t ∧ RegularStored s t ea.toNat n v.toNat) := by
  refine ⟨accessFaults_of_checkAccess (strict := s.params.alignStrict) (by simp) fun f hf => ?_, fun hallowed =>
    ⟨_, ?_, regularStored_of_ite s ea.toNat hn v⟩⟩
  · rw [hexec, State.memWrite_of_checkAccess_error hf, except_error_bind, State.finish_error]
  · rw [hexec, State.memWrite_of_allowed v hallowed, except_ok_bind, State.finish_ok]

theorem State.storeImm_eq (s : State) (n : Nat) (dst : Reg) (off : BitVec 16) (imm : BitVec 32) :
    s.storeImm n dst off imm = s.finish (s.readReg dst >>= fun base =>
      s.memWrite (effectiveAddress base off) n (immediate64 imm) >>= fun t => .ok t.nextSlot) := by
  rw [← sext64_eq_immediate64]
  rfl

theorem State.storeReg_eq (s : State) (n : Nat) (dst src : Reg) (off : BitVec 16) :
    s.storeReg n dst src off = s.finish (s.readReg dst >>= fun base => s.readReg src >>= fun v =>
      s.memWrite (effectiveAddress base off) n v >>= fun t => .ok t.nextSlot) := rfl

theorem storeImmRule_of_exec {n : Nat} {mk : Reg → BitVec 16 → BitVec 32 → Instr} (hn : 0 < n := by decide)
    (hexec : ∀ s dst off imm, exec (mk dst off imm) s = s.storeImm n dst off imm := by intros; rfl) :
    StoreImmRule n mk := by
  refine fun s off imm => ⟨fun dst hdst => ?_, fun dst base hbase => regularStore_of_exec hn ?_⟩
  · rw [hexec, State.storeImm_eq, State.finish_readReg_of_none _ hdst]
  · rw [hexec, State.storeImm_eq, State.finish_readReg_of_some _ hbase]

theorem storeRegRule_of_exec {n : Nat} {mk : Reg → Reg → BitVec 16 → Instr} (hn : 0 < n := by decide)
    (hexec : ∀ s dst src off, exec (mk dst src off) s = s.storeReg n dst src off := by intros; rfl) :
    StoreRegRule n mk := by
  refine fun s off => ⟨fun dst src hdst => ?_, fun dst base hbase =>
    ⟨fun src hsrc => ?_, fun src v hv => regularStore_of_exec hn ?_⟩⟩
  · rw [hexec, State.storeReg_eq, State.finish_readReg_of_none _ hdst]
  · rw [hexec, State.storeReg_eq, State.finish_readReg_of_some _ hbase, State.finish_readReg_of_none _ hsrc]
  · rw [hexec, State.storeReg_eq, State.finish_readReg_of_some _ hbase, State.finish_readReg_of_some _ hv]

/-- Settles O21: each store is a row of the opcode map, and the sign-extended immediate is what `memWrite` stores. -/
theorem storesOfImmediates : Obligations.StoresOfImmediates :=
  ⟨storeImmForm_of_row, storeImmRule_of_exec, storeImmForm_of_row, storeImmRule_of_exec, storeImmForm_of_row,
    storeImmRule_of_exec, storeImmForm_of_row, storeImmRule_of_exec⟩

/-- Settles O22: each store is a row of the opcode map, the base is read before the source, and the source's value is what
`memWrite` stores. -/
theorem storesOfRegisters : Obligations.StoresOfRegisters :=
  ⟨storeRegForm_of_row, storeRegRule_of_exec, storeRegForm_of_row, storeRegRule_of_exec, storeRegForm_of_row,
    storeRegRule_of_exec, storeRegForm_of_row, storeRegRule_of_exec⟩

end Sys2Proof.Machine
end

section
/-! PROOFS. Atomic operations (R220 to R245): the rows and selectors that accept them, the checked read of the old value
(R244), and the operations in numbers, alike for the widths 32 and 64. -/

namespace Sys2Proof.Machine

/-! The fields that the rows of atomic operations accept (R22, R83, R90, R221). -/

/-- The row of an atomic operation accepts only the selectors that it lists. -/
theorem reads_atomic_imm {p : Params} {next : Option Slot} {sel : List (BitVec 32 × AtomicShape)} {f : Fields} {i : Instr}
    (h : Shape.Reads p next (.atomic sel) f i) : f.imm ∈ sel.map Prod.fst := by
  cases h with
  | atomic op dst src off imm hsel => exact List.mem_map_of_mem (mem_of_findRow hsel)
  | fetch op dst src off imm hsel => exact List.mem_map_of_mem (mem_of_findRow hsel)

theorem reads_atomic_fields {p : Params} {next : Option Slot} {sel : List (BitVec 32 × AtomicShape)} {f : Fields}
    {i : Instr} (h : Shape.Reads p next (.atomic sel) f i) : f.dst.toNat ≤ 10 ∧ f.src.toNat ≤ 10 := by
  cases h with
  | atomic op dst src off imm hsel => exact ⟨dst.num_toNat_le, src.num_toNat_le⟩
  | fetch op dst src off imm hsel => exact ⟨dst.num_toNat_le, src.num_toNat_lt.le⟩

/-- Where the selector is that of a fetch form, `src` is written. -/
theorem reads_fetch_src {p : Params} {next : Option Slot} {sel : List (BitVec 32 × AtomicShape)} {f : Fields} {i : Instr}
    {mk : Reg → Gpr → BitVec 16 → Instr} (h : Shape.Reads p next (.atomic sel) f i)
    (hsel : findRow f.imm sel = some (.fetch mk)) : f.src.toNat < 10 := by
  cases h with
  | atomic op dst src off imm hplain => simp [hplain] at hsel
  | fetch op dst src off imm hfetch => exact src.num_toNat_lt

theorem atomicForm_of_row {op : BitVec 8} {rows : List (BitVec 32 × AtomicShape)} {sel : BitVec 32}
    {mk : Reg → Reg → BitVec 16 → Instr} (hrow : (op, .atomic rows) ∈ atomicRows)
    (hsel : findRow sel rows = some (.plain mk)) : AtomicForm op sel mk := by
  refine ⟨fun dst src off => runsWhere_of_reads (atomicRows_subset hrow) fun _ _ _ => .atomic _ _ _ _ _ hsel,
    fun dst src off hbad => illegal_of_fields (atomicRows_subset hrow) reads_atomic_fields ?_⟩
  rintro ⟨hdst, hsrc⟩
  exact hbad.elim hdst.not_gt hsrc.not_gt

theorem fetchForm_of_row {op : BitVec 8} {rows : List (BitVec 32 × AtomicShape)} {sel : BitVec 32}
    {mk : Reg → Gpr → BitVec 16 → Instr} (hrow : (op, .atomic rows) ∈ atomicRows)
    (hsel : findRow sel rows = some (.fetch mk)) : FetchForm op sel mk := by
  refine ⟨fun dst src off => runsWhere_of_reads (atomicRows_subset hrow) fun _ _ _ => .fetch _ _ _ _ _ hsel,
    fun dst src off hbad => illegalWhere_of_not_reads (atomicRows_subset hrow) fun _ _ _ _ h => ?_⟩
  obtain ⟨hdst, -⟩ := reads_atomic_fields h
  exact hbad.elim hdst.not_gt (reads_fetch_src h hsel).not_ge

theorem illegal_of_selector_not_mem {op : BitVec 8} {rows : List (BitVec 32 × AtomicShape)}
    (hrow : (op, .atomic rows) ∈ atomicRows) {imm : BitVec 32} (himm : imm ∉ rows.map Prod.fst) (dst src : BitVec 4)
    (off : BitVec 16) : Illegal (slotOf op dst src off imm) :=
  illegal_of_fields (accepted := fun f => f.imm ∈ rows.map Prod.fst) (atomicRows_subset hrow) reads_atomic_imm himm

/-- Settles O28: both rows list the ten selectors, and the other bytes with mode BPF_ATOMIC have no row. -/
theorem atomicReservedForms : Obligations.AtomicReservedForms :=
  ⟨fun dst src off _ himm => ⟨illegal_of_selector_not_mem (.head _) himm dst src off,
      illegal_of_selector_not_mem (.tail _ (.head _)) himm dst src off⟩,
    onlyListedOpcodes 0xd3 (by decide) (by decide), onlyListedOpcodes 0xcb (by decide) (by decide), reserved_of_mem⟩

/-! Stored bytes depend on the low bytes of the value only (R46). -/

/-- Byte `i` of a number is that of its low `n` bytes. -/
theorem ofNat_mod_div_pow (v : Nat) {n i : Nat} (hi : i < n) :
    BitVec.ofNat 8 (v % 256 ^ n / 256 ^ i) = BitVec.ofNat 8 (v / 256 ^ i) := by
  have hpow : 256 ^ n = 256 ^ i * 256 ^ (n - i) := by rw [← Nat.pow_add, Nat.add_sub_cancel' hi.le]
  have hdvd : 2 ^ 8 ∣ 256 ^ (n - i) := dvd_pow_self 256 (by omega)
  apply BitVec.eq_of_toNat_eq
  rw [hpow, Nat.mod_mul_right_div_self, BitVec.toNat_ofNat, BitVec.toNat_ofNat, Nat.mod_mod_of_dvd _ hdvd]

theorem byteOf_mod (e : Endian) {n i : Nat} (v : Nat) (hi : i < n) : byteOf e n (v % 256 ^ n) i = byteOf e n v i := by
  cases e with
  | little => exact ofNat_mod_div_pow v hi
  | big => exact ofNat_mod_div_pow v (by omega)

theorem byteOf_congr (e : Endian) {n i v w : Nat} (h : v % 256 ^ n = w % 256 ^ n) (hi : i < n) :
    byteOf e n v i = byteOf e n w i := by
  rw [← byteOf_mod e v hi, h, byteOf_mod e w hi]

theorem bytesOfValue_congr (e : Endian) {n : Nat} {v w : Word} (h : v.toNat % 256 ^ n = w.toNat % 256 ^ n) :
    bytesOfValue e n v = bytesOfValue e n w := by
  refine List.ext_getElem? fun i => ?_
  by_cases hi : i < n
  · rw [bytesOfValue_getElem?_eq_byteOf e v hi, bytesOfValue_getElem?_eq_byteOf e w hi, byteOf_congr e h hi]
  · rw [List.getElem?_eq_none (by simpa using hi), List.getElem?_eq_none (by simpa using hi)]

theorem Stored.congr {s t : State} {a n v w : Nat} (hs : Stored s t a n v) (h : v % 256 ^ n = w % 256 ^ n) :
    Stored s t a n w := by
  obtain ⟨hframe, hmem⟩ := hs
  refine ⟨hframe, fun x => ?_⟩
  rw [hmem]
  split
  · rw [byteOf_congr _ h (by omega)]
  · rfl

/-- The store of an atomic operation leaves the number whose low bytes the value has (R46). -/
theorem stored_atomicWrite (s : State) (ea : Word) {n w : Nat} {v : Word} (h : v.toNat % 256 ^ n = w % 256 ^ n) :
    Stored s (s.atomicWrite ea n v).nextSlot ea.toNat n w :=
  (stored_writeBytes s ea.toNat n v).congr h

theorem State.atomicWrite_congr (s : State) (ea : Word) {n : Nat} {v w : Word}
    (h : v.toNat % 256 ^ n = w.toNat % 256 ^ n) : s.atomicWrite ea n v = s.atomicWrite ea n w := by
  rw [State.atomicWrite, State.atomicWrite, bytesOfValue_congr _ h]

/-- A word of 32 bits is stored as the number that it is taken from. -/
theorem State.atomicWrite_zext64_ofNat (s : State) (ea : Word) (x : Nat) :
    s.atomicWrite ea 4 (zext64 (BitVec.ofNat 32 x)) = s.atomicWrite ea 4 (BitVec.ofNat 64 x) := by
  refine s.atomicWrite_congr ea ?_
  rw [zext64, BitVec.toNat_setWidth, BitVec.toNat_ofNat, BitVec.toNat_ofNat]
  omega

/-! The checked read of the old value (R244, R265). -/

theorem State.Allowed.checkAccess_atomic {s : State} {ea : Word} {n : Nat} (h : s.Allowed ea.toNat n .atomic) :
    s.checkAccess ea n .atomic true = .ok () := by
  obtain ⟨hp, haligned⟩ := h
  exact State.checkAccess_of_allowed hp fun _ => haligned.resolve_right (by simp)

theorem State.atomicRead_of_checkAccess_error {s : State} {ea : Word} {n : Nat} {f : RaisedFault}
    (h : s.checkAccess ea n .atomic true = .error f) : s.atomicRead ea n = .error f := by
  rw [State.atomicRead, h, except_error_bind]

theorem State.atomicRead_of_holds {s : State} {ea : Word} {n : Nat} {bs : List Byte} (h : s.Allowed ea.toNat n .atomic)
    (hb : s.Holds ea.toNat n bs) :
    s.atomicRead ea n = .ok (BitVec.ofNat 64 (numberOf s.params.hostEndian bs)) := by
  rw [State.atomicRead, h.checkAccess_atomic, except_ok_bind, State.readBytes_eq_ok.mpr hb, except_ok_bind,
    valueOfBytes_eq_numberOf, except_pure]

theorem State.atomicRead_of_lowestEmpty {s : State} {ea : Word} {n x : Nat} (h : s.Allowed ea.toNat n .atomic)
    (hx : s.LowestEmpty ea.toNat n x) : s.atomicRead ea n = .error (.uninitByte x) := by
  obtain ⟨hlow, hhigh, hnone, hbelow⟩ := hx
  obtain ⟨i, rfl⟩ := Nat.exists_eq_add_of_le hlow
  rw [State.atomicRead, h.checkAccess_atomic, except_ok_bind, State.readBytes_eq_error.mpr
    ⟨i, by omega, rfl, hnone, fun j hj => hbelow _ (by omega) (by omega)⟩, except_error_bind]

/-- What the read of an atomic operation that goes on with `m` answers: the MemFaults of its checks, UninitRead of the lowest
byte without a value, else what `m` makes of the old value (R244, R265, R267). -/
theorem atomicRead_answers {i : Instr} {s : State} {ea : Word} {n : Nat} {m : Word → Except RaisedFault State}
    (hexec : exec i s = s.finish (s.atomicRead ea n >>= m)) :
    AccessFaults i s ea n .atomic ∧
      (s.Allowed ea.toNat n .atomic →
        (∀ x, s.LowestEmpty ea.toNat n x → exec i s = .next (s.raise (.uninitByte x))) ∧
        ∀ bs, s.Holds ea.toNat n bs →
          exec i s = s.finish (m (BitVec.ofNat 64 (numberOf s.params.hostEndian bs)))) := by
  refine ⟨accessFaults_of_checkAccess (strict := true) (fun _ => rfl) fun f hf => ?_, fun hallowed =>
    ⟨fun x hx => ?_, fun bs hb => ?_⟩⟩
  · rw [hexec, State.atomicRead_of_checkAccess_error hf, except_error_bind, State.finish_error]
  · rw [hexec, State.atomicRead_of_lowestEmpty hallowed hx, except_error_bind, State.finish_error]
  · rw [hexec, State.atomicRead_of_holds hallowed hb, except_ok_bind]

/-- The number that `n` bytes hold is one of `n` bytes (R45). -/
theorem State.Holds.numberOf_lt {s : State} {a n : Nat} {bs : List Byte} (h : s.Holds a n bs) (e : Endian) :
    numberOf e bs < 256 ^ n := by
  obtain ⟨hlen, -⟩ := h
  rw [← hlen, numberOf_eq_valueLE, ← hostOrder_length e bs]
  exact valueLE_lt _

/-- The old value as a number: it is not cut off by the width of a register. -/
theorem State.Holds.toNat_old {s : State} {a n : Nat} {bs : List Byte} (h : s.Holds a n bs) (hn : n ≤ 8) (e : Endian) :
    (BitVec.ofNat 64 (numberOf e bs)).toNat = numberOf e bs := by
  rw [BitVec.toNat_ofNat]
  exact Nat.mod_eq_of_lt ((h.numberOf_lt e).trans_le (Nat.pow_le_pow_right (by decide) hn))

/-! The operations in numbers (R223 to R242). -/

/-- The operation on words of `w` bits is the operation `f` on numbers, modulo 2^w. -/
def Computes {w : Nat} (op : BitVec w → BitVec w → BitVec w) (f : Nat → Nat → Nat) : Prop :=
  ∀ x y, BitVec.ofNat w (f x y) = op (BitVec.ofNat w x) (BitVec.ofNat w y)

theorem computes_add {w : Nat} : Computes (fun old v : BitVec w => old + v) (fun old v => old + v) := BitVec.ofNat_add

theorem computes_or {w : Nat} : Computes (fun old v : BitVec w => old ||| v) (fun old v => old ||| v) :=
  fun _ _ => BitVec.ofNat_or

theorem computes_and {w : Nat} : Computes (fun old v : BitVec w => old &&& v) (fun old v => old &&& v) :=
  fun _ _ => BitVec.ofNat_and

theorem computes_xor {w : Nat} : Computes (fun old v : BitVec w => old ^^^ v) (fun old v => old ^^^ v) :=
  fun _ _ => BitVec.ofNat_xor

theorem computes_exchange {w : Nat} : Computes (fun _ v : BitVec w => v) (fun _ v => v) := fun _ _ => rfl

/-- An atomic operation of `n` bytes that stores the number `f old operand` (R220, R221): what `atomic32` and `atomic64` are,
by `atomic32_eq` and `atomic64_eq`. -/
def State.atomicNumber (s : State) (n : Nat) (f : Nat → Nat → Nat) (dst src : Reg) (off : BitVec 16) (d : FetchTo) : Result :=
  s.finish (s.readReg dst >>= fun base => s.readReg src >>= fun v =>
    s.atomicRead (effectiveAddress base off) n >>= fun old =>
      .ok ((s.atomicWrite (effectiveAddress base off) n (BitVec.ofNat 64 (f old.toNat v.toNat))).fetchTo d old).nextSlot)

theorem State.atomic64_eq {op : Word → Word → Word} {f : Nat → Nat → Nat} (h : Computes op f) (s : State) (dst src : Reg)
    (off : BitVec 16) (d : FetchTo) : s.atomic64 op dst src off d = s.atomicNumber 8 f dst src off d := by
  simp only [State.atomicNumber, h _ _, BitVec.ofNat_toNat, BitVec.setWidth_eq]
  rfl

theorem State.atomic32_eq {op : BitVec 32 → BitVec 32 → BitVec 32} {f : Nat → Nat → Nat} (h : Computes op f) (s : State)
    (dst src : Reg) (off : BitVec 16) (d : FetchTo) :
    s.atomic32 op dst src off d = s.atomicNumber 4 f dst src off d := by
  simp only [State.atomicNumber, ← State.atomicWrite_zext64_ofNat, h _ _]
  simp only [State.atomic32, State.readLow32_bind, low32_eq_half]
  rfl

/-- The compare and exchange of `n` bytes in numbers (R241, R242): what `compareExchange32` and `compareExchange64` are, by
`compareExchange32_eq` and `compareExchange64_eq`. -/
def State.compareExchangeNumber (s : State) (n : Nat) (dst src : Reg) (off : BitVec 16) : Result :=
  s.finish (s.readReg dst >>= fun base => s.readReg src >>= fun v => s.readReg (.gpr .r0) >>= fun c =>
    s.atomicRead (effectiveAddress base off) n >>= fun old =>
      .ok ((if old.toNat % 256 ^ n = c.toNat % 256 ^ n then s.atomicWrite (effectiveAddress base off) n v else s).setReg
        .r0 old).nextSlot)

theorem eq_iff_low_bytes_eq (v w : Word) : v = w ↔ v.toNat % 256 ^ 8 = w.toNat % 256 ^ 8 := by
  rw [Nat.mod_eq_of_lt (b := 256 ^ 8) v.isLt, Nat.mod_eq_of_lt (b := 256 ^ 8) w.isLt, BitVec.toNat_inj]

theorem half_eq_iff_low_bytes_eq (v w : Word) : half v = half w ↔ v.toNat % 256 ^ 4 = w.toNat % 256 ^ 4 := by
  rw [← BitVec.toNat_inj, half, half, BitVec.toNat_ofNat, BitVec.toNat_ofNat, show 256 ^ 4 = 2 ^ 32 by decide]

theorem State.atomicWrite_half (s : State) (ea v : Word) : s.atomicWrite ea 4 (zext64 (half v)) = s.atomicWrite ea 4 v := by
  rw [half, State.atomicWrite_zext64_ofNat, BitVec.ofNat_toNat, BitVec.setWidth_eq]

theorem State.compareExchange64_eq (s : State) (dst src : Reg) (off : BitVec 16) :
    s.compareExchange64 dst src off = s.compareExchangeNumber 8 dst src off := by
  simp only [State.compareExchangeNumber, ← eq_iff_low_bytes_eq]
  rfl

theorem State.compareExchange32_eq (s : State) (dst src : Reg) (off : BitVec 16) :
    s.compareExchange32 dst src off = s.compareExchangeNumber 4 dst src off := by
  simp only [State.compareExchangeNumber, ← half_eq_iff_low_bytes_eq]
  simp only [State.compareExchange32, State.readLow32_bind, low32_eq_half, State.atomicWrite_half]
  rfl

/-! The rules of the instructions. -/

/-- A word keeps the low bytes of the number that it is taken from. -/
theorem toNat_ofNat_mod_pow {n : Nat} (hn : n ≤ 8) (x : Nat) : (BitVec.ofNat 64 x).toNat % 256 ^ n = x % 256 ^ n := by
  rw [BitVec.toNat_ofNat]
  exact Nat.mod_mod_of_dvd x (pow_dvd_pow 256 hn)

theorem atomicRule_of_exec {n : Nat} {mk : Reg → Reg → BitVec 16 → Instr} {f : Nat → Nat → Nat} (hn : n ≤ 8)
    (hexec : ∀ s dst src off, exec (mk dst src off) s = s.atomicNumber n f dst src off .nothing) : AtomicRule n mk f := by
  intro s off
  have hread {dst src : Reg} {base v : Word} (hbase : s.reg dst = some base) (hv : s.reg src = some v) :
      exec (mk dst src off) s = s.finish (s.atomicRead (effectiveAddress base off) n >>= fun old =>
        .ok (s.atomicWrite (effectiveAddress base off) n (BitVec.ofNat 64 (f old.toNat v.toNat))).nextSlot) := by
    rw [hexec, State.atomicNumber, State.finish_readReg_of_some _ hbase, State.finish_readReg_of_some _ hv]
    rfl
  refine ⟨⟨fun dst src hdst => ?_, fun dst base hbase => ⟨fun src hsrc => ?_, fun src v hv => ?_⟩⟩,
    fun dst src base v bs hbase hv => ?_⟩
  · rw [hexec, State.atomicNumber, State.finish_readReg_of_none _ hdst]
  · rw [hexec, State.atomicNumber, State.finish_readReg_of_some _ hbase, State.finish_readReg_of_none _ hsrc]
  · obtain ⟨hfaults, hanswers⟩ := atomicRead_answers (hread hbase hv)
    exact ⟨hfaults, fun hallowed => (hanswers hallowed).left⟩
  · intro a hallowed hb
    obtain ⟨-, hanswers⟩ := atomicRead_answers (hread hbase hv)
    refine ⟨_, (hanswers hallowed).right bs hb, ?_⟩
    rw [hb.toNat_old hn]
    exact stored_atomicWrite s _ (toNat_ofNat_mod_pow hn _)

theorem fetchRule_of_exec {n : Nat} {mk : Reg → Gpr → BitVec 16 → Instr} {f : Nat → Nat → Nat} (hn : n ≤ 8)
    (hexec : ∀ s dst src off, exec (mk dst src off) s = s.atomicNumber n f dst (.gpr src) off (.register src)) :
    FetchRule n mk f := by
  refine fun s off => ⟨fun dst src hdst => ?_, fun dst base hbase => ⟨fun src hsrc => ?_, fun src v hv => ?_⟩⟩
  · rw [hexec, State.atomicNumber, State.finish_readReg_of_none _ hdst]
  · rw [hexec, State.atomicNumber, State.finish_readReg_of_some _ hbase, State.finish_readReg_of_none _ hsrc]
  · intro ea
    have hread : exec (mk dst src off) s = s.finish (s.atomicRead ea n >>= fun old =>
        .ok ((s.atomicWrite ea n (BitVec.ofNat 64 (f old.toNat v.toNat))).nextSlot.setReg src old)) := by
      rw [hexec, State.atomicNumber, State.finish_readReg_of_some _ hbase,
        State.finish_readReg_of_some (r := .gpr src) _ hv]
      rfl
    obtain ⟨hfaults, hanswers⟩ := atomicRead_answers hread
    refine ⟨hfaults, fun hallowed => ⟨(hanswers hallowed).left, fun bs hb => ⟨_, (hanswers hallowed).right bs hb, ?_⟩⟩⟩
    rw [hb.toNat_old hn]
    exact stored_atomicWrite s _ (toNat_ofNat_mod_pow hn _)

theorem compareExchangeRule_of_exec {n : Nat} {mk : Reg → Reg → BitVec 16 → Instr} (hn : n ≤ 8)
    (hexec : ∀ s dst src off, exec (mk dst src off) s = s.compareExchangeNumber n dst src off) :
    CompareExchangeRule n mk := by
  refine fun s off => ⟨fun dst src hdst => ?_, fun dst base hbase =>
    ⟨fun src hsrc => ?_, fun src v hv => ⟨fun hr0 => ?_, fun c hc => ?_⟩⟩⟩
  · rw [hexec, State.compareExchangeNumber, State.finish_readReg_of_none _ hdst]
  · rw [hexec, State.compareExchangeNumber, State.finish_readReg_of_some _ hbase, State.finish_readReg_of_none _ hsrc]
  · rw [hexec, State.compareExchangeNumber, State.finish_readReg_of_some _ hbase, State.finish_readReg_of_some _ hv,
      State.finish_readReg_of_none _ hr0]
  · intro ea
    have hread : exec (mk dst src off) s = s.finish (s.atomicRead ea n >>= fun old =>
        .ok ((if old.toNat % 256 ^ n = c.toNat % 256 ^ n then s.atomicWrite ea n v else s).setReg .r0 old).nextSlot) := by
      rw [hexec, State.compareExchangeNumber, State.finish_readReg_of_some _ hbase, State.finish_readReg_of_some _ hv,
        State.finish_readReg_of_some (r := .gpr .r0) _ hc]
    obtain ⟨hfaults, hanswers⟩ := atomicRead_answers hread
    refine ⟨hfaults, fun hallowed => ⟨(hanswers hallowed).left, fun bs hb => ?_⟩⟩
    have hanswer := (hanswers hallowed).right bs hb
    rw [hb.toNat_old hn, Nat.mod_eq_of_lt (hb.numberOf_lt _)] at hanswer
    refine ⟨fun hmatch => ⟨(s.atomicWrite ea n v).nextSlot, ?_, stored_atomicWrite s ea rfl⟩, fun hdiffer => ?_⟩
    · rw [hanswer, if_pos hmatch]
      rfl
    · rw [hanswer, if_neg hdiffer]
      rfl

theorem atomicRule_of_computes32 {mk : Reg → Reg → BitVec 16 → Instr} {op : BitVec 32 → BitVec 32 → BitVec 32}
    {f : Nat → Nat → Nat} (h : Computes op f)
    (hexec : ∀ s dst src off, exec (mk dst src off) s = s.atomic32 op dst src off .nothing := by intros; rfl) :
    AtomicRule 4 mk f :=
  atomicRule_of_exec (by decide) fun s dst src off => (hexec s dst src off).trans (s.atomic32_eq h dst src off .nothing)

theorem atomicRule_of_computes64 {mk : Reg → Reg → BitVec 16 → Instr} {op : Word → Word → Word} {f : Nat → Nat → Nat}
    (h : Computes op f)
    (hexec : ∀ s dst src off, exec (mk dst src off) s = s.atomic64 op dst src off .nothing := by intros; rfl) :
    AtomicRule 8 mk f :=
  atomicRule_of_exec (by decide) fun s dst src off => (hexec s dst src off).trans (s.atomic64_eq h dst src off .nothing)

theorem fetchRule_of_computes32 {mk : Reg → Gpr → BitVec 16 → Instr} {op : BitVec 32 → BitVec 32 → BitVec 32}
    {f : Nat → Nat → Nat} (h : Computes op f)
    (hexec : ∀ s dst src off, exec (mk dst src off) s = s.atomic32 op dst (.gpr src) off (.register src) := by
      intros; rfl) : FetchRule 4 mk f :=
  fetchRule_of_exec (by decide) fun s dst src off => (hexec s dst src off).trans (s.atomic32_eq h dst (.gpr src) off _)

theorem fetchRule_of_computes64 {mk : Reg → Gpr → BitVec 16 → Instr} {op : Word → Word → Word} {f : Nat → Nat → Nat}
    (h : Computes op f)
    (hexec : ∀ s dst src off, exec (mk dst src off) s = s.atomic64 op dst (.gpr src) off (.register src) := by
      intros; rfl) : FetchRule 8 mk f :=
  fetchRule_of_exec (by decide) fun s dst src off => (hexec s dst src off).trans (s.atomic64_eq h dst (.gpr src) off _)

/-! The instructions. -/

/-- Settles O23: each is listed in its row of the opcode map, and the sum of words is the sum of numbers modulo 2^W. -/
theorem atomicAdd : Obligations.AtomicAdd :=
  ⟨atomicForm_of_row (.head _) rfl, atomicRule_of_computes32 computes_add,
    fetchForm_of_row (.head _) rfl, fetchRule_of_computes32 computes_add,
    atomicForm_of_row (.tail _ (.head _)) rfl, atomicRule_of_computes64 computes_add,
    fetchForm_of_row (.tail _ (.head _)) rfl, fetchRule_of_computes64 computes_add⟩

/-- Settles O24: each is listed in the row of the byte 0xc3, and the low halves combine bit by bit as the numbers do. -/
theorem atomicBitwise32 : Obligations.AtomicBitwise32 :=
  ⟨atomicForm_of_row (.head _) rfl, atomicRule_of_computes32 computes_or,
    fetchForm_of_row (.head _) rfl, fetchRule_of_computes32 computes_or,
    atomicForm_of_row (.head _) rfl, atomicRule_of_computes32 computes_and,
    fetchForm_of_row (.head _) rfl, fetchRule_of_computes32 computes_and,
    atomicForm_of_row (.head _) rfl, atomicRule_of_computes32 computes_xor,
    fetchForm_of_row (.head _) rfl, fetchRule_of_computes32 computes_xor⟩

/-- Settles O25: each is listed in the row of the byte 0xdb, and words combine bit by bit as the numbers do. -/
theorem atomicBitwise64 : Obligations.AtomicBitwise64 :=
  ⟨atomicForm_of_row (.tail _ (.head _)) rfl, atomicRule_of_computes64 computes_or,
    fetchForm_of_row (.tail _ (.head _)) rfl, fetchRule_of_computes64 computes_or,
    atomicForm_of_row (.tail _ (.head _)) rfl, atomicRule_of_computes64 computes_and,
    fetchForm_of_row (.tail _ (.head _)) rfl, fetchRule_of_computes64 computes_and,
    atomicForm_of_row (.tail _ (.head _)) rfl, atomicRule_of_computes64 computes_xor,
    fetchForm_of_row (.tail _ (.head _)) rfl, fetchRule_of_computes64 computes_xor⟩

/-- Settles O26: each is listed in its row of the opcode map, and the low bytes of `src` are what is stored. -/
theorem atomicExchange : Obligations.AtomicExchange :=
  ⟨fetchForm_of_row (.head _) rfl, fetchRule_of_computes32 computes_exchange,
    fetchForm_of_row (.tail _ (.head _)) rfl, fetchRule_of_computes64 computes_exchange⟩

/-- Settles O27: each is listed in its row of the opcode map, the checked read comes before the comparison, and the
comparison is that of the numbers of the low bytes. -/
theorem atomicCompareExchange : Obligations.AtomicCompareExchange :=
  ⟨atomicForm_of_row (.head _) rfl, compareExchangeRule_of_exec (by decide) State.compareExchange32_eq,
    atomicForm_of_row (.tail _ (.head _)) rfl, compareExchangeRule_of_exec (by decide) State.compareExchange64_eq⟩

end Sys2Proof.Machine
end

section
/-! PROOFS. The 64-bit immediate load (R250, R251, R253, R266): what the row of `lddw` reads from its two slots under either
WIDE_IMM_LAYOUT, and that its second slot is no first slot. -/

namespace Sys2Proof.Machine

/-! The fields and the second slot that the row of `lddw` accepts (R22, R72, R90, R250, R253). -/

theorem lddw_row : (0x18, .wide .lddw) ∈ opcodeMap := ldRows_subset (.head _)

theorem reads_wide_fields {p : Params} {next : Option Slot} {mk : Gpr → Word → Instr} {f : Fields} {i : Instr}
    (h : Shape.Reads p next (.wide mk) f i) : f.src = 0 ∧ f.off = 0 ∧ f.dst.toNat < 10 := by
  cases h with
  | wide op dst imm64 => exact ⟨rfl, rfl, dst.num_toNat_lt⟩
  | wideSplit op dst low high => exact ⟨rfl, rfl, dst.num_toNat_lt⟩

/-- Under WIDE_IMM_LAYOUT = source the first slot's `imm` is unused (R90, R253). -/
theorem reads_wide_imm {p : Params} {next : Option Slot} {mk : Gpr → Word → Instr} {f : Fields} {i : Instr}
    (h : Shape.Reads p next (.wide mk) f i) (hlayout : p.wideImm = .source) : f.imm = 0 := by
  cases h with
  | wide op dst imm64 => rfl
  | wideSplit op dst low high hsplit => simp [hlayout] at hsplit

/-- Without a second slot there is no wide instruction (R250). -/
theorem not_reads_wide_none {p : Params} {mk : Gpr → Word → Instr} {f : Fields} {i : Instr} :
    ¬ Shape.Reads p none (.wide mk) f i := by
  intro h
  cases h with
  | wide op dst imm64 _ hnext => cases hnext
  | wideSplit op dst low high _ hnext => cases hnext

/-- Under WIDE_IMM_LAYOUT = split32 the low half of the second slot is unused (R253). -/
theorem reads_wide_second_slot {p : Params} {w1 : Slot} {mk : Gpr → Word → Instr} {f : Fields} {i : Instr}
    (h : Shape.Reads p (some w1) (.wide mk) f i) (hlayout : p.wideImm = .split32) : w1.toNat % 2 ^ 32 = 0 := by
  cases h with
  | wide op dst imm64 hsource => simp [hlayout] at hsource
  | wideSplit op dst low high _ hnext =>
    cases hnext
    rw [← BitVec.toNat_setWidth, BitVec.setWidth_append_eq_right]
    rfl

/-! Slots with the opcode byte of `lddw`. -/

/-- A slot with the opcode byte 0x18 decodes to what the row of `lddw` reads (R80, R84). -/
theorem decode_eq_ok_iff_of_wide {p : Params} {w : Slot} {next : Option Slot} {i : Instr} (hw : w.toNat % 256 = 0x18) :
    decode p w next = .ok i ↔ Shape.Reads p next (.wide .lddw) (Fields.ofSlot w) i := by
  have hopcode : (Fields.ofSlot w).opcode = 0x18 := eq_of_beq ((isWide_iff w).mpr hw)
  rw [decode_eq_ok_iff, hopcode, findRow_of_mem opcodeMap_distinct lddw_row]
  simp only [Option.some.injEq, exists_eq_left']

/-- A first slot with the opcode byte 0x18 that the row of `lddw` does not read with its second slot is illegal (R91). -/
theorem step_of_not_reads_wide {s : State} {w : Slot} {next : Option Slot} (hs : s.status = .running)
    (hf : s.fetchSlots = .ok (w, next)) (hw : w.toNat % 256 = 0x18)
    (hread : ∀ i, ¬ Shape.Reads s.params next (.wide .lddw) (Fields.ofSlot w) i) :
    step s = .next (s.raise (.illegalInstruction w)) := by
  cases hd : decode s.params w next with
  | ok i => exact absurd ((decode_eq_ok_iff_of_wide hw).mp hd) (hread i)
  | error e => exact step_of_decode_error hs hf hd

/-- What `lddw` does (R250). -/
theorem exec_lddw (dst : Gpr) (imm64 : Word) (s : State) :
    exec (.lddw dst imm64) s = .next { s with regs := s.regs.set dst imm64, pc := s.pc + 2 } := rfl

/-- Settles O29: the row of `lddw` reads the two slots under either layout, and each other slot violates one of the
conditions that the row sets. -/
theorem wideLoad : Obligations.WideLoad := by
  refine ⟨fun s dst imm64 => exec_lddw dst imm64 s, ?source, ?split, ?fields, ?imm, ?missing, ?low⟩
  case source =>
    intro s dst w1 hs hlayout hf
    exact stepped_of_decode hs hf ((decode_slotOf_eq_ok_iff lddw_row).mpr (.wide _ _ _ hlayout rfl))
  case split =>
    intro s dst lo hi hs hlayout hf
    exact stepped_of_decode hs hf ((decode_slotOf_eq_ok_iff lddw_row).mpr (.wideSplit _ _ _ _ hlayout rfl))
  case fields => exact illegal_of_fieldsK lddw_row reads_wide_fields
  case imm =>
    intro dst src off imm himm
    exact illegalWhere_of_not_reads lddw_row fun _ _ _ hlayout h => himm (reads_wide_imm h hlayout)
  case missing =>
    intro s w hs hf hw
    exact step_of_not_reads_wide hs hf hw fun _ => not_reads_wide_none
  case low =>
    intro s w w1 hs hlayout hf hw hlow
    exact step_of_not_reads_wide hs hf hw fun _ h => hlow (reads_wide_second_slot h hlayout)

/-! The second slot is no first slot (R251). -/

/-- Behind a wide first slot there is no first slot: it could only be reached over another wide slot, one index before, behind
which the wide slot itself would be no first slot. -/
theorem not_firstSlotAt_succ_of_wide {program : List Slot} {i : Nat} {w : Slot} (hfirst : FirstSlotAt program i)
    (hi : program[i]? = some w) (hw : w.toNat % 256 = 0x18) : ¬ FirstSlotAt program (i + 1) := by
  induction i generalizing w with
  | zero =>
    intro h
    cases h with
    | basic _ v _ hv hbasic => exact hbasic (Option.some.inj (hi.symm.trans hv) ▸ hw)
  | succ j ih =>
    intro h
    cases h with
    | basic _ v _ hv hbasic => exact hbasic (Option.some.inj (hi.symm.trans hv) ▸ hw)
    | wide _ v hbefore hv hwide => exact ih hbefore hv hwide hfirst

/-- Where no first slot is, a step raises PcFault (R266). -/
theorem step_of_not_first {s : State} (hs : s.status = .running)
    (h : ∀ i : Nat, s.pc = (i : Int) → ¬ FirstSlotAt s.program i) : step s = .next (s.raise .pcFault) := by
  refine step_of_fetch_error hs ?_
  simp only [State.fetch, State.fetchSlots_of_not_first h]

/-- Settles O30: `pc` is no first slot, by the scan of PROGRAM. -/
theorem secondSlotIsNoInstruction : Obligations.SecondSlotIsNoInstruction := by
  intro s i w hs hfirst hi hw hpc
  refine step_of_not_first hs fun j hj => ?_
  obtain rfl : j = i + 1 := by omega
  exact not_firstSlotAt_succ_of_wide hfirst hi hw

end Sys2Proof.Machine
end

section
/-! PROOFS. Legacy packet access (R255, R256): the rows of the eight legacy bytes accept every slot, and what they read is
refused. -/

namespace Sys2Proof.Machine

/-- What `ldabs` does (R255). -/
theorem exec_ldabs (size : Size) (dst src : BitVec 4) (off : BitVec 16) (imm : BitVec 32) (s : State) :
    exec (.ldabs size dst src off imm) s = .refused (.legacyPacketAccess s.pc) := rfl

/-- What `ldind` does (R255). -/
theorem exec_ldind (size : Size) (dst src : BitVec 4) (off : BitVec 16) (imm : BitVec 32) (s : State) :
    exec (.ldind size dst src off imm) s = .refused (.legacyPacketAccess s.pc) := rfl

/-- The legacy bytes are those of mode BPF_ABS or BPF_IND with each size (R256). -/
theorem exists_size_of_mem_legacyBytes {b : BitVec 8} (hb : b ∈ legacyBytes) :
    ∃ size, b = legacyOpcode 1 size ∨ b = legacyOpcode 2 size := by
  fin_cases hb
  · exact ⟨.w, .inl rfl⟩
  · exact ⟨.h, .inl rfl⟩
  · exact ⟨.b, .inl rfl⟩
  · exact ⟨.dw, .inl rfl⟩
  · exact ⟨.w, .inr rfl⟩
  · exact ⟨.h, .inr rfl⟩
  · exact ⟨.b, .inr rfl⟩
  · exact ⟨.dw, .inr rfl⟩

/-- Every legacy byte has a row of `ldabs` or of `ldind` (R84, R256). -/
theorem legacy_row {b : BitVec 8} (hb : b ∈ legacyBytes) :
    (b, .legacy .ldabs) ∈ opcodeMap ∨ (b, .legacy .ldind) ∈ opcodeMap := by
  obtain ⟨size, rfl | rfl⟩ := exists_size_of_mem_legacyBytes hb
  · exact .inl (ldRows_subset (legacy_mem_ldRows size).1)
  · exact .inr (ldRows_subset (legacy_mem_ldRows size).2)

/-- A legacy row accepts a slot with its byte whatever the other fields and the second slot hold (R256). -/
theorem decode_of_legacy_row {p : Params} {w : Slot} {next : Option Slot}
    {mk : Size → BitVec 4 → BitVec 4 → BitVec 16 → BitVec 32 → Instr}
    (hrow : (w.extractLsb' 0 8, .legacy mk) ∈ opcodeMap) :
    ∃ size dst src off imm, decode p w next = .ok (mk size dst src off imm) :=
  ⟨_, _, _, _, _, decode_eq_ok_iff.mpr ⟨_, findRow_of_mem opcodeMap_distinct hrow, .legacy ..⟩⟩

/-- A slot that decodes to an instruction that is refused makes the step refuse (R264). -/
theorem step_of_exec_refused {s : State} {w : Slot} {next : Option Slot} {i : Instr} {q : Refusal}
    (hs : s.status = .running) (hf : s.fetchSlots = .ok (w, next)) (hd : decode s.params w next = .ok i)
    (hexec : exec i s = .refused q) : step s = .refused q := by
  rw [step_of_fetch hs (State.fetch_of_decode hf hd), hexec, betweenSteps_refused]

/-- Settles O31: a legacy byte decodes to `ldabs` or `ldind`, both of which are refused, and the bytes of the other classes
have no row. -/
theorem legacyIsRefused : Obligations.LegacyIsRefused := by
  refine ⟨fun s w next hs hf hw => ?_, exec_ldabs, exec_ldind, reserved_of_mem⟩
  obtain hrow | hrow := legacy_row hw
  · obtain ⟨_, _, _, _, _, hd⟩ := decode_of_legacy_row hrow
    exact step_of_exec_refused hs hf hd (exec_ldabs ..)
  · obtain ⟨_, _, _, _, _, hd⟩ := decode_of_legacy_row hrow
    exact step_of_exec_refused hs hf hd (exec_ldind ..)

end Sys2Proof.Machine
end

section
/-! PROOFS. The end of a run (R262, R264, R266, R272, R280, R281, R294) and its start (R31, R290): where a step fetches,
how it leaves the run status, and which instructions answer a next state. -/

namespace Sys2Proof.Machine

/-! Where a step fetches (R266). -/

/-- What the fetch gives stands at `pc` (R91). -/
theorem State.getElem?_of_fetchSlots {s : State} {w : Slot} {next : Option Slot} (h : s.fetchSlots = .ok (w, next)) :
    s.program[s.pc.toNat]? = some w := by
  by_cases hfirst : ∃ i : Nat, s.pc = (i : Int) ∧ FirstSlotAt s.program i
  · obtain ⟨i, hpc, hi⟩ := hfirst
    obtain ⟨v, hv, hfetch⟩ := State.fetchSlots_of_first hpc hi
    cases h.symm.trans hfetch
    rwa [hpc, Int.toNat_natCast]
  · rw [State.fetchSlots_of_not_first fun i hpc hi => hfirst ⟨i, hpc, hi⟩] at h
    cases h

/-- Where there is no slot to fetch, the fetch raises what that raised (R266). -/
theorem State.fetch_of_fetchSlots_error {s : State} {f : RaisedFault} (h : s.fetchSlots = .error f) :
    s.fetch = .error f := by
  simp only [State.fetch, h]

/-- Settles O32: the fetch answers slots at first slots only, and below 0 and from the end of PROGRAM on there is none. -/
theorem fetchAtFirstSlots : Obligations.FetchAtFirstSlots := by
  refine fun s hs => ⟨fun i => State.fetchSlots_of_first, step_of_not_first hs, fun hout => ?_⟩
  refine step_of_not_first hs fun i hpc hfirst => ?_
  have hlt := hfirst.lt_length
  omega

/-! How a step leaves the run status (R262, R272, R280). -/

/-- After a step the run goes on, or the step raised a fault, or it ran `exit`. -/
theorem step_status_cases {s t : State} (h : step s = .next t) :
    t.status = .running ∨ (∃ f, t = s.raise f) ∨
      (s.fetch = .ok .exit ∧ ∃ v, s.regs.get .r0 = some v ∧ t = s.exit v) := by
  obtain ⟨hs, ⟨f, -, rfl⟩ | ⟨i, u, hfetch, hexec, rfl⟩⟩ := step_cases h
  · exact .inr (.inl ⟨f, rfl⟩)
  · rcases (exec_did hexec).status with hu | ⟨f, rfl⟩ | ⟨rfl, v, hv, rfl⟩
    · rw [if_pos (hu.trans hs), State.envMove_status]
      exact .inl (hu.trans hs)
    · exact .inr (.inl ⟨f, if_neg (by simp)⟩)
    · exact .inr (.inr ⟨hfetch, v, hv, if_neg (by simp)⟩)

/-- Settles O35: of the three ways to leave the run status only a raised fault makes it `Faulted`. -/
theorem faultsArePrecise : Obligations.FaultsArePrecise := by
  intro s t f p _ hstep hstatus
  rcases step_status_cases hstep with hrunning | ⟨g, rfl⟩ | ⟨-, v, -, rfl⟩
  · cases hrunning.symm.trans hstatus
  · cases hstatus
    exact ⟨rfl, rfl, step_of_not_running (by simp)⟩
  · cases hstatus

/-- Settles O37: of the three ways to leave the run status only `exit` makes it `Exited`. -/
theorem onlyExitEndsNormally : Obligations.OnlyExitEndsNormally := by
  intro s t v _ hstep hstatus
  rcases step_status_cases hstep with hrunning | ⟨f, rfl⟩ | ⟨hfetch, w, hw, rfl⟩
  · cases hrunning.symm.trans hstatus
  · cases hstatus
  · cases hstatus
    exact ⟨hfetch, hw, rfl⟩

/-- Settles O34: a step looks at the run status first. -/
theorem endedRunTakesNoStep : Obligations.EndedRunTakesNoStep := fun _ => step_of_not_running

/-! Which instructions answer a next state (R264, R281). -/

/-- The instructions of legacy packet access (R255). -/
inductive PacketAccess : Instr → Prop
  | ldabs (size dst src off imm) : PacketAccess (.ldabs size dst src off imm)
  | ldind (size dst src off imm) : PacketAccess (.ldind size dst src off imm)

theorem PacketAccess.exec_eq {i : Instr} (h : PacketAccess i) (s : State) :
    exec i s = .refused (.legacyPacketAccess s.pc) := by
  cases h with
  | ldabs => exact exec_ldabs ..
  | ldind => exact exec_ldind ..

theorem legacyOpcode_mem_legacyBytes (size : Size) :
    legacyOpcode 1 size ∈ legacyBytes ∧ legacyOpcode 2 size ∈ legacyBytes := by
  cases size <;> decide

/-- The encoder writes packet access as one slot with a legacy opcode byte (R256). -/
theorem PacketAccess.encode_eq {i : Instr} (h : PacketAccess i) (p : Params) :
    ∃ f : Fields, encode p i = [f.toSlot] ∧ f.opcode ∈ legacyBytes := by
  cases h with
  | ldabs size => exact ⟨_, rfl, (legacyOpcode_mem_legacyBytes size).1⟩
  | ldind size => exact ⟨_, rfl, (legacyOpcode_mem_legacyBytes size).2⟩

/-- A slot that decodes to packet access has a legacy opcode byte: it is the slot that the encoder writes. -/
theorem PacketAccess.byte_of_decode {p : Params} {w : Slot} {next : Option Slot} {i : Instr} (h : PacketAccess i)
    (hd : decode p w next = .ok i) : w.extractLsb' 0 8 ∈ legacyBytes := by
  obtain ⟨f, hencode, hopcode⟩ := h.encode_eq p
  obtain ⟨rfl, -⟩ := List.cons.inj (hencode.symm.trans (encodeOfDecode p w next i hd))
  show (Fields.ofSlot f.toSlot).opcode ∈ legacyBytes
  rwa [Fields.ofSlot_toSlot]

/-- Every other instruction answers a next state: it jumps, loads its immediate, is illegal under the parameters, or is
finished, with its result or with a fault (R272). -/
theorem exec_answers {i : Instr} (h : ¬ PacketAccess i) (s : State) : ∃ t, exec i s = .next t := by
  cases i with
  | ldabs => exact absurd (.ldabs ..) h
  | ldind => exact absurd (.ldind ..) h
  | ja => exact ⟨_, rfl⟩
  | lddw => exact ⟨_, exec_lddw ..⟩
  | neg32K | neg64K =>
    simp only [exec, execNeg32K, execNeg64K]
    split
    · exact s.finish_answers _
    · split
      · exact s.finish_answers _
      · exact ⟨_, rfl⟩
  | neg32X | neg64X =>
    simp only [exec, execNeg32X, execNeg64X]
    split
    · exact s.finish_answers _
    · exact ⟨_, rfl⟩
  | mov32K | mov64K =>
    simp only [exec, execMov32K, execMov64K]
    exact s.finish_answers _
  | _ => exact s.finish_answers _

/-- Settles O36: a fault of the fetch or of the decoding is raised, packet access is refused, and every other instruction
answers a next state. -/
theorem runningStepsAnswer : Obligations.RunningStepsAnswer := by
  intro s hs
  cases hslots : s.fetchSlots with
  | error f => exact .inl ⟨_, step_of_fetch_error hs (State.fetch_of_fetchSlots_error hslots)⟩
  | ok slots =>
    obtain ⟨w, next⟩ := slots
    cases hd : decode s.params w next with
    | error e => exact .inl ⟨_, step_of_decode_error hs hslots hd⟩
    | ok i =>
      by_cases hi : PacketAccess i
      · exact .inr ⟨step_of_exec_refused hs hslots hd (hi.exec_eq s), w, State.getElem?_of_fetchSlots hslots,
          hi.byte_of_decode hd⟩
      · obtain ⟨u, hu⟩ := exec_answers hi s
        rw [step_of_fetch hs (State.fetch_of_decode hslots hd), hu, betweenSteps_next]
        exact .inl ⟨_, rfl⟩

/-! The state after reset (R31, R290). -/

/-- Settles O44: reset is the entry with empty ENTRY_ARGS, empty PROGRAM and empty memory. -/
theorem resetState : Obligations.ResetState :=
  ⟨rfl, rfl, fun r => by cases r <;> rfl, fun _ => rfl, rfl, rfl⟩

end Sys2Proof.Machine
end
